-- ==== Sys2Proof/Word.lean ====
section
/-!
DEFINITION. The word types of the BBE: the 64-bit machine word (00_scope.md R7), the byte of the
backing store (20_memory.md R60) and the 32-bit command word (30_encoding.md R90).
-/

namespace Sys2Proof

/-- The 64-bit machine word: CACHE, OPERAND, RESULT and the cursors (R7, R33). Bit 0 is the least
significant bit (R11). -/
abbrev Word := BitVec 64

/-- One byte of the backing store (R60). -/
abbrev Byte := BitVec 8

/-- One command word CMD (R90). -/
abbrev CommandWord := BitVec 32

end Sys2Proof
end

