-- ==== Sys2Proof/Config.lean ====
section
/-!
DEFINITION. What an implementation fixes and the spec leaves open: the one open parameter CAP_MAX
(00_scope.md R8, 92_eei_decisions.md D30, 93_implementation_defined.md U9).
-/

namespace Sys2Proof.Config

/-- The open choice behind CAP_MAX: how many words the store holds, less one. It has no body, so
nothing can evaluate it and every claim holds for each of its 2^58 values.
DESIGN CHOICE (safe), log entry 1. -/
opaque capMaxIndex : BitVec 58

/-- CAP_MAX, the largest capacity in bytes that ALLOC accepts (R8). As `capMaxIndex` runs over its
values, this runs over exactly the values R8 allows: the multiples of 8 from 8 to 2^61. -/
def capMax : Nat := 8 * (capMaxIndex.toNat + 1)

end Sys2Proof.Config
end

