-- ==== Sys2Proof/Syntax.lean ====
section
/-!
DEFINITION. The BBE command set, revision 1 (00_scope.md R3): one constructor of `Instr` for each row of
spec/opcode_table.json (30_encoding.md R98), with the fields of its format (R92 to R96) already read.
-/

namespace Sys2Proof

/-- The byte order BO of a fixed-width command (R93, R160). -/
inductive ByteOrder where
  | little
  | big
deriving DecidableEq, Repr

/-- The sign mode SM of an adaptive command (R94, R200). The code 3 is no sign mode. -/
inductive SignMode where
  | positive
  | negative
  | either
deriving DecidableEq, Repr

/-- The strategy ST of an adaptive command: the half-length prefix or the 3-bit block count (R94, R200). -/
inductive Strategy where
  | half
  | blocked
deriving DecidableEq, Repr

/-- The register index IDX of RDREG (R95), by the read-out map of 10_state.md R44. -/
inductive RegIndex where
  | cache
  | free
  | mode
  | fault
  | fcmd
  | cap
  | wpos
  | rpos
deriving DecidableEq, Repr

/-- The native width W of an adaptive command, fixed by its opcode (R10, R200). -/
inductive IntWidth where
  | w16
  | w32
  | w64
deriving DecidableEq, Repr

/-- One command of the BBE. -/
inductive Instr where
  /-- PUTB: put a run of `width` bits (R126). -/
  | putb (width : Nat)
  /-- GETB: get a run of `width` bits (R127). -/
  | getb (width : Nat)
  /-- PUT_BYTE (R163). -/
  | putByte (bo : ByteOrder)
  /-- PUT_CHAR (R164). -/
  | putChar (bo : ByteOrder)
  /-- PUT_SHORT (R165). -/
  | putShort (bo : ByteOrder)
  /-- PUT_INT (R166). -/
  | putInt (bo : ByteOrder)
  /-- PUT_LONG (R167). -/
  | putLong (bo : ByteOrder)
  /-- PUT_FLOAT (R168). -/
  | putFloat (bo : ByteOrder)
  /-- PUT_DOUBLE (R169). -/
  | putDouble (bo : ByteOrder)
  /-- GET_BYTE (R170). -/
  | getByte (bo : ByteOrder)
  /-- GET_CHAR (R171). -/
  | getChar (bo : ByteOrder)
  /-- GET_SHORT (R172). -/
  | getShort (bo : ByteOrder)
  /-- GET_INT (R173). -/
  | getInt (bo : ByteOrder)
  /-- GET_LONG (R174). -/
  | getLong (bo : ByteOrder)
  /-- GET_FLOAT (R175). -/
  | getFloat (bo : ByteOrder)
  /-- GET_DOUBLE (R176). -/
  | getDouble (bo : ByteOrder)
  /-- PUTV16: the adaptive put of a signed 16-bit integer (R220). -/
  | putv16 (sm : SignMode) (st : Strategy)
  /-- PUTV32 (R221). -/
  | putv32 (sm : SignMode) (st : Strategy)
  /-- PUTV64 (R222). -/
  | putv64 (sm : SignMode) (st : Strategy)
  /-- GETV16: the adaptive get of a signed 16-bit integer (R223). -/
  | getv16 (sm : SignMode) (st : Strategy)
  /-- GETV32 (R224). -/
  | getv32 (sm : SignMode) (st : Strategy)
  /-- GETV64 (R225). -/
  | getv64 (sm : SignMode) (st : Strategy)
  /-- ALLOC: start a buffer of OPERAND bytes (R250). -/
  | alloc
  /-- FLIP: switch to read mode, or rewind (R252). -/
  | flip
  /-- COMPACT: remove the consumed words (R254). -/
  | compact
  /-- RDREG: read a register into RESULT (R258). -/
  | rdreg (idx : RegIndex)
deriving DecidableEq, Repr

end Sys2Proof
end

