-- ==== Sys2Proof/Machine/State.lean ====
section
/-!
DEFINITION. The state of the BBE as plain data (10_state.md R33), what the host's ports hold (R53), the
reasons the model can stop, and the state after reset (R50, 70_reset_and_hazards.md R310).
-/

namespace Sys2Proof.Machine

/-- MODE: write mode or read mode of the buffer (R36). It is a buffer state, not a privilege (R297). -/
inductive Mode where
  | write
  | read
deriving DecidableEq, Repr

/-- FAULT: the cause of the first fault since the last ALLOC or reset (R40, 60_exceptions.md R280). The
reserved code 7 is never written, and no value here stands for it (log entry 8). -/
inductive FaultCode where
  /-- No fault since the last ALLOC or reset. -/
  | none
  /-- The command word is illegal (R285). -/
  | illegalCommand
  /-- A put in read mode or a get in write mode (R286). -/
  | mode
  /-- A flush would write past CAP (R287). -/
  | overflow
  /-- A refill would read past WPOS (R288). -/
  | underflow
  /-- An adaptive put of -2^(W-1) (R290). -/
  | domain
  /-- ALLOC of more than CAP_MAX bytes (R289). -/
  | allocRange
deriving DecidableEq, Repr

/-- What the host does at the BBE's ports, one at a time and only between commands (R53, R55, R57, R58). -/
inductive HostEvent where
  /-- Present one (CMD, OPERAND) pair on the command port (R55). -/
  | command (cmd : CommandWord) (operand : Word)
  /-- Read the store byte at address `a` through the host read port (R57). -/
  | readByte (a : Nat)
  /-- Assert RESET (R58). -/
  | reset
deriving DecidableEq, Repr

/-- What the BBE answers at its ports. -/
inductive Reply where
  /-- The (OK, RESULT) response to a command (R55). -/
  | response (ok : Bool) (result : Word)
  /-- The byte out of the host read port (R57). -/
  | byte (b : Byte)
deriving DecidableEq, Repr

/-- STORE (R43, 20_memory.md R60): address and byte pairs in one canonical form, addresses strictly rising
and no byte equal to what an unlisted address reads as (`Memory.wf`). -/
abbrev Memory := List Host.Cell

/-- The state of the BBE. The first ten fields are the list of R33, which is exhaustive; the last four are
the model's own, for what the transaction-level ports hold between two steps (R53; log entries 3, 4, 5). -/
structure State where
  /-- CACHE, the shift-register cache (R34). -/
  cache : Word
  /-- FREE, 0 to 64: headroom when writing, unread cache bits when reading (R35). -/
  free : Fin 65
  /-- MODE (R36). -/
  mode : Mode
  /-- CAP, the allocated capacity in bytes (R37). -/
  cap : Word
  /-- WPOS, the store write cursor; in read mode the end of the readable data (R38). -/
  wpos : Word
  /-- RPOS, the store read cursor (R39). -/
  rpos : Word
  /-- FAULT (R40). -/
  fault : FaultCode
  /-- FCMD, the command word of the command that set FAULT (R41). -/
  fcmd : CommandWord
  /-- RESULT (R42). -/
  result : Word
  /-- STORE, the backing byte store (R43). -/
  store : Memory
  /-- The CMD port: the word of the command being executed (R15, R53). -/
  cmd : CommandWord
  /-- The OPERAND port: the operand of the command being executed (R15, R53). -/
  operand : Word
  /-- What the BBE last answered the host, if anything yet (R53, R55, R57). -/
  reply : Option Reply
  /-- What the host is still to do, first event first (R30, R31). -/
  pending : List HostEvent
deriving DecidableEq, Repr

/-- Why a step can stop in a fault: never. Every fault of the spec is a next state with FAULT and FCMD
written (60_exceptions.md R281, R293), so this type has no constructor. Safe. -/
inductive Fault where
deriving DecidableEq, Repr

/-- Why a step can be refused. A command that the spec calls refused (R284) is not one of these: it is a next
state with OK = 0. -/
inductive Refusal where
  /-- Raised by `exec` for an instruction without a meaning; no instruction of the BBE is left without one.
  Safe. -/
  | notModelled (mnemonic : String)
  /-- Raised by a host read at an address at or above CAP, to which a model gives no value (R57,
  93_implementation_defined.md U12). Safe. -/
  | hostReadBeyondCap (a : Nat)
deriving DecidableEq, Repr

/-- The machine right after reset (R50, R310). STORE is unspecified after reset and unobservable (R311);
the model lists nothing, which reads as zero (log entry 2). The port fields hold nothing yet: DESIGN
CHOICE, log entries 3, 4, 5. -/
def State.reset : State where
  cache := 0
  free := 64
  mode := .write
  cap := 0
  wpos := 0
  rpos := 0
  fault := .none
  fcmd := 0
  result := 0
  store := []
  cmd := 0
  operand := 0
  reply := none
  pending := []

end Sys2Proof.Machine
end

