-- ==== Sys2Proof/Machine/Memory.lean ====
section
/-!
DEFINITION. The backing store and its operations (20_memory.md): byte reads and writes over the canonical
list, the little-endian word primitives MemRead and MemWrite (R62, R63), StoreCompact (R73) and
StoreClear (R74).
-/

namespace Sys2Proof.Machine

/-- What an address that is not listed reads as. The store is unspecified after reset and nobody can observe
it before ALLOC zero-fills it (R74, 70_reset_and_hazards.md R311), so zero stands for it.
DESIGN CHOICE, log entry 2. -/
def unlistedByte : Byte := 0

/-- The canonical form: addresses strictly rising, and no listed byte equal to `unlistedByte`. -/
abbrev Memory.wf (m : Memory) : Prop :=
  m.Pairwise (fun c d => c.1 < d.1) ∧ ∀ c ∈ m, c.2 ≠ unlistedByte

/-- The byte of STORE at address `a` (R60). -/
def Memory.read : Memory → Nat → Byte
  | [], _ => unlistedByte
  | (b, v) :: m, a => if a = b then v else Memory.read m a

/-- Put a cell in front, unless it holds what an unlisted address reads as. -/
def Memory.consCell (a : Nat) (v : Byte) (m : Memory) : Memory :=
  if v = unlistedByte then m else (a, v) :: m

/-- Write one byte, keeping the canonical form. -/
def Memory.write : Memory → Nat → Byte → Memory
  | [], a, v => Memory.consCell a v []
  | (b, u) :: m, a, v =>
    if a < b then Memory.consCell a v ((b, u) :: m)
    else if a = b then Memory.consCell a v m
    else (b, u) :: Memory.write m a v

/-- Write bytes at consecutive addresses, the first at `a`. -/
def Memory.writeBytes : Memory → Nat → List Byte → Memory
  | m, _, [] => m
  | m, a, v :: vs => Memory.writeBytes (Memory.write m a v) (a + 1) vs

/-- The bytes of a word in store order: byte k is word bits 8k+7..8k, little-endian (R62, R63). -/
def wordBytes (v : Word) : List Byte := (List.range 8).map fun k => v.extractLsb' (8 * k) 8

/-- `MemRead(a, 8)` (R62): byte a + k supplies word bits 8k+7..8k. The spec calls it only for a multiple of 8
with a + 8 <= CAP; it is total here (log entry 9). -/
def Memory.readWord (m : Memory) (a : Nat) : Word :=
  m.read (a + 7) ++ m.read (a + 6) ++ m.read (a + 5) ++ m.read (a + 4) ++
    m.read (a + 3) ++ m.read (a + 2) ++ m.read (a + 1) ++ m.read a

/-- `MemWrite(a, 8, v)` (R63): the eight bytes of `v` at a..a+7, and no other byte (log entry 9). -/
def Memory.writeWord (m : Memory) (a : Nat) (v : Word) : Memory := m.writeBytes a (wordBytes v)

/-- `StoreClear(c)` (R74): bytes 0..c-1 become zero. -/
def Memory.clear (m : Memory) (c : Nat) : Memory := m.filter fun cell => c ≤ cell.1

/-- `StoreCompact(r, w)` (R73): byte i takes the old byte r + i for every i < w - r, and the bytes from w - r on
keep their old values. -/
def Memory.compact (m : Memory) (r w : Nat) : Memory :=
  ((m.filter fun cell => r ≤ cell.1 ∧ cell.1 < w).map fun cell => (cell.1 - r, cell.2)) ++
    m.filter fun cell => w - r ≤ cell.1

end Sys2Proof.Machine
end

