-- ==== Sys2Proof/Machine/Flags.lean ====
section
/-!
DEFINITION. The status of the BBE. It has no condition codes: MODE, FAULT and the OK bit of a response are all
the status there is (10_state.md R49), so the only computations are the codes that MODE and FAULT read
out as and the FAULT_LINE output.
-/

namespace Sys2Proof.Machine

/-- The bit MODE holds: 0 = WRITE, 1 = READ (R33, R36). -/
def Mode.bit : Mode → BitVec 1
  | .write => 0
  | .read => 1

/-- The 3-bit code FAULT holds (60_exceptions.md R280). -/
def FaultCode.code : FaultCode → BitVec 3
  | .none => 0
  | .illegalCommand => 1
  | .mode => 2
  | .overflow => 3
  | .underflow => 4
  | .domain => 5
  | .allocRange => 6

/-- FAULT_LINE: 1 exactly when FAULT is not 0 (R56). -/
def State.faultLine (s : State) : Bool := s.fault != .none

end Sys2Proof.Machine
end

