-- ==== Sys2Proof/Machine/Operands.lean ====
section
/-!
DEFINITION. How commands read their operands and form their results: the mask table (40_bit_engine.md R120),
the value operators of 00_scope.md R13 and R14, the readings of OPERAND (30_encoding.md R97) and the
register read-out map (10_state.md R44).
-/

namespace Sys2Proof.Machine

/-- The mask table: `mask n` has its low n bits 1 and the others 0, for n in 0..64 (R120, R121). -/
def mask (n : Nat) : Word := BitVec.ofNat 64 (2 ^ n - 1)

/-- `zext_64` of the low n bits of `x` (R13). -/
def zext (n : Nat) (x : Word) : Word := (x.setWidth n).setWidth 64

/-- `sext_64` of the low n bits of `x` (R13): bit n-1 is copied into bits 63..n. -/
def sext (n : Nat) (x : Word) : Word := (x.setWidth n).signExtend 64

/-- `sint_N(x)`: the low n bits of `x` as an n-bit two's-complement number (R13). -/
def sint (n : Nat) (x : Word) : Int := (x.setWidth n).toInt

/-- `neg_N(x)`: -x modulo 2^n, as an n-bit pattern (R13). -/
def neg (n : Nat) (x : Word) : Word := zext n (-x)

/-- Reverse the low `n` bytes of `x`: byte k of the result is byte n - 1 - k of `x` (R13, `byterev_N` for
N = 8n). -/
def byterev : Nat → Word → Word
  | 0, _ => 0
  | n + 1, x => byterev n (x >>> 8) ||| ((x &&& mask 8) <<< (8 * n))

/-- How many halvings, at most `fuel`, take `m` to 0. -/
def bitLengthFrom : Nat → Nat → Nat
  | 0, _ => 0
  | fuel + 1, m => if m = 0 then 0 else bitLengthFrom fuel (m / 2) + 1

/-- `bit_length(m)`: 0 for 0, otherwise the least n with m < 2^n (R14). Every magnitude of the BBE is a 64-bit
word. PRESUMED, as R14 itself marks it: log entry 10. -/
def bitLength (m : Word) : Nat := bitLengthFrom 64 m.toNat

/-- The value put or got in the byte order BO: unchanged for LittleEndian, the native packing order, and
byte-reversed for BigEndian (R160). `n` is the width N in bits. -/
def inByteOrder (bo : ByteOrder) (n : Nat) (x : Word) : Word :=
  match bo with
  | .little => x
  | .big => byterev (n / 8) x

/-- The two widenings of a narrow get (R162). -/
inductive Extension where
  | sign
  | zero
deriving DecidableEq, Repr

/-- Widen the low n bits of `x` to 64 bits (R162). With n = 64 both are the identity. -/
def Extension.apply (e : Extension) (n : Nat) (x : Word) : Word :=
  match e with
  | .sign => sext n x
  | .zero => zext n x

/-- The operand of a fixed-width put, `OPERAND[N-1:0]` (R97, R161). -/
def State.fixedOperand (s : State) (n : Nat) : Word := zext n s.operand

/-- The operand of an adaptive put, `sint_W(OPERAND[W-1:0])` (R97, R200). -/
def State.intOperand (s : State) (n : Nat) : Int := sint n s.operand

/-- The operand of ALLOC, all 64 bits as an unsigned byte count (R97). -/
def State.byteCount (s : State) : Nat := s.operand.toNat

/-- The register read-out map, each value zero-extended to 64 bits (10_state.md R44). -/
def State.register (s : State) : RegIndex → Word
  | .cache => s.cache
  | .free => BitVec.ofNat 64 s.free.val
  | .mode => s.mode.bit.setWidth 64
  | .fault => s.fault.code.setWidth 64
  | .fcmd => s.fcmd.setWidth 64
  | .cap => s.cap
  | .wpos => s.wpos
  | .rpos => s.rpos

end Sys2Proof.Machine
end

