-- ==== Sys2Proof/Machine/Ops.lean ====
section
/-!
DEFINITION. The shared operations: the named updates of the state, taking a fault, refusing and completing a
command (60_exceptions.md R281 to R284), and the engine primitives PutBits and GetBits with their flush
and refill (40_bit_engine.md R124, R125).
-/

namespace Sys2Proof.Machine

/-! ## Named updates of the state -/

/-- CACHE takes `c`, of which the low `used` bits are in use: FREE is 64 - used (R122). -/
def State.fill (s : State) (c : Word) (used : Nat) : State :=
  { s with cache := c, free := ⟨64 - used, by omega⟩ }

/-- FREE goes down by `w` (R124, R125). -/
def State.spend (s : State) (w : Nat) : State :=
  { s with free := ⟨s.free.val - w, by omega⟩ }

/-- One word is in the store at the old WPOS, and WPOS is 8 further (R38, R124). -/
def State.flushed (s : State) (v : Word) : State :=
  { s with store := s.store.writeWord s.wpos.toNat v, wpos := s.wpos + 8 }

/-- CACHE holds the word at the old RPOS, RPOS is 8 further, and `used` bits of the word are read already
(R39, R125). -/
def State.refilled (s : State) (used : Nat) : State :=
  { s with
    cache := s.store.readWord s.rpos.toNat
    rpos := s.rpos + 8
    free := ⟨64 - used, by omega⟩ }

/-- RESULT takes `r` (R42). -/
def State.withResult (s : State) (r : Word) : State := { s with result := r }

/-- A fresh buffer of `n` bytes rounded up to a multiple of 8 (43_lifecycle.md R250). FAULT and FCMD are
cleared: ALLOC is the only command that leaves the faulted state (R294). -/
def State.allocated (s : State) (n : Word) : State :=
  { s with
    cap := (n + 7) &&& ~~~7
    store := s.store.clear ((n + 7) &&& ~~~7).toNat
    cache := 0
    free := 64
    mode := .write
    wpos := 0
    rpos := 0
    fault := .none
    fcmd := 0 }

/-- Read mode, positioned before bit 0 of the store, with an empty cache (43_lifecycle.md R252, R253). -/
def State.rewound (s : State) : State :=
  { s with mode := .read, cache := 0, free := 0, rpos := 0 }

/-- The consumed words are gone from the front of the store; CACHE and FREE are kept (43_lifecycle.md R254). -/
def State.compacted (s : State) : State :=
  { s with
    store := s.store.compact s.rpos.toNat s.wpos.toNat
    wpos := s.wpos - s.rpos
    rpos := 0 }

/-- The BBE answers the command with OK and the RESULT register as it is then (R55). -/
def State.respond (s : State) (ok : Bool) : State :=
  { s with reply := some (.response ok s.result) }

/-! ## How a command ends (60_exceptions.md R282) -/

/-- What a command's rule computes on its working copy of the state (00_scope.md R15): the copy, with a value
for the primitives that give one, or the code of the fault it raises. -/
abbrev Attempt (α : Type) := Except FaultCode α

/-- `raise Fault(code)` (R281, R293): the working copy is gone, FAULT and FCMD record the command if no
earlier fault is recorded, and OK is 0. -/
def State.raise (s : State) (code : FaultCode) : State :=
  if s.fault = .none then { s with fault := code, fcmd := s.cmd }.respond false
  else s.respond false

/-- A refused command: OK is 0 and nothing else changes (R284). -/
def State.refuse (s : State) : State := s.respond false

/-- A command ends: the working copy becomes the state with OK = 1, or the fault is taken on the state
from before the command (R282, R283). -/
def finish (s : State) (attempt : Attempt State) : Host.Outcome State Fault Refusal :=
  match attempt with
  | .ok t => .next (t.respond true)
  | .error code => .next (s.raise code)

/-- A command that executes only while FAULT is 0, and is refused otherwise (R284). -/
def unlessFaulted (s : State) (attempt : Attempt State) : Host.Outcome State Fault Refusal :=
  if s.fault = .none then finish s attempt else .next s.refuse

/-- A command word the decoder refuses: ILLEGAL_COMMAND while FAULT is 0, refused otherwise (R285, R292). -/
def illegalCommand (s : State) : Host.Outcome State Fault Refusal :=
  unlessFaulted s (.error .illegalCommand)

/-- A command that needs MODE = m raises MODE before any other fault of its own (R286, R292). -/
def inMode {α : Type} (m : Mode) (s : State) (attempt : Attempt α) : Attempt α :=
  if s.mode = m then attempt else .error .mode

/-- A get-type command's value goes to RESULT (R42). -/
def toResult (attempt : Attempt (Word × State)) : Attempt State :=
  match attempt with
  | .ok (r, t) => .ok (t.withResult r)
  | .error code => .error code

/-! ## The engine (40_bit_engine.md) -/

/-- Flush the word `v`: OVERFLOW if it would pass CAP (R71, R124, R287). -/
def flushWord (s : State) (v : Word) : Attempt State :=
  if s.cap.toNat < s.wpos.toNat + 8 then .error .overflow else .ok (s.flushed v)

/-- Refill CACHE, of which the command takes `used` bits at once: UNDERFLOW if the word is past WPOS
(R72, R125, R288). -/
def refillWord (s : State) (used : Nat) : Attempt State :=
  if s.wpos.toNat < s.rpos.toNat + 8 then .error .underflow else .ok (s.refilled used)

/-- The fill offset in write mode and the read offset in read mode (R122). -/
def State.offset (s : State) : Nat := 64 - s.free.val

/-- `PutBits(v, w)` (R124). -/
def putBits (s : State) (v : Word) (w : Nat) : Attempt State :=
  let x := v &&& mask w
  let k := s.free.val
  if w ≤ k then
    .ok ({ s with cache := s.cache ||| (x <<< s.offset) }.spend w)
  else
    match flushWord s (s.cache ||| ((x &&& mask k) <<< s.offset)) with
    | .ok t => .ok (t.fill (x >>> k) (w - k))
    | .error code => .error code

/-- `GetBits(w)` (R125). -/
def getBits (s : State) (w : Nat) : Attempt (Word × State) :=
  let k := s.free.val
  if w ≤ k then
    .ok ((s.cache >>> s.offset) &&& mask w, s.spend w)
  else
    match refillWord s (w - k) with
    | .ok t =>
      .ok (((s.cache >>> s.offset) &&& mask k) ||| ((t.cache &&& mask (w - k)) <<< k), t)
    | .error code => .error code

/-- PutBits for each field in turn (42_adaptive_codec.md R212). -/
def putFields : State → List (Word × Nat) → Attempt State
  | s, [] => .ok s
  | s, (v, w) :: fields =>
    match putBits s v w with
    | .ok t => putFields t fields
    | .error code => .error code

end Sys2Proof.Machine
end

