-- ==== Sys2Proof/Machine/Adaptive.lean ====
section
/-!
DEFINITION. The adaptive variable-length integer codec (42_adaptive_codec.md): the field lists and readers of
EncodeV and DecodeV (R212) in the HALF and BLOCKED strategies, and the six commands over them.
-/

namespace Sys2Proof.Machine

/-- The native width W in bits (R200). -/
def widthBits : IntWidth → Nat
  | .w16 => 16
  | .w32 => 32
  | .w64 => 64

/-- The HALF prefix width L = ceil(log2 W) - 1 (R201). -/
def prefixWidth : IntWidth → Nat
  | .w16 => 3
  | .w32 => 4
  | .w64 => 5

/-- The magnitude |v| as a word (R202). -/
def magnitude (v : Int) : Word := BitVec.ofNat 64 v.natAbs

/-- The sign bit `neg`: 1 if v < 0 and 0 otherwise (R202). -/
def signBit (v : Int) : Word := if v < 0 then 1 else 0

/-- n = ceil(bl / 4), the number of 4-bit blocks (R209). -/
def blockCount (bl : Nat) : Nat := (bl + 3) / 4

/-- Whether the escape path is taken for a magnitude of bit length `bl` (R205, R209). -/
def escapes (w : IntWidth) (st : Strategy) (bl : Nat) : Bool :=
  match st with
  | .half => widthBits w - prefixWidth w - 1 ≤ bl
  | .blocked => 8 ≤ blockCount bl || widthBits w - 4 ≤ 4 * blockCount bl

/-- The sign field, present only in the Either mode (R205, R209). -/
def signFields (sm : SignMode) (v : Int) : List (Word × Nat) :=
  match sm with
  | .positive => []
  | .negative => []
  | .either => [(signBit v, 1)]

/-- The prefix, magnitude and pad of the compressed path (R205, R207, R209, R216). -/
def compressedFields (w : IntWidth) (st : Strategy) (m : Word) : List (Word × Nat) :=
  let bl := bitLength m
  match st with
  | .half =>
    [(BitVec.ofNat 64 (bl / 2), prefixWidth w), (m, bl)] ++ (if bl % 2 = 0 then [(0, 1)] else [])
  | .blocked => [(BitVec.ofNat 64 (blockCount bl), 3), (m, 4 * blockCount bl)]

/-- The fields EncodeV puts for the value v, each with its width, in stream order (R212). -/
def encodingFields (w : IntWidth) (sm : SignMode) (st : Strategy) (v : Int) : List (Word × Nat) :=
  let m := magnitude v
  if escapes w st (bitLength m) then
    (0, 1) :: signFields sm v ++ [(m, widthBits w - 1)]
  else
    (1, 1) :: signFields sm v ++ compressedFields w st m

/-- The working copy of `EncodeV(W, S, ST)` (R212): MODE, then DOMAIN for -2^(W-1) (R203), then the fields. -/
def putAdaptive (w : IntWidth) (sm : SignMode) (st : Strategy) (s : State) : Attempt State :=
  inMode .write s <|
    let v := s.intOperand (widthBits w)
    if v = -(2 ^ (widthBits w - 1) : Int) then .error .domain
    else putFields s (encodingFields w sm st v)

/-- The sign bit DecodeV reads: one bit in the Either mode, 0 without a read otherwise (R208, R211). -/
def getSign (sm : SignMode) (s : State) : Attempt (Word × State) :=
  match sm with
  | .positive => .ok (0, s)
  | .negative => .ok (0, s)
  | .either => getBits s 1

/-- The magnitude DecodeV reads after the flag and the sign (R208, R211). -/
def getMagnitude (w : IntWidth) (st : Strategy) (flag : Word) (s : State) : Attempt (Word × State) :=
  if flag = 0 then getBits s (widthBits w - 1)
  else
    match st with
    | .half =>
      match getBits s (prefixWidth w) with
      | .ok (h, t) => getBits t (2 * h.toNat + 1)
      | .error code => .error code
    | .blocked =>
      match getBits s 3 with
      | .ok (n, t) => getBits t (4 * n.toNat)
      | .error code => .error code

/-- The decoded value: the magnitude truncated to W bits, negated modulo 2^W in the Negative mode or when the
sign read is 1, and sign-extended (R212). -/
def decodedValue (w : IntWidth) (sm : SignMode) (sign m : Word) : Word :=
  if sm = .negative ∨ sign = 1 then sext (widthBits w) (neg (widthBits w) m)
  else sext (widthBits w) m

/-- The value and the working copy of `DecodeV(W, S, ST)` (R212). -/
def getAdaptive (w : IntWidth) (sm : SignMode) (st : Strategy) (s : State) : Attempt (Word × State) :=
  inMode .read s <|
    match getBits s 1 with
    | .error code => .error code
    | .ok (flag, s1) =>
      match getSign sm s1 with
      | .error code => .error code
      | .ok (sign, s2) =>
        match getMagnitude w st flag s2 with
        | .error code => .error code
        | .ok (m, s3) => .ok (decodedValue w sm sign m, s3)

/-- PUTV16 (R220). -/
def execPutv16 (sm : SignMode) (st : Strategy) (s : State) : Host.Outcome State Fault Refusal :=
  unlessFaulted s (putAdaptive .w16 sm st s)

/-- PUTV32 (R221). -/
def execPutv32 (sm : SignMode) (st : Strategy) (s : State) : Host.Outcome State Fault Refusal :=
  unlessFaulted s (putAdaptive .w32 sm st s)

/-- PUTV64 (R222). -/
def execPutv64 (sm : SignMode) (st : Strategy) (s : State) : Host.Outcome State Fault Refusal :=
  unlessFaulted s (putAdaptive .w64 sm st s)

/-- GETV16 (R223). -/
def execGetv16 (sm : SignMode) (st : Strategy) (s : State) : Host.Outcome State Fault Refusal :=
  unlessFaulted s (toResult (getAdaptive .w16 sm st s))

/-- GETV32 (R224). -/
def execGetv32 (sm : SignMode) (st : Strategy) (s : State) : Host.Outcome State Fault Refusal :=
  unlessFaulted s (toResult (getAdaptive .w32 sm st s))

/-- GETV64 (R225). -/
def execGetv64 (sm : SignMode) (st : Strategy) (s : State) : Host.Outcome State Fault Refusal :=
  unlessFaulted s (toResult (getAdaptive .w64 sm st s))

end Sys2Proof.Machine
end

