-- ==== Sys2Proof/Machine/BitRun.lean ====
section
/-!
DEFINITION. The bit-run commands PUTB and GETB (40_bit_engine.md R126, R127).
-/

namespace Sys2Proof.Machine

/-- PUTB (R126): append the low `width` bits of OPERAND. -/
def execPutb (width : Nat) (s : State) : Host.Outcome State Fault Refusal :=
  unlessFaulted s (inMode .write s (putBits s s.operand width))

/-- GETB (R127): RESULT takes the next `width` bits, zero-extended. -/
def execGetb (width : Nat) (s : State) : Host.Outcome State Fault Refusal :=
  unlessFaulted s (inMode .read s (toResult (getBits s width)))

end Sys2Proof.Machine
end

