-- ==== Sys2Proof/Machine/FixedWidth.lean ====
section
/-!
DEFINITION. The fixed-width codec (41_fixed_width.md): PutFixed and GetFixed (R161, R162) and the fourteen
commands over them. Floats and doubles pass as bit patterns (R177).
-/

namespace Sys2Proof.Machine

/-- The working copy of `PutFixed(N)` (R161). -/
def putFixed (n : Nat) (bo : ByteOrder) (s : State) : Attempt State :=
  inMode .write s (putBits s (inByteOrder bo n (s.fixedOperand n)) n)

/-- The value and the working copy of `GetFixed(N, ext)` (R162). -/
def getFixed (n : Nat) (ext : Extension) (bo : ByteOrder) (s : State) : Attempt (Word × State) :=
  inMode .read s <|
    match getBits s n with
    | .ok (x, t) => .ok (ext.apply n (inByteOrder bo n x), t)
    | .error code => .error code

/-- PUT_BYTE (R163). -/
def execPutByte (bo : ByteOrder) (s : State) : Host.Outcome State Fault Refusal :=
  unlessFaulted s (putFixed 8 bo s)

/-- PUT_CHAR (R164). -/
def execPutChar (bo : ByteOrder) (s : State) : Host.Outcome State Fault Refusal :=
  unlessFaulted s (putFixed 16 bo s)

/-- PUT_SHORT (R165). -/
def execPutShort (bo : ByteOrder) (s : State) : Host.Outcome State Fault Refusal :=
  unlessFaulted s (putFixed 16 bo s)

/-- PUT_INT (R166). -/
def execPutInt (bo : ByteOrder) (s : State) : Host.Outcome State Fault Refusal :=
  unlessFaulted s (putFixed 32 bo s)

/-- PUT_LONG (R167). -/
def execPutLong (bo : ByteOrder) (s : State) : Host.Outcome State Fault Refusal :=
  unlessFaulted s (putFixed 64 bo s)

/-- PUT_FLOAT (R168). -/
def execPutFloat (bo : ByteOrder) (s : State) : Host.Outcome State Fault Refusal :=
  unlessFaulted s (putFixed 32 bo s)

/-- PUT_DOUBLE (R169). -/
def execPutDouble (bo : ByteOrder) (s : State) : Host.Outcome State Fault Refusal :=
  unlessFaulted s (putFixed 64 bo s)

/-- GET_BYTE (R170): sign-extended. -/
def execGetByte (bo : ByteOrder) (s : State) : Host.Outcome State Fault Refusal :=
  unlessFaulted s (toResult (getFixed 8 .sign bo s))

/-- GET_CHAR (R171): zero-extended. -/
def execGetChar (bo : ByteOrder) (s : State) : Host.Outcome State Fault Refusal :=
  unlessFaulted s (toResult (getFixed 16 .zero bo s))

/-- GET_SHORT (R172): sign-extended. -/
def execGetShort (bo : ByteOrder) (s : State) : Host.Outcome State Fault Refusal :=
  unlessFaulted s (toResult (getFixed 16 .sign bo s))

/-- GET_INT (R173): sign-extended. -/
def execGetInt (bo : ByteOrder) (s : State) : Host.Outcome State Fault Refusal :=
  unlessFaulted s (toResult (getFixed 32 .sign bo s))

/-- GET_LONG (R174): all 64 bits. -/
def execGetLong (bo : ByteOrder) (s : State) : Host.Outcome State Fault Refusal :=
  unlessFaulted s (toResult (getFixed 64 .zero bo s))

/-- GET_FLOAT (R175): zero-extended. -/
def execGetFloat (bo : ByteOrder) (s : State) : Host.Outcome State Fault Refusal :=
  unlessFaulted s (toResult (getFixed 32 .zero bo s))

/-- GET_DOUBLE (R176): all 64 bits. -/
def execGetDouble (bo : ByteOrder) (s : State) : Host.Outcome State Fault Refusal :=
  unlessFaulted s (toResult (getFixed 64 .zero bo s))

end Sys2Proof.Machine
end

