-- ==== Sys2Proof/Machine/Lifecycle.lean ====
section
/-!
DEFINITION. The lifecycle commands ALLOC, FLIP, COMPACT and RDREG (43_lifecycle.md R250 to R258).
-/

namespace Sys2Proof.Machine

/-- The working copy of ALLOC (R250): ALLOC_RANGE if OPERAND is above CAP_MAX (R289). -/
def allocate (s : State) : Attempt State :=
  if Config.capMax < s.byteCount then .error .allocRange else .ok (s.allocated s.operand)

/-- The working copy of FLIP (R252): in write mode with bits pending the whole cache word is flushed first; then
the buffer is in read mode, rewound. In read mode it only rewinds (R253). -/
def flipBuffer (s : State) : Attempt State :=
  if s.mode = .write ∧ s.free.val < 64 then
    match flushWord s s.cache with
    | .ok t => .ok t.rewound
    | .error code => .error code
  else .ok s.rewound

/-- The working copy of COMPACT (R254): in write mode nothing happens. -/
def compactBuffer (s : State) : State :=
  match s.mode with
  | .write => s
  | .read => s.compacted

/-- ALLOC (R250). It executes even when FAULT is not 0 (R284); a failing ALLOC then keeps the first
fault (R281). -/
def execAlloc (s : State) : Host.Outcome State Fault Refusal := finish s (allocate s)

/-- FLIP (R252). -/
def execFlip (s : State) : Host.Outcome State Fault Refusal := unlessFaulted s (flipBuffer s)

/-- COMPACT (R254). -/
def execCompact (s : State) : Host.Outcome State Fault Refusal :=
  unlessFaulted s (.ok (compactBuffer s))

/-- RDREG (R258). It executes even when FAULT is not 0 (R284). -/
def execRdreg (idx : RegIndex) (s : State) : Host.Outcome State Fault Refusal :=
  finish s (.ok (s.withResult (s.register idx)))

end Sys2Proof.Machine
end

