-- ==== Sys2Proof/Machine/Dispatch.lean ====
section
/-!
DEFINITION. The dispatch of a decoded command to its meaning, one arm per constructor of Instr.
-/

namespace Sys2Proof.Machine

def exec (i : Instr) (s : State) : Host.Outcome State Fault Refusal :=
  match i with
  | .putb width => Sys2Proof.Machine.execPutb width s
  | .getb width => Sys2Proof.Machine.execGetb width s
  | .putByte bo => Sys2Proof.Machine.execPutByte bo s
  | .putChar bo => Sys2Proof.Machine.execPutChar bo s
  | .putShort bo => Sys2Proof.Machine.execPutShort bo s
  | .putInt bo => Sys2Proof.Machine.execPutInt bo s
  | .putLong bo => Sys2Proof.Machine.execPutLong bo s
  | .putFloat bo => Sys2Proof.Machine.execPutFloat bo s
  | .putDouble bo => Sys2Proof.Machine.execPutDouble bo s
  | .getByte bo => Sys2Proof.Machine.execGetByte bo s
  | .getChar bo => Sys2Proof.Machine.execGetChar bo s
  | .getShort bo => Sys2Proof.Machine.execGetShort bo s
  | .getInt bo => Sys2Proof.Machine.execGetInt bo s
  | .getLong bo => Sys2Proof.Machine.execGetLong bo s
  | .getFloat bo => Sys2Proof.Machine.execGetFloat bo s
  | .getDouble bo => Sys2Proof.Machine.execGetDouble bo s
  | .putv16 sm st => Sys2Proof.Machine.execPutv16 sm st s
  | .putv32 sm st => Sys2Proof.Machine.execPutv32 sm st s
  | .putv64 sm st => Sys2Proof.Machine.execPutv64 sm st s
  | .getv16 sm st => Sys2Proof.Machine.execGetv16 sm st s
  | .getv32 sm st => Sys2Proof.Machine.execGetv32 sm st s
  | .getv64 sm st => Sys2Proof.Machine.execGetv64 sm st s
  | .alloc => Sys2Proof.Machine.execAlloc s
  | .flip => Sys2Proof.Machine.execFlip s
  | .compact => Sys2Proof.Machine.execCompact s
  | .rdreg idx => Sys2Proof.Machine.execRdreg idx s

end Sys2Proof.Machine
end

