-- ==== Sys2Proof/WellFormed.lean ====
section
/-!
DEFINITION. Which terms of `Instr` a command word can name. Every field but the width of PUTB and GETB
is a type with exactly the legal values, so the width is the one thing to check (30_encoding.md R92,
40_bit_engine.md R131).
-/

namespace Sys2Proof

/-- A width of PUTB or GETB is 1 to 64: the values WM1 + 1 for WM1 in 0..63 (R10, R92). -/
def widthOk (width : Nat) : Bool := 1 ≤ width && width ≤ 64

/-- Well-formed commands: those some legal command word stands for. -/
def Instr.wellFormed : Instr → Bool
  | .putb width => widthOk width
  | .getb width => widthOk width
  | .putByte _ => true
  | .putChar _ => true
  | .putShort _ => true
  | .putInt _ => true
  | .putLong _ => true
  | .putFloat _ => true
  | .putDouble _ => true
  | .getByte _ => true
  | .getChar _ => true
  | .getShort _ => true
  | .getInt _ => true
  | .getLong _ => true
  | .getFloat _ => true
  | .getDouble _ => true
  | .putv16 _ _ => true
  | .putv32 _ _ => true
  | .putv64 _ _ => true
  | .getv16 _ _ => true
  | .getv32 _ _ => true
  | .getv64 _ _ => true
  | .alloc => true
  | .flip => true
  | .compact => true
  | .rdreg _ => true

end Sys2Proof
end

