-- ==== Sys2Proof/Decode.lean ====
section
/-!
DEFINITION. The decoder of 30_encoding.md R99, total on every 32-bit word and refusing by name, and after
it the encoder, written from the same formats (R92 to R96) and opcode map (R98).
-/

namespace Sys2Proof

/-- Why a command word is illegal (R99, R100). Each reason raises ILLEGAL_COMMAND when the word is
executed (60_exceptions.md R285). -/
inductive DecodeError where
  /-- The opcode is not in the map of R98. -/
  | unassignedOpcode
  /-- A reserved bit of the format is 1 (R92 to R96). -/
  | reservedBits
  /-- SM = 3 in format V (R94). -/
  | illegalSignMode
deriving DecidableEq, Repr

/-! ## The fields of a command word -/

/-- OP = CMD[7:0], in every format (R91). -/
def opcodeField (c : CommandWord) : BitVec 8 := c.extractLsb' 0 8

/-- WM1 = CMD[13:8] of format B (R92). -/
def wm1Field (c : CommandWord) : BitVec 6 := c.extractLsb' 8 6

/-- BO = CMD[8] of format F (R93). -/
def boField (c : CommandWord) : BitVec 1 := c.extractLsb' 8 1

/-- SM = CMD[9:8] of format V (R94). -/
def smField (c : CommandWord) : BitVec 2 := c.extractLsb' 8 2

/-- ST = CMD[10] of format V (R94). -/
def stField (c : CommandWord) : BitVec 1 := c.extractLsb' 10 1

/-- IDX = CMD[10:8] of format R (R95). -/
def idxField (c : CommandWord) : BitVec 3 := c.extractLsb' 8 3

/-- The reserved bits CMD[31:lo] of a format; they must be zero (R92 to R96). -/
def reservedField (lo : Nat) (c : CommandWord) : BitVec (32 - lo) := c.extractLsb' lo (32 - lo)

/-- The byte order a BO bit names: 0 is LittleEndian, 1 is BigEndian (R93). -/
def ByteOrder.ofBit (b : BitVec 1) : ByteOrder := if b = 0 then .little else .big

/-- The sign mode an SM field names; 3 is illegal (R94). -/
def SignMode.ofBits (b : BitVec 2) : Option SignMode :=
  if b = 0 then some .positive
  else if b = 1 then some .negative
  else if b = 2 then some .either
  else none

/-- The strategy an ST bit names: 0 is HALF, 1 is BLOCKED (R94). -/
def Strategy.ofBit (b : BitVec 1) : Strategy := if b = 0 then .half else .blocked

/-- The register an IDX field names (10_state.md R44). -/
def RegIndex.ofBits (b : BitVec 3) : RegIndex :=
  if b = 0 then .cache
  else if b = 1 then .free
  else if b = 2 then .mode
  else if b = 3 then .fault
  else if b = 4 then .fcmd
  else if b = 5 then .cap
  else if b = 6 then .wpos
  else .rpos

/-! ## The decoder -/

/-- Format B: CMD[31:14] must be zero, and the width is WM1 + 1 (R92). -/
def decodeFormatB (mk : Nat → Instr) (c : CommandWord) : Except DecodeError Instr :=
  if reservedField 14 c = 0 then .ok (mk ((wm1Field c).toNat + 1)) else .error .reservedBits

/-- Format F: CMD[31:9] must be zero (R93). -/
def decodeFormatF (mk : ByteOrder → Instr) (c : CommandWord) : Except DecodeError Instr :=
  if reservedField 9 c = 0 then .ok (mk (.ofBit (boField c))) else .error .reservedBits

/-- Format V: CMD[31:11] must be zero and SM must not be 3 (R94). -/
def decodeFormatV (mk : SignMode → Strategy → Instr) (c : CommandWord) : Except DecodeError Instr :=
  if reservedField 11 c = 0 then
    match SignMode.ofBits (smField c) with
    | some sm => .ok (mk sm (.ofBit (stField c)))
    | none => .error .illegalSignMode
  else .error .reservedBits

/-- Format R: CMD[31:11] must be zero (R95). -/
def decodeFormatR (mk : RegIndex → Instr) (c : CommandWord) : Except DecodeError Instr :=
  if reservedField 11 c = 0 then .ok (mk (.ofBits (idxField c))) else .error .reservedBits

/-- Format N: CMD[31:8] must be zero (R96). -/
def decodeFormatN (i : Instr) (c : CommandWord) : Except DecodeError Instr :=
  if reservedField 8 c = 0 then .ok i else .error .reservedBits

/-- The decoder (R99): the opcode alone selects the command and its format (R91, R98). -/
def decode (c : CommandWord) : Except DecodeError Instr :=
  match (opcodeField c).toNat with
  | 0x01 => decodeFormatB .putb c
  | 0x02 => decodeFormatB .getb c
  | 0x10 => decodeFormatF .putByte c
  | 0x11 => decodeFormatF .putChar c
  | 0x12 => decodeFormatF .putShort c
  | 0x13 => decodeFormatF .putInt c
  | 0x14 => decodeFormatF .putLong c
  | 0x15 => decodeFormatF .putFloat c
  | 0x16 => decodeFormatF .putDouble c
  | 0x18 => decodeFormatF .getByte c
  | 0x19 => decodeFormatF .getChar c
  | 0x1A => decodeFormatF .getShort c
  | 0x1B => decodeFormatF .getInt c
  | 0x1C => decodeFormatF .getLong c
  | 0x1D => decodeFormatF .getFloat c
  | 0x1E => decodeFormatF .getDouble c
  | 0x20 => decodeFormatV .putv16 c
  | 0x21 => decodeFormatV .putv32 c
  | 0x22 => decodeFormatV .putv64 c
  | 0x28 => decodeFormatV .getv16 c
  | 0x29 => decodeFormatV .getv32 c
  | 0x2A => decodeFormatV .getv64 c
  | 0x30 => decodeFormatN .alloc c
  | 0x31 => decodeFormatN .flip c
  | 0x32 => decodeFormatN .compact c
  | 0x33 => decodeFormatR .rdreg c
  | _ => .error .unassignedOpcode

/-- The command word whose bits are `w`: one word, presented whole on the command port, so it has no byte
order (R90, 10_state.md R31). The table gives every row 32 bits; bits above `nbits` are 0. -/
def tableWord (nbits w : Nat) : CommandWord := BitVec.ofNat 32 (w % 2 ^ nbits)

/-- The instruction the decoder reads from a word of spec/opcode_table.json. -/
def decodeTableWord (nbits w : Nat) : Option Instr :=
  match decode (tableWord nbits w) with
  | .ok i => some i
  | .error _ => none

/-! ## The encoder -/

/-- The BO bit of a byte order (R93). -/
def ByteOrder.bit : ByteOrder → BitVec 1
  | .little => 0
  | .big => 1

/-- The SM field of a sign mode (R94). -/
def SignMode.bits : SignMode → BitVec 2
  | .positive => 0
  | .negative => 1
  | .either => 2

/-- The ST bit of a strategy (R94). -/
def Strategy.bit : Strategy → BitVec 1
  | .half => 0
  | .blocked => 1

/-- The IDX field of a register (10_state.md R44). -/
def RegIndex.bits : RegIndex → BitVec 3
  | .cache => 0
  | .free => 1
  | .mode => 2
  | .fault => 3
  | .fcmd => 4
  | .cap => 5
  | .wpos => 6
  | .rpos => 7

/-- A word of format B: WM1 = width - 1 in bits 13:8 over OP, the other bits zero (R92). -/
def encodeFormatB (op : BitVec 8) (width : Nat) : CommandWord :=
  op.setWidth 32 ||| ((BitVec.ofNat 6 (width - 1)).setWidth 32 <<< 8)

/-- A word of format F: BO in bit 8 over OP (R93). -/
def encodeFormatF (op : BitVec 8) (bo : ByteOrder) : CommandWord :=
  op.setWidth 32 ||| (bo.bit.setWidth 32 <<< 8)

/-- A word of format V: ST in bit 10, SM in bits 9:8, over OP (R94). -/
def encodeFormatV (op : BitVec 8) (sm : SignMode) (st : Strategy) : CommandWord :=
  op.setWidth 32 ||| (sm.bits.setWidth 32 <<< 8) ||| (st.bit.setWidth 32 <<< 10)

/-- A word of format R: IDX in bits 10:8 over OP (R95). -/
def encodeFormatR (op : BitVec 8) (idx : RegIndex) : CommandWord :=
  op.setWidth 32 ||| (idx.bits.setWidth 32 <<< 8)

/-- A word of format N: OP alone (R96). -/
def encodeFormatN (op : BitVec 8) : CommandWord := op.setWidth 32

/-- The command word of a command, by the opcode map (R98). -/
def encode : Instr → CommandWord
  | .putb width => encodeFormatB 0x01#8 width
  | .getb width => encodeFormatB 0x02#8 width
  | .putByte bo => encodeFormatF 0x10#8 bo
  | .putChar bo => encodeFormatF 0x11#8 bo
  | .putShort bo => encodeFormatF 0x12#8 bo
  | .putInt bo => encodeFormatF 0x13#8 bo
  | .putLong bo => encodeFormatF 0x14#8 bo
  | .putFloat bo => encodeFormatF 0x15#8 bo
  | .putDouble bo => encodeFormatF 0x16#8 bo
  | .getByte bo => encodeFormatF 0x18#8 bo
  | .getChar bo => encodeFormatF 0x19#8 bo
  | .getShort bo => encodeFormatF 0x1A#8 bo
  | .getInt bo => encodeFormatF 0x1B#8 bo
  | .getLong bo => encodeFormatF 0x1C#8 bo
  | .getFloat bo => encodeFormatF 0x1D#8 bo
  | .getDouble bo => encodeFormatF 0x1E#8 bo
  | .putv16 sm st => encodeFormatV 0x20#8 sm st
  | .putv32 sm st => encodeFormatV 0x21#8 sm st
  | .putv64 sm st => encodeFormatV 0x22#8 sm st
  | .getv16 sm st => encodeFormatV 0x28#8 sm st
  | .getv32 sm st => encodeFormatV 0x29#8 sm st
  | .getv64 sm st => encodeFormatV 0x2A#8 sm st
  | .alloc => encodeFormatN 0x30#8
  | .flip => encodeFormatN 0x31#8
  | .compact => encodeFormatN 0x32#8
  | .rdreg idx => encodeFormatR 0x33#8 idx

end Sys2Proof
end

