-- ==== Sys2Proof/Machine/HostPort.lean ====
section
/-!
DEFINITION. What the host's ports do between commands (10_state.md R53 to R58): presenting a command, reading
a store byte, RESET, and the artifact the host reads after FLIP (43_lifecycle.md R260).
-/

namespace Sys2Proof.Machine

/-- The host presents one (CMD, OPERAND) pair (R55); what it does after that is `rest`. -/
def State.present (s : State) (cmd : CommandWord) (operand : Word) (rest : List HostEvent) : State :=
  { s with cmd := cmd, operand := operand, pending := rest }

/-- The host's event is taken; what it does after that is `rest`. -/
def State.taken (s : State) (rest : List HostEvent) : State := { s with pending := rest }

/-- The command on the CMD port, or none for an illegal word (30_encoding.md R99). -/
def State.fetched (s : State) : Option Instr :=
  match decode s.cmd with
  | .ok i => some i
  | .error _ => none

/-- RESET (R58, 70_reset_and_hazards.md R310): every register takes its reset value. The store is unspecified
after it (R311) and takes the contents of `State.reset`; the answer port holds nothing again; the ports the
host drives are the host's (log entries 2, 4, 13). -/
def State.resetAsserted (s : State) : State :=
  { State.reset with cmd := s.cmd, operand := s.operand, pending := s.pending }

/-- The host read port (R57): the byte at `a` for a < CAP, and no value beyond. -/
def State.hostRead (s : State) (a : Nat) : Option Byte :=
  if a < s.cap.toNat then some (s.store.read a) else none

/-- A host read of the store: the byte is on the port and no state changes; beyond CAP a model gives it no
value (R57, 93_implementation_defined.md U12; log entry 7). -/
def hostReadByte (s : State) (a : Nat) : Host.Outcome State Fault Refusal :=
  match s.hostRead a with
  | some b => .next { s with reply := some (.byte b) }
  | none => .refused (.hostReadBeyondCap a)

/-- The produced artifact: bytes 0..WPOS-1 of the store, read after FLIP (R57, R260). -/
def State.artifact (s : State) : List Byte := (List.range s.wpos.toNat).map s.store.read

/-- The commands as host events, for a host that presents these instructions with these operands
(30_encoding.md R101). -/
def commandEvents (program : List (Instr × Word)) : List HostEvent :=
  program.map fun c => .command (encode c.1) c.2

end Sys2Proof.Machine
end

