-- ==== Sys2Proof/Machine/Step.lean ====
section
/-!
DEFINITION. One step of the machine: the host's next event, taken whole (10_state.md R30, R54). There is no
program counter and nothing is fetched from the store (R31); the next command is the host's next event.
-/

namespace Sys2Proof.Machine

/-- Run the command on the CMD port: decode it, and execute it or raise ILLEGAL_COMMAND (R285). -/
def runCommand (s : State) : Host.Outcome State Fault Refusal :=
  match s.fetched with
  | some i => exec i s
  | none => illegalCommand s

/-- One step: the first pending event of the host. With none pending the BBE holds its state (R302; log
entry 6). -/
def step (s : State) : Host.Outcome State Fault Refusal :=
  match s.pending with
  | [] => .next s
  | .command cmd operand :: rest => runCommand (s.present cmd operand rest)
  | .readByte a :: rest => hostReadByte (s.taken rest) a
  | .reset :: rest => .next (s.taken rest).resetAsserted

/-- The state in which the host's next event is the command word `w`, with the operand that stands on the
OPERAND port, so that the next step runs exactly it. This is how a program comes to run: the host presents
it (R31; log entry 5). -/
def State.withFetchWord (s : State) (nbits w : Nat) : State :=
  { s with pending := .command (tableWord nbits w) s.operand :: s.pending }

end Sys2Proof.Machine
end

