-- ==== Sys2Proof/Machine/Assembler.lean ====
section
/-!
DEFINITION. The assembler syntax and the pseudo-instructions of the command set (30_encoding.md R101, R102): one
line of text to one command word with its operand, and the source's operation names to commands. The machine
itself uses none of this. What R101 leaves open about spaces and out-of-range values: log entry 15.
-/

namespace Sys2Proof.Machine

/-! ## The types of the fixed-width codec and the commands they name -/

/-- The types T of the fixed-width codec, in the source's order (R98, R101). -/
inductive FixedType where
  | byte
  | char
  | short
  | int
  | long
  | float
  | double
deriving DecidableEq, Repr

/-- `PUT_<T>` (R98). -/
def putOf : FixedType → ByteOrder → Instr
  | .byte => .putByte
  | .char => .putChar
  | .short => .putShort
  | .int => .putInt
  | .long => .putLong
  | .float => .putFloat
  | .double => .putDouble

/-- `GET_<T>` (R98). -/
def getOf : FixedType → ByteOrder → Instr
  | .byte => .getByte
  | .char => .getChar
  | .short => .getShort
  | .int => .getInt
  | .long => .getLong
  | .float => .getFloat
  | .double => .getDouble

/-- `PUTV<W>` (R98). -/
def putvOf : IntWidth → SignMode → Strategy → Instr
  | .w16 => .putv16
  | .w32 => .putv32
  | .w64 => .putv64

/-- `GETV<W>` (R98). -/
def getvOf : IntWidth → SignMode → Strategy → Instr
  | .w16 => .getv16
  | .w32 => .getv32
  | .w64 => .getv64

/-! ## Lexing -/

/-- The pieces of `cs` between the separators `sep`. -/
def splitAtChar (sep : Char) : List Char → List (List Char)
  | [] => [[]]
  | c :: cs =>
    if c = sep then [] :: splitAtChar sep cs
    else
      match splitAtChar sep cs with
      | [] => [[c]]
      | piece :: pieces => (c :: piece) :: pieces

/-- `cs` without the spaces at its two ends. -/
def trimSpaces (cs : List Char) : List Char :=
  ((cs.dropWhile (· = ' ')).reverse.dropWhile (· = ' ')).reverse

/-- The value of one digit in the given base, 10 or 16. -/
def digitValue (base : Nat) (c : Char) : Option Nat :=
  let n := c.toNat
  let d :=
    if '0'.toNat ≤ n ∧ n ≤ '9'.toNat then some (n - '0'.toNat)
    else if 'a'.toNat ≤ n ∧ n ≤ 'f'.toNat then some (n - 'a'.toNat + 10)
    else if 'A'.toNat ≤ n ∧ n ≤ 'F'.toNat then some (n - 'A'.toNat + 10)
    else none
  d.bind fun d => if d < base then some d else none

/-- The number the digits after `acc` spell. -/
def digitsFrom (base acc : Nat) : List Char → Option Nat
  | [] => some acc
  | c :: cs =>
    match digitValue base c with
    | some d => digitsFrom base (acc * base + d) cs
    | none => none

/-- A number has at least one digit. -/
def parseDigits (base : Nat) (cs : List Char) : Option Nat :=
  if cs.isEmpty then none else digitsFrom base 0 cs

/-- A value: decimal, hexadecimal with 0x, or negative decimal (R101). -/
def parseValue : List Char → Option Int
  | '0' :: 'x' :: cs => (parseDigits 16 cs).map Int.ofNat
  | '-' :: cs => (parseDigits 10 cs).map fun n => -Int.ofNat n
  | cs => (parseDigits 10 cs).map Int.ofNat

/-- The 64-bit operand a value stands for; a negative one stands for its two's-complement pattern (R101). -/
def operandValue (cs : List Char) : Option Word :=
  match parseValue cs with
  | some v => if -2 ^ 63 ≤ v ∧ v < 2 ^ 64 then some (BitVec.ofInt 64 v) else none
  | none => none

/-- A width of PUTB or GETB, 1 to 64, in decimal (R101). That it may not be written in hexadecimal is the model's
choice: R101 says "Values are decimal, or hexadecimal with 0x" and not whether `<w>` is a value.
DESIGN CHOICE, log entry 15. -/
def widthValue (cs : List Char) : Option Nat :=
  match parseDigits 10 cs with
  | some w => if widthOk w then some w else none
  | none => none

/-! ## Names and qualifiers (R101, 10_state.md R44) -/

/-- The entry of a table of names. -/
def named {α : Type} (table : List (String × α)) (cs : List Char) : Option α :=
  (table.find? fun entry => entry.1.toList = cs).map Prod.snd

/-- The byte order qualifiers. -/
def byteOrderNames : List (String × ByteOrder) := [("LE", .little), ("BE", .big)]

/-- The sign mode qualifiers. -/
def signModeNames : List (String × SignMode) := [("P", .positive), ("N", .negative), ("E", .either)]

/-- The strategy qualifiers. -/
def strategyNames : List (String × Strategy) := [("H", .half), ("B", .blocked)]

/-- The register names of the read-out map. -/
def registerNames : List (String × RegIndex) :=
  [("CACHE", .cache), ("FREE", .free), ("MODE", .mode), ("FAULT", .fault), ("FCMD", .fcmd),
    ("CAP", .cap), ("WPOS", .wpos), ("RPOS", .rpos)]

/-- The fixed-width put mnemonics. -/
def putNames : List (String × FixedType) :=
  [("PUT_BYTE", .byte), ("PUT_CHAR", .char), ("PUT_SHORT", .short), ("PUT_INT", .int),
    ("PUT_LONG", .long), ("PUT_FLOAT", .float), ("PUT_DOUBLE", .double)]

/-- The fixed-width get mnemonics. -/
def getNames : List (String × FixedType) :=
  [("GET_BYTE", .byte), ("GET_CHAR", .char), ("GET_SHORT", .short), ("GET_INT", .int),
    ("GET_LONG", .long), ("GET_FLOAT", .float), ("GET_DOUBLE", .double)]

/-- The adaptive put mnemonics. -/
def putvNames : List (String × IntWidth) := [("PUTV16", .w16), ("PUTV32", .w32), ("PUTV64", .w64)]

/-- The adaptive get mnemonics. -/
def getvNames : List (String × IntWidth) := [("GETV16", .w16), ("GETV32", .w32), ("GETV64", .w64)]

/-! ## The assembler -/

/-- The commands without qualifiers: PUTB, GETB, ALLOC, FLIP, COMPACT, RDREG (R101). -/
def assemblePlain (name : List Char) (operands : List (List Char)) : Option (Instr × Word) :=
  match operands with
  | [] =>
    named [("FLIP", (Instr.flip, (0 : Word))), ("COMPACT", (Instr.compact, 0))] name
  | [x] =>
    if name = "GETB".toList then (widthValue x).map fun w => (.getb w, 0)
    else if name = "ALLOC".toList then (operandValue x).map fun n => (.alloc, n)
    else if name = "RDREG".toList then (named registerNames x).map fun r => (.rdreg r, 0)
    else none
  | [x, y] =>
    if name = "PUTB".toList then
      (widthValue x).bind fun w => (operandValue y).map fun v => (.putb w, v)
    else none
  | _ => none

/-- `PUT_<T>.<LE or BE> <value>` and `GET_<T>.<LE or BE>` (R101). -/
def assembleFixed (name order : List Char) (operands : List (List Char)) : Option (Instr × Word) :=
  (named byteOrderNames order).bind fun bo =>
    match operands with
    | [] => (named getNames name).map fun t => (getOf t bo, 0)
    | [x] =>
      (named putNames name).bind fun t => (operandValue x).map fun v => (putOf t bo, v)
    | _ => none

/-- `PUTV<W>.<P, N or E>.<H or B> <value>` and `GETV<W>.<P, N or E>.<H or B>` (R101). -/
def assembleAdaptive (name mode strategy : List Char) (operands : List (List Char)) :
    Option (Instr × Word) :=
  (named signModeNames mode).bind fun sm =>
    (named strategyNames strategy).bind fun st =>
      match operands with
      | [] => (named getvNames name).map fun w => (getvOf w sm st, 0)
      | [x] =>
        (named putvNames name).bind fun w => (operandValue x).map fun v => (putvOf w sm st, v)
      | _ => none

/-- The operands of a line: what stands after the first space, at the commas (R101). -/
def lineOperands (cs : List Char) : List (List Char) :=
  if (trimSpaces cs).isEmpty then [] else (splitAtChar ',' cs).map trimSpaces

/-- One line: the mnemonic with its dot-separated qualifiers, then the operands (R101). Every qualifier must be
written: there is no default. -/
def assemble (line : String) : Option (Instr × Word) :=
  let cs := trimSpaces line.toList
  let operands := lineOperands (cs.dropWhile (· ≠ ' '))
  match splitAtChar '.' (cs.takeWhile (· ≠ ' ')) with
  | [name] => assemblePlain name operands
  | [name, order] => assembleFixed name order operands
  | [name, mode, strategy] => assembleAdaptive name mode strategy operands
  | _ => none

/-! ## The pseudo-instructions (R102) -/

/-- The source's operation names. -/
inductive Pseudo where
  | putBits (value : Word) (width : Nat)
  | getBits (width : Nat)
  | put (t : FixedType) (value : Word) (order : ByteOrder)
  | get (t : FixedType) (order : ByteOrder)
  | putVar (w : IntWidth) (value : Word) (mode : SignMode) (strategy : Strategy)
  | getVar (w : IntWidth) (mode : SignMode) (strategy : Strategy)
  | allocate (n : Word)
  | allocateDirect (n : Word)
  | flip
  | compact
  /-- FLIP, then the host's reads of bytes 0..WPOS-1. -/
  | toByteArray
deriving DecidableEq, Repr

/-- The command an alias expands to (R102). -/
def Pseudo.command : Pseudo → Instr × Word
  | .putBits value width => (.putb width, value)
  | .getBits width => (.getb width, 0)
  | .put t value order => (putOf t order, value)
  | .get t order => (getOf t order, 0)
  | .putVar w value mode strategy => (putvOf w mode strategy, value)
  | .getVar w mode strategy => (getvOf w mode strategy, 0)
  | .allocate n => (.alloc, n)
  | .allocateDirect n => (.alloc, n)
  | .flip => (.flip, 0)
  | .compact => (.compact, 0)
  | .toByteArray => (.flip, 0)

/-- The host events an alias stands for: its command, and for `to_byte_array()` the reads of the first
`wpos` bytes, where `wpos` is the WPOS the FLIP leaves (R102, R57). -/
def Pseudo.events (p : Pseudo) (wpos : Nat) : List HostEvent :=
  .command (encode p.command.1) p.command.2 ::
    match p with
    | .toByteArray => (List.range wpos).map .readByte
    | _ => []

end Sys2Proof.Machine
end

