-- ==== Sys2Proof/Safety.lean ====
section
/-!
DEFINITION. The terms the statements are written in: the invariants of the state (10_state.md R47), the logical bit
stream a buffer holds (00_scope.md R17, 20_memory.md R64), and the data formats of the two codecs as lists
of bits, read off the spec's tables and not off the meanings.
-/

namespace Sys2Proof.Machine

/-! ## Invariants -/

/-- The invariants of R47. `0 <= FREE <= 64` holds of every value of the field's type. -/
structure State.Sound (s : State) : Prop where
  cap_aligned : s.cap.toNat % 8 = 0
  wpos_aligned : s.wpos.toNat % 8 = 0
  rpos_aligned : s.rpos.toNat % 8 = 0
  wpos_le_cap : s.wpos.toNat ≤ s.cap.toNat
  cap_le_capMax : s.cap.toNat ≤ Config.capMax
  rpos_le_wpos : s.rpos.toNat ≤ s.wpos.toNat
  write_rpos : s.mode = .write → s.rpos = 0
  write_cache : s.mode = .write → s.cache >>> (64 - s.free.val) = 0

/-- The invariants of R47 with those of the other state: STORE is in canonical form and has CAP_MAX bytes (R43,
R60), its unwritten bytes are zero in write mode (20_memory.md R70), and FCMD holds a command word only
together with a fault (R41). -/
structure State.Inv (s : State) : Prop extends s.Sound where
  store_wf : s.store.wf
  store_size : ∀ c ∈ s.store, c.1 < Config.capMax
  unwritten_zero : s.mode = .write → ∀ a, s.wpos.toNat ≤ a → a < s.cap.toNat → s.store.read a = 0
  fcmd_clear : s.fault = .none → s.fcmd = 0

/-- A run is safe while it only takes next states: no step of the BBE stops it but a host read at or beyond CAP. -/
def isNext (o : Host.Outcome State Fault Refusal) : Bool :=
  match o with
  | .next _ => true
  | .fault _ => false
  | .refused _ => false

/-! ## Kinds of commands (43_lifecycle.md R259, 60_exceptions.md R286) -/

/-- The mode a PUT-type or GET-type command needs; the other commands need none. -/
def neededMode : Instr → Option Mode
  | .putb _ => some .write
  | .getb _ => some .read
  | .putByte _ => some .write
  | .putChar _ => some .write
  | .putShort _ => some .write
  | .putInt _ => some .write
  | .putLong _ => some .write
  | .putFloat _ => some .write
  | .putDouble _ => some .write
  | .getByte _ => some .read
  | .getChar _ => some .read
  | .getShort _ => some .read
  | .getInt _ => some .read
  | .getLong _ => some .read
  | .getFloat _ => some .read
  | .getDouble _ => some .read
  | .putv16 _ _ => some .write
  | .putv32 _ _ => some .write
  | .putv64 _ _ => some .write
  | .getv16 _ _ => some .read
  | .getv32 _ _ => some .read
  | .getv64 _ _ => some .read
  | .alloc => none
  | .flip => none
  | .compact => none
  | .rdreg _ => none

/-- The adaptive puts whose operand is -2^(W-1), the low W bits being a one and then zeros (60_exceptions.md R290). -/
def domainError (i : Instr) (operand : Word) : Bool :=
  match i with
  | .putv16 _ _ => operand.toNat % 2 ^ 16 = 2 ^ 15
  | .putv32 _ _ => operand.toNat % 2 ^ 32 = 2 ^ 31
  | .putv64 _ _ => operand.toNat = 2 ^ 63
  | _ => false

/-- The two commands that execute while FAULT is not 0 (R284). -/
def runsWhileFaulted (i : Instr) : Bool :=
  match i with
  | .alloc => true
  | .rdreg _ => true
  | _ => false

/-- The legal command words, as the pseudocode of 30_encoding.md R99 lists them, on the word as a number. -/
def legalWord (c : Nat) : Bool :=
  let op := c % 256
  if op = 0x01 ∨ op = 0x02 then c / 2 ^ 14 = 0
  else if (0x10 ≤ op ∧ op ≤ 0x16) ∨ (0x18 ≤ op ∧ op ≤ 0x1E) then c / 2 ^ 9 = 0
  else if (0x20 ≤ op ∧ op ≤ 0x22) ∨ (0x28 ≤ op ∧ op ≤ 0x2A) then
    c / 2 ^ 11 = 0 ∧ c / 2 ^ 8 % 4 ≠ 3
  else if 0x30 ≤ op ∧ op ≤ 0x32 then c / 2 ^ 8 = 0
  else if op = 0x33 then c / 2 ^ 11 = 0
  else false

/-! ## The logical bit stream -/

/-- The low `w` bits of a number, bit 0 first (R17). -/
def natBits (v w : Nat) : List Bool := (List.range w).map v.testBit

/-- The number whose bits, bit 0 first, are the list. -/
def bitsValue : List Bool → Nat
  | [] => 0
  | b :: bs => b.toNat + 2 * bitsValue bs

/-- The bits of the store bytes a..b-1: stream bit i is bit i mod 8 of byte i / 8 (R64). -/
def Memory.bits (m : Memory) (a b : Nat) : List Bool :=
  (List.range' a (b - a)).flatMap fun i => natBits (m.read i).toNat 8

/-- In write mode, the bits appended since ALLOC: those flushed, then those in CACHE (R34, R46, R48). -/
def State.appended (s : State) : List Bool :=
  s.store.bits 0 s.wpos.toNat ++ natBits s.cache.toNat (64 - s.free.val)

/-- In read mode, the bits still to be read: those in CACHE from the read offset on, then the words from RPOS to
WPOS (R34, R38, R39). -/
def State.unread (s : State) : List Bool :=
  natBits (s.cache.toNat / 2 ^ (64 - s.free.val)) s.free.val ++
    s.store.bits s.rpos.toNat s.wpos.toNat

/-- How many words are flushed while `n` bits are appended one after another, and refilled while `n` bits are
read: none while they fit in FREE (40_bit_engine.md R123), then one for each 64 bits begun beyond it. -/
def State.wordsFor (s : State) (n : Nat) : Nat := (n - s.free.val + 63) / 64

/-- Whether the flushes of `n` more bits all stay within CAP (R124, R287). -/
def State.hasRoom (s : State) (n : Nat) : Prop := s.wpos.toNat + 8 * s.wordsFor n ≤ s.cap.toNat

/-- Whether the refills of the next `n` bits all stay within WPOS (R125, R288). -/
def State.hasData (s : State) (n : Nat) : Prop := s.rpos.toNat + 8 * s.wordsFor n ≤ s.wpos.toNat

/-- `t` is `s` after a completed put of `bits`: the stream has them at its end, the words it needed are flushed, the
cache above the fill offset is zero, and nothing else has changed; every byte outside the flushed words
reads as before (R45, R124, R132). -/
structure State.HasAppended (s t : State) (bits : List Bool) : Prop where
  stream : t.appended = s.appended ++ bits
  free : t.free.val + bits.length = s.free.val + 64 * s.wordsFor bits.length
  wpos : t.wpos.toNat = s.wpos.toNat + 8 * s.wordsFor bits.length
  padding : t.cache >>> (64 - t.free.val) = 0
  bytes : ∀ a, (a < s.wpos.toNat ∨ s.wpos.toNat + 8 * s.wordsFor bits.length ≤ a) →
    t.store.read a = s.store.read a
  mode : t.mode = s.mode
  cap : t.cap = s.cap
  rpos : t.rpos = s.rpos
  fault : t.fault = s.fault
  fcmd : t.fcmd = s.fcmd
  result : t.result = s.result
  ports : t.cmd = s.cmd ∧ t.operand = s.operand ∧ t.pending = s.pending

/-- `t` is `s` after a completed get of `n` bits: they are gone from the front of the unread stream, the words it
needed are refilled, CACHE is the whole word last refilled, its consumed bits included, or unchanged without a
refill, and nothing else but RESULT has changed; every byte of the store reads as before (R45, R125). -/
structure State.HasConsumed (s t : State) (n : Nat) : Prop where
  stream : t.unread = s.unread.drop n
  free : t.free.val + n = s.free.val + 64 * s.wordsFor n
  rpos : t.rpos.toNat = s.rpos.toNat + 8 * s.wordsFor n
  cache : s.wordsFor n = 0 → t.cache = s.cache
  refill : s.wordsFor n ≠ 0 → t.cache = s.store.readWord (t.rpos.toNat - 8)
  store : t.store = s.store
  mode : t.mode = s.mode
  cap : t.cap = s.cap
  wpos : t.wpos = s.wpos
  fault : t.fault = s.fault
  fcmd : t.fcmd = s.fcmd
  ports : t.cmd = s.cmd ∧ t.operand = s.operand ∧ t.pending = s.pending

/-- `s` after a fault of code `code` on a state without one: FAULT and FCMD record it, the response is (0, RESULT)
and nothing else has changed (60_exceptions.md R281, R283). -/
def State.faultedWith (s : State) (code : FaultCode) : State :=
  { s with fault := code, fcmd := s.cmd, reply := some (.response false s.result) }

/-- The command `i` completes from `s` in `t`: OK = 1, and FAULT is unchanged, except that ALLOC sets it to 0
(R282). -/
def CompletesIn (i : Instr) (s t : State) : Prop :=
  t.reply = some (.response true t.result) ∧ (t.fault = s.fault ∨ (i = .alloc ∧ t.fault = .none))

/-- The command `i` faults from `s` in `t`: OK = 0 and the first fault is recorded (R281, R282). -/
def FaultsIn (i : Instr) (s t : State) : Prop :=
  (s.fault = .none ∧ t.fault ≠ .none ∧ t = s.faultedWith t.fault) ∨
    (s.fault ≠ .none ∧ i = .alloc ∧ t = { s with reply := some (.response false s.result) })

/-- The command `i` is refused from `s` in `t`: FAULT was not 0, OK = 0 and nothing changes (R282, R284). -/
def RefusedIn (i : Instr) (s t : State) : Prop :=
  s.fault ≠ .none ∧ runsWhileFaulted i = false ∧
    t = { s with reply := some (.response false s.result) }

/-- GetBits of each width in turn, with the values read. -/
def getFields : State → List Nat → Attempt (List Word × State)
  | s, [] => .ok ([], s)
  | s, w :: ws =>
    match getBits s w with
    | .error code => .error code
    | .ok (v, t) =>
      match getFields t ws with
      | .error code => .error code
      | .ok (vs, u) => .ok (v :: vs, u)

/-! ## The fixed-width format (41_fixed_width.md) -/

/-- The width N of a type (R98). -/
def typeWidth : FixedType → Nat
  | .byte => 8
  | .char => 16
  | .short => 16
  | .int => 32
  | .long => 64
  | .float => 32
  | .double => 64

/-- The types a get sign-extends (R170, R172, R173); the others it zero-extends or returns whole. -/
def typeSigned : FixedType → Bool
  | .byte => true
  | .char => false
  | .short => true
  | .int => true
  | .long => false
  | .float => false
  | .double => false

/-- The bits of a value in the byte order BO: as they are for LittleEndian, with the order of the bytes reversed
for BigEndian (R160). -/
def orderBits (bo : ByteOrder) (bits : List Bool) : List Bool :=
  match bo with
  | .little => bits
  | .big => (List.range (bits.length / 8)).reverse.flatMap fun k => (bits.drop (8 * k)).take 8

/-- The 64 bits a narrow value is widened to: copies of its last bit for a signed type, zeros otherwise (R162). -/
def widen (signed : Bool) (bits : List Bool) : List Bool :=
  bits ++ List.replicate (64 - bits.length) (signed && bits.getLastD false)

/-! ## The adaptive format (42_adaptive_codec.md) -/

/-- `bit_length(m)` (00_scope.md R14; log entry 10). -/
def bitLen (m : Nat) : Nat := if m = 0 then 0 else m.log2 + 1

/-- Whether the magnitude m takes the escape path: bl >= W - L - 1 for HALF (R205), n >= 8 or 4n >= W - 4 for
BLOCKED (R209). -/
def takesEscape (w : IntWidth) (st : Strategy) (m : Nat) : Bool :=
  match st with
  | .half => bitLen m ≥ widthBits w - prefixWidth w - 1
  | .blocked => (bitLen m + 3) / 4 ≥ 8 ∨ 4 * ((bitLen m + 3) / 4) ≥ widthBits w - 4

/-- The sign field (R205, R209): one bit in the Either mode only. -/
def signPart (sm : SignMode) (v : Int) : List Bool :=
  match sm with
  | .positive => []
  | .negative => []
  | .either => [decide (v < 0)]

/-- The encoding of v, in stream order: the tables of R205 and R209, with the pad bit of R207. -/
def encodingBits (w : IntWidth) (sm : SignMode) (st : Strategy) (v : Int) : List Bool :=
  let m := v.natAbs
  let bl := bitLen m
  if takesEscape w st m then [false] ++ signPart sm v ++ natBits m (widthBits w - 1)
  else
    match st with
    | .half =>
      [true] ++ signPart sm v ++ natBits (bl / 2) (prefixWidth w) ++ natBits m bl ++
        (if bl % 2 = 0 then [false] else [])
    | .blocked =>
      [true] ++ signPart sm v ++ natBits ((bl + 3) / 4) 3 ++ natBits m (4 * ((bl + 3) / 4))

/-- Take an n-bit number from the front of a stream, if it has that many bits. -/
def takeNumber (n : Nat) (bits : List Bool) : Option (Nat × List Bool) :=
  if n ≤ bits.length then some (bitsValue (bits.take n), bits.drop n) else none

/-- The sign bit of a stream, in the Either mode only (R208, R211). -/
def takeSign (sm : SignMode) (bits : List Bool) : Option (Nat × List Bool) :=
  match sm with
  | .positive => some (0, bits)
  | .negative => some (0, bits)
  | .either => takeNumber 1 bits

/-- The magnitude of a stream after the flag and the sign (R208, R211). -/
def takeMagnitude (w : IntWidth) (st : Strategy) (flag : Nat) (bits : List Bool) :
    Option (Nat × List Bool) :=
  if flag = 0 then takeNumber (widthBits w - 1) bits
  else
    match st with
    | .half => (takeNumber (prefixWidth w) bits).bind fun h => takeNumber (2 * h.1 + 1) h.2
    | .blocked => (takeNumber 3 bits).bind fun n => takeNumber (4 * n.1) n.2

/-- The value of a sign and a magnitude: m modulo 2^W, negated in the Negative mode or when the sign is 1, read as a
signed W-bit number and sign-extended to 64 bits (R212). -/
def valueOf (w : IntWidth) (sm : SignMode) (sign m : Nat) : Word :=
  let r : Int := if sm = .negative ∨ sign = 1 then -(m : Int) else m
  (BitVec.ofInt (widthBits w) r).signExtend 64

/-- What a stream decodes to, with the rest of the stream; none when it is too short (R208, R211, R212). -/
def decodeBits (w : IntWidth) (sm : SignMode) (st : Strategy) (bits : List Bool) :
    Option (Word × List Bool) :=
  (takeNumber 1 bits).bind fun flag =>
    (takeSign sm flag.2).bind fun sign =>
      (takeMagnitude w st flag.1 sign.2).bind fun m => some (valueOf w sm sign.1 m.1, m.2)

/-- The smallest magnitude that takes the escape path (R206, R210). -/
def smallestEscaped : IntWidth → Strategy → Nat
  | .w16, .half => 2048
  | .w32, .half => 2 ^ 26
  | .w64, .half => 2 ^ 57
  | .w16, .blocked => 256
  | .w32, .blocked => 2 ^ 24
  | .w64, .blocked => 2 ^ 28

/-- The sign modes that hold v without its sign (R214, R226). -/
def signFits (sm : SignMode) (v : Int) : Prop :=
  match sm with
  | .positive => 0 ≤ v
  | .negative => v ≤ 0
  | .either => True

end Sys2Proof.Machine
end

