-- ==== Sys2Proof/Certificates/Slice0/Obligations.lean ====
section
/-!
DEFINITION. The statements for the provers. Each is a Prop about the machine, taken from the numbered rules of spec/; none
is proved here.
-/

open Sys2Proof Sys2Proof.Machine

/-! ## The encoding -/

/-- Decoding the word of a well-formed command gives the command back, with every field at every value
(30_encoding.md R92 to R99). -/
def Obligations.DecodeOfEncode : Prop :=
  ∀ i : Instr, i.wellFormed = true → decode (encode i) = .ok i

/-- A word that decodes is the word of its command, and the command is well formed: each legal word has one
meaning and no two legal words share one (R92 to R99). -/
def Obligations.EncodeOfDecode : Prop :=
  ∀ (c : CommandWord) (i : Instr), decode c = .ok i → encode i = c ∧ i.wellFormed = true

/-- A word is decoded exactly when the decoder's table (R99) says it is legal; an illegal word raises
ILLEGAL_COMMAND and does nothing else (R285). -/
def Obligations.IllegalWordsFault : Prop :=
  ∀ c : CommandWord,
    ((∃ i, decode c = .ok i) ↔ legalWord c.toNat = true) ∧
    (legalWord c.toNat = false →
      ∀ (s : State) (o : Word) (rest : List HostEvent),
        s.pending = .command c o :: rest → s.fault = .none →
        step s = .next
          ({ s with cmd := c, operand := o, pending := rest }.faultedWith .illegalCommand))

/-- The worked encodings of R103. -/
def Obligations.WorkedEncodingsDecode : Prop :=
  decode 0x00003E01#32 = .ok (.putb 63) ∧
  decode 0x00000401#32 = .ok (.putb 5) ∧
  decode 0x00003F02#32 = .ok (.getb 64) ∧
  decode 0x00000113#32 = .ok (.putInt .big) ∧
  decode 0x0000001A#32 = .ok (.getShort .little) ∧
  decode 0x00000221#32 = .ok (.putv32 .either .half) ∧
  decode 0x00000422#32 = .ok (.putv64 .positive .blocked) ∧
  decode 0x00000128#32 = .ok (.getv16 .negative .half) ∧
  decode 0x00000030#32 = .ok .alloc ∧
  decode 0x00000031#32 = .ok .flip ∧
  decode 0x00000032#32 = .ok .compact ∧
  decode 0x00000333#32 = .ok (.rdreg .fault) ∧
  decode 0x00000321#32 = .error .illegalSignMode ∧
  decode 0x00004001#32 = .error .reservedBits

/-! ## The ports -/

/-- A step at which the host presents a word that decodes to `i` is `exec i`, with the word on the CMD port, the
operand on the OPERAND port and the event taken (10_state.md R30, R31, R55; the list of events: log entry 5). -/
def Obligations.StepRunsPresentedCommand : Prop :=
  ∀ (s : State) (c : CommandWord) (o : Word) (rest : List HostEvent) (i : Instr),
    s.pending = .command c o :: rest → decode c = .ok i →
    step s = exec i { s with cmd := c, operand := o, pending := rest }

/-- A host read below CAP gives the byte and changes no register and no byte; at or beyond CAP the model
gives it no value (10_state.md R57). -/
def Obligations.HostReadPort : Prop :=
  ∀ (s : State) (a : Nat) (rest : List HostEvent), s.pending = .readByte a :: rest →
    (a < s.cap.toNat →
      step s = .next { s with pending := rest, reply := some (.byte (s.store.read a)) }) ∧
    (s.cap.toNat ≤ a → step s = .refused (.hostReadBeyondCap a))

/-- FAULT_LINE is 1 exactly while FAULT is not 0; it rises when a fault is taken and falls only at ALLOC or reset
(10_state.md R56). -/
def Obligations.FaultLineFollowsFault : Prop :=
  (∀ s : State, s.faultLine = true ↔ s.fault.code ≠ 0) ∧
  ∀ s t : State, step s = .next t →
    (s.faultLine = false → t.faultLine = true →
      ∃ c o rest, s.pending = .command c o :: rest ∧ t.fcmd = c ∧
        t.reply = some (.response false s.result)) ∧
    (s.faultLine = true → t.faultLine = false →
      (∃ rest, s.pending = .reset :: rest) ∨
      ∃ c o rest, s.pending = .command c o :: rest ∧ decode c = .ok .alloc ∧
        o.toNat ≤ Config.capMax)

/-! ## Reset and the invariants -/

/-- RESET sets every register to its value in the table of 70_reset_and_hazards.md R310; ALLOC with operand 0 leaves
the same values but for RESULT. -/
def Obligations.ResetSetsEveryRegister : Prop :=
  (∀ (s : State) (rest : List HostEvent), s.pending = .reset :: rest →
    ∃ t, step s = .next t ∧ t.cache = 0 ∧ t.free.val = 64 ∧ t.mode = .write ∧ t.cap = 0 ∧
      t.wpos = 0 ∧ t.rpos = 0 ∧ t.fault = .none ∧ t.faultLine = false ∧ t.fcmd = 0 ∧
      t.result = 0 ∧ t.pending = rest) ∧
  (∀ s : State, s.operand = 0 →
    ∃ t, exec .alloc s = .next t ∧ t.cache = 0 ∧ t.free.val = 64 ∧ t.mode = .write ∧ t.cap = 0 ∧
      t.wpos = 0 ∧ t.rpos = 0 ∧ t.fault = .none ∧ t.faultLine = false ∧ t.fcmd = 0 ∧
      t.result = s.result)

/-- The invariants hold right after reset (10_state.md R47, R50); that the store is zero then is the model's choice (log
entry 2). -/
def Obligations.ResetMeetsInvariants : Prop := State.reset.Inv

/-- Every step keeps the invariants: those of 10_state.md R47, the store's canonical form and size, the zero bytes from
WPOS on in write mode (20_memory.md R70), and FCMD = 0 without a fault (R41). After a reset the store holds what the
model chose for it (log entries 2, 13). -/
def Obligations.StepKeepsInvariants : Prop :=
  ∀ s t : State, s.Inv → step s = .next t → t.Inv

/-- The invariants of R47 hold in every state reached from reset, whatever the host does. -/
def Obligations.InvariantsOnEveryHostRun : Prop :=
  ∀ (events : List HostEvent) (k : Nat) (t : State),
    Sys2Proof.core.run k { State.reset with pending := events } = .next t →
    t.Sound ∧ t.free.val ≤ 64

/-- CAP_MAX is a multiple of 8 with 8 <= CAP_MAX <= 2^61 (00_scope.md R8), for every value of the open parameter. -/
def Obligations.CapMaxInBounds : Prop :=
  Config.capMax % 8 = 0 ∧ 8 ≤ Config.capMax ∧ Config.capMax ≤ 2 ^ 61

/-! ## Faults -/

/-- Faults are precise: a command that faults changes FAULT and FCMD and nothing else; RESULT, CACHE, FREE, MODE, CAP,
WPOS, RPOS and every byte of the store are as before it (60_exceptions.md R283). -/
def Obligations.FaultsArePrecise : Prop :=
  ∀ (s t : State) (c : CommandWord) (o : Word) (rest : List HostEvent),
    s.pending = .command c o :: rest → s.fault = .none → step s = .next t → t.fault ≠ .none →
    t = { s with
      cmd := c, operand := o, pending := rest
      fault := t.fault, fcmd := c, reply := some (.response false s.result) }

/-- While FAULT is not 0 only a legal ALLOC and a legal RDREG execute; every other word is refused with no effect at
all (60_exceptions.md R284), and an ALLOC that faults keeps the first fault (R281). -/
def Obligations.RefusedWhileFaulted : Prop :=
  ∀ (s : State) (c : CommandWord) (o : Word) (rest : List HostEvent),
    s.pending = .command c o :: rest → s.fault ≠ .none →
    ((∀ i, decode c = .ok i → runsWhileFaulted i = false) →
      step s = .next { s with
        cmd := c, operand := o, pending := rest, reply := some (.response false s.result) }) ∧
    (decode c = .ok .alloc → o.toNat ≤ Config.capMax →
      ∃ t, step s = .next t ∧ t.fault = .none ∧ t.fcmd = 0 ∧
        t.reply = some (.response true s.result)) ∧
    (decode c = .ok .alloc → Config.capMax < o.toNat →
      step s = .next { s with
        cmd := c, operand := o, pending := rest, reply := some (.response false s.result) }) ∧
    (∀ idx, decode c = .ok (.rdreg idx) →
      step s = .next { s with
        cmd := c, operand := o, pending := rest, result := s.register idx
        reply := some (.response true (s.register idx)) })

/-- A recorded fault stays, with its command word, until ALLOC or reset clears both (10_state.md R40, 60_exceptions.md
R281, R294). -/
def Obligations.FirstFaultIsKept : Prop :=
  ∀ s t : State, step s = .next t → s.fault ≠ .none →
    (t.fault = s.fault ∧ t.fcmd = s.fcmd) ∨
    (t.fault = .none ∧ t.fcmd = 0 ∧
      ((∃ rest, s.pending = .reset :: rest) ∨
        ∃ c o rest, s.pending = .command c o :: rest ∧ decode c = .ok .alloc ∧
          o.toNat ≤ Config.capMax))

/-- FCMD is written only together with FAULT, with the word of the command that set it, and cleared by ALLOC and reset
(10_state.md R41). -/
def Obligations.FcmdWrittenWithFault : Prop :=
  ∀ s t : State, step s = .next t → t.fcmd ≠ s.fcmd →
    (s.fault = .none ∧ t.fault ≠ .none ∧ ∃ o rest, s.pending = .command t.fcmd o :: rest) ∨
    (t.fcmd = 0 ∧ t.fault = .none ∧
      ((∃ rest, s.pending = .reset :: rest) ∨
        ∃ c o rest, s.pending = .command c o :: rest ∧ decode c = .ok .alloc))

/-- The order in which a command's faults are reported: refusal, ILLEGAL_COMMAND, MODE, DOMAIN or ALLOC_RANGE, then
OVERFLOW or UNDERFLOW (60_exceptions.md R292). -/
def Obligations.FaultPriority : Prop :=
  ∀ (s t : State) (c : CommandWord) (o : Word) (rest : List HostEvent),
    s.pending = .command c o :: rest → step s = .next t →
    (s.fault ≠ .none → (∀ i, decode c = .ok i → runsWhileFaulted i = false) →
      t.fault = s.fault ∧ t.fcmd = s.fcmd) ∧
    (s.fault = .none → legalWord c.toNat = false → t.fault = .illegalCommand) ∧
    (s.fault = .none → ∀ i, decode c = .ok i →
      (∀ m, neededMode i = some m → s.mode ≠ m → t.fault = .mode) ∧
      (neededMode i = some s.mode → domainError i o = true → t.fault = .domain) ∧
      (i = .alloc → Config.capMax < o.toNat → t.fault = .allocRange) ∧
      (neededMode i = some s.mode ∨ neededMode i = none → domainError i o = false →
        (i = .alloc → o.toNat ≤ Config.capMax) →
        t.fault = .none ∨ (t.fault = .overflow ∧ (s.mode = .write ∧ i ≠ .alloc)) ∨
          (t.fault = .underflow ∧ neededMode i = some .read)))

/-- A PUT-type command in read mode and a GET-type command in write mode raise MODE (60_exceptions.md R286): PUTB, GETB,
PUT_BYTE..PUT_DOUBLE, GET_BYTE..GET_DOUBLE, PUTV16..PUTV64, GETV16..GETV64, whatever their fields and operand. -/
def Obligations.WrongModeFaults : Prop :=
  ∀ (i : Instr) (m : Mode) (s : State),
    neededMode i = some m → s.mode ≠ m → s.fault = .none → exec i s = .next (s.faultedWith .mode)

/-- A command ends in exactly one of three ways: it completes, it faults or it is refused; the machine itself never
stops on a command (60_exceptions.md R282). -/
def Obligations.CommandEndsOneWay : Prop :=
  ∀ (i : Instr) (s : State), ∃ t, exec i s = .next t ∧
    ((CompletesIn i s t ∧ ¬ FaultsIn i s t ∧ ¬ RefusedIn i s t) ∨
      (¬ CompletesIn i s t ∧ FaultsIn i s t ∧ ¬ RefusedIn i s t) ∨
      (¬ CompletesIn i s t ∧ ¬ FaultsIn i s t ∧ RefusedIn i s t))

/-! ## The store and the value operators -/

/-- MemRead's word is the sum of its bytes, little-endian, and MemWrite sets the eight bytes of its word and no other, so
that a word written is the word read (20_memory.md R62, R63). Those rules speak of a multiple of 8 with a + 8 <= CAP; that
the same holds at every other address is the model's choice (log entry 9). -/
def Obligations.StoreWordsAreLittleEndian : Prop :=
  ∀ (m : Memory) (a : Nat) (v : Word), m.wf →
    (m.readWord a).toNat = ∑ k ∈ Finset.range 8, (m.read (a + k)).toNat * 2 ^ (8 * k) ∧
    (∀ k < 8, ((m.writeWord a v).read (a + k)).toNat = v.toNat / 2 ^ (8 * k) % 2 ^ 8) ∧
    (∀ x, (x < a ∨ a + 8 ≤ x) → (m.writeWord a v).read x = m.read x) ∧
    (m.writeWord a v).readWord a = v

/-- MASK[n] is 2^n - 1 for n in 0..64: the low n bits are 1 and the others 0 (40_bit_engine.md R120). -/
def Obligations.MaskTableEntries : Prop :=
  ∀ n ≤ 64, (mask n).toNat = 2 ^ n - 1 ∧ ∀ i < 64, (mask n).getLsbD i = decide (i < n)

/-- Byte k of `byterev_N(x)` is byte N/8 - 1 - k of x, and the bits from N on are zero (00_scope.md R13). -/
def Obligations.ByterevReversesBytes : Prop :=
  ∀ n ≤ 8, ∀ x : Word,
    (∀ k < n, (byterev n x).extractLsb' (8 * k) 8 = x.extractLsb' (8 * (n - 1 - k)) 8) ∧
    byterev n x >>> (8 * n) = 0

/-- `bit_length(m)` is the least n with m < 2^n (00_scope.md R14, which marks the meaning as general knowledge: log entry
10). -/
def Obligations.BitLengthIsLeast : Prop :=
  ∀ (m : Word) (n : Nat), m.toNat < 2 ^ n ↔ bitLength m ≤ n

/-! ## The engine -/

/-- The concatenation law: two puts in a row are one put of the concatenation, the same state or the same OVERFLOW, and
two gets in a row are one get cut in two; the store and the faults depend only on the bits appended, not on how
they were split into puts (40_bit_engine.md R128). -/
def Obligations.ConcatenationLaw : Prop :=
  (∀ (s : State) (a b : Word) (w1 w2 : Nat), w1 + w2 ≤ 64 →
    putFields s [(a, w1), (b, w2)] =
      putBits s ((a &&& mask w1) ||| ((b &&& mask w2) <<< w1)) (w1 + w2) ∧
    getBits s (w1 + w2) =
      match getBits s w1 with
      | .error code => .error code
      | .ok (r1, t) =>
        match getBits t w2 with
        | .error code => .error code
        | .ok (r2, u) => .ok (r1 ||| (r2 <<< w1), u)) ∧
  ∀ (s : State) (fields others : List (Word × Nat)), s.Inv → s.mode = .write →
    (∀ f ∈ fields, f.2 ≤ 64) → (∀ f ∈ others, f.2 ≤ 64) →
    fields.flatMap (fun f => natBits f.1.toNat f.2) =
      others.flatMap (fun f => natBits f.1.toNat f.2) →
    putFields s fields = putFields s others

/-- A width of zero changes nothing, reads 0 and never flushes or refills, and no command can name it
(40_bit_engine.md R131). -/
def Obligations.ZeroWidthDoesNothing : Prop :=
  (∀ (s : State) (v : Word), putBits s v 0 = .ok s) ∧
  (∀ s : State, getBits s 0 = .ok (0, s)) ∧
  ∀ c : CommandWord, decode c ≠ .ok (.putb 0) ∧ decode c ≠ .ok (.getb 0)

/-- PutBits keeps the cache bits above the fill offset zero, so the padding of a partial word that FLIP writes is zero
(40_bit_engine.md R132). -/
def Obligations.PaddingStaysZero : Prop :=
  (∀ (s t : State) (v : Word) (w : Nat), w ≤ 64 → s.cache >>> (64 - s.free.val) = 0 →
    putBits s v w = .ok t → t.cache >>> (64 - t.free.val) = 0) ∧
  (∀ s t : State, s.Inv → s.mode = .write → s.fault = .none → s.free.val < 64 →
    exec .flip s = .next t → t.fault = .none →
    ∀ i, 64 - s.free.val ≤ i → i < 64 → (t.store.readWord s.wpos.toNat).getLsbD i = false)

/-- PUTB completes exactly when its flush stays within CAP: the low `w` bits of OPERAND are appended to the stream, and
nothing else changes; otherwise it raises OVERFLOW (40_bit_engine.md R124, R126). -/
def Obligations.PutbAppendsBits : Prop :=
  ∀ (s : State) (w : Nat), 1 ≤ w → w ≤ 64 → s.Inv → s.fault = .none → s.mode = .write →
    (s.hasRoom w →
      ∃ t, exec (.putb w) s = .next t ∧ s.HasAppended t (natBits s.operand.toNat w) ∧
        t.reply = some (.response true s.result)) ∧
    (¬ s.hasRoom w → exec (.putb w) s = .next (s.faultedWith .overflow))

/-- GETB completes exactly when its refill stays within WPOS: RESULT takes the next `w` bits of the stream,
zero-extended, and nothing else changes; otherwise it raises UNDERFLOW (40_bit_engine.md R125, R127). -/
def Obligations.GetbTakesBits : Prop :=
  ∀ (s : State) (w : Nat), 1 ≤ w → w ≤ 64 → s.Inv → s.fault = .none → s.mode = .read →
    (s.hasData w →
      ∃ t, exec (.getb w) s = .next t ∧ s.HasConsumed t w ∧
        natBits t.result.toNat 64 = widen false (s.unread.take w) ∧
        t.reply = some (.response true t.result)) ∧
    (¬ s.hasData w → exec (.getb w) s = .next (s.faultedWith .underflow))

/-- Any sequence of puts into a fresh buffer, then FLIP, then gets of the same widths: each get returns what was put,
masked to its width, when no fault occurs, and none occurs when CAP >= 8 * ceil(total / 64) (40_bit_engine.md
R130). -/
def Obligations.BoundaryCrossingRoundTrip : Prop :=
  ∀ (s : State) (fields : List (Word × Nat)),
    s.Inv → s.fault = .none → s.mode = .write → s.free.val = 64 → s.wpos = 0 →
    (∀ f ∈ fields, f.2 ≤ 64) →
    (∀ t u, putFields s fields = .ok t → exec .flip t = .next u → u.fault = .none →
      ∃ g, getFields u (fields.map Prod.snd) = .ok (fields.map (fun f => f.1 &&& mask f.2), g)) ∧
    (8 * (((fields.map Prod.snd).sum + 63) / 64) ≤ s.cap.toNat →
      ∃ t u, putFields s fields = .ok t ∧ exec .flip t = .next u ∧ u.fault = .none)

/-- A command makes at most two flushes or two refills (40_bit_engine.md R129, 70_reset_and_hazards.md R318): a PUT-type
command moves WPOS by at most 16, a GET-type command RPOS. -/
def Obligations.AtMostTwoWordAccesses : Prop :=
  ∀ (i : Instr) (s t : State), i.wellFormed = true → s.Inv → exec i s = .next t →
    (neededMode i = some .write →
      s.wpos.toNat ≤ t.wpos.toNat ∧ t.wpos.toNat ≤ s.wpos.toNat + 16 ∧ t.rpos = s.rpos) ∧
    (neededMode i = some .read →
      s.rpos.toNat ≤ t.rpos.toNat ∧ t.rpos.toNat ≤ s.rpos.toNat + 16 ∧ t.wpos = s.wpos)

/-! ## The fixed-width codec -/

/-- PUT_BYTE, PUT_CHAR, PUT_SHORT, PUT_INT, PUT_LONG, PUT_FLOAT and PUT_DOUBLE complete exactly when the flush stays
within CAP: the low N bits of OPERAND, bytes reversed for BigEndian, are appended and nothing else changes;
otherwise they raise OVERFLOW (41_fixed_width.md R160, R161, R163 to R169). -/
def Obligations.FixedPutsAppendValue : Prop :=
  ∀ (ty : FixedType) (bo : ByteOrder) (s : State), s.Inv → s.fault = .none → s.mode = .write →
    (s.hasRoom (typeWidth ty) →
      ∃ t, exec (putOf ty bo) s = .next t ∧
        s.HasAppended t (orderBits bo (natBits s.operand.toNat (typeWidth ty))) ∧
        t.reply = some (.response true s.result)) ∧
    (¬ s.hasRoom (typeWidth ty) → exec (putOf ty bo) s = .next (s.faultedWith .overflow))

/-- GET_BYTE, GET_CHAR, GET_SHORT, GET_INT, GET_LONG, GET_FLOAT and GET_DOUBLE complete exactly when the refill stays
within WPOS: RESULT takes the next N bits, bytes reversed for BigEndian, sign-extended for byte, short and int and
zero-extended or whole for the others, and nothing else changes; otherwise they raise UNDERFLOW
(41_fixed_width.md R160, R162, R170 to R176). -/
def Obligations.FixedGetsWidenValue : Prop :=
  ∀ (ty : FixedType) (bo : ByteOrder) (s : State), s.Inv → s.fault = .none → s.mode = .read →
    (s.hasData (typeWidth ty) →
      ∃ t, exec (getOf ty bo) s = .next t ∧ s.HasConsumed t (typeWidth ty) ∧
        natBits t.result.toNat 64 =
          widen (typeSigned ty) (orderBits bo (s.unread.take (typeWidth ty))) ∧
        t.reply = some (.response true t.result)) ∧
    (¬ s.hasData (typeWidth ty) → exec (getOf ty bo) s = .next (s.faultedWith .underflow))

/-- The fixed-width round trip: after `PUT_T.O v` and FLIP, `GET_T.O'` at the same stream position returns the low N bits
of v widened by T's rule when O' = O (41_fixed_width.md R178), and byte-reversed first when O' is the other order
(R179). -/
def Obligations.FixedRoundTrip : Prop :=
  ∀ (ty : FixedType) (bo bo' : ByteOrder) (s t u g : State),
    s.Inv → s.fault = .none → s.mode = .write →
    exec (putOf ty bo) s = .next t → t.fault = .none →
    exec .flip t = .next u → u.fault = .none →
    g.Inv → g.fault = .none → g.mode = .read → g.unread = u.unread.drop s.appended.length →
    ∃ h, exec (getOf ty bo') g = .next h ∧ h.fault = .none ∧
    natBits h.result.toNat 64 = widen (typeSigned ty)
      (if bo' = bo then natBits s.operand.toNat (typeWidth ty)
        else orderBits .big (natBits s.operand.toNat (typeWidth ty)))

/-- A value put at a stream position that is a multiple of 8 lies in whole store bytes after FLIP: least significant byte
first for LittleEndian, most significant first for BigEndian (20_memory.md R64, R66). -/
def Obligations.ByteViewOfFixedPuts : Prop :=
  ∀ (ty : FixedType) (bo : ByteOrder) (s t u : State), s.Inv → s.fault = .none → s.mode = .write →
    s.appended.length % 8 = 0 →
    exec (putOf ty bo) s = .next t → t.fault = .none →
    exec .flip t = .next u → u.fault = .none →
    ∀ k < typeWidth ty / 8,
      u.store.read (s.appended.length / 8 + k) =
        match bo with
        | .little => s.operand.extractLsb' (8 * k) 8
        | .big => s.operand.extractLsb' (8 * (typeWidth ty / 8 - 1 - k)) 8

/-! ## The adaptive codec -/

/-- PUTV16, PUTV32 and PUTV64 complete exactly when the flushes of the whole encoding stay within CAP: the flag, sign,
prefix, magnitude and pad of the tables of 42_adaptive_codec.md R205 and R209 are appended, all or none of them,
and nothing else changes; otherwise they raise OVERFLOW (R212, R213). -/
def Obligations.AdaptivePutsAppendEncoding : Prop :=
  ∀ (w : IntWidth) (sm : SignMode) (st : Strategy) (s : State) (v : Int),
    s.Inv → s.fault = .none → s.mode = .write →
    v = (s.operand.setWidth (widthBits w)).toInt → v ≠ -(2 ^ (widthBits w - 1) : Int) →
    (s.hasRoom (encodingBits w sm st v).length →
      ∃ t, exec (putvOf w sm st) s = .next t ∧ s.HasAppended t (encodingBits w sm st v) ∧
        t.reply = some (.response true s.result)) ∧
    (¬ s.hasRoom (encodingBits w sm st v).length →
      exec (putvOf w sm st) s = .next (s.faultedWith .overflow))

/-- GETV16, GETV32 and GETV64 read the unread stream as the decoder of 42_adaptive_codec.md R208, R211 and R212 reads a
list of bits: RESULT is its value and the bits it took are gone, or, when the stream is too short for it, they
raise UNDERFLOW. The decoder is total: there is no third case. -/
def Obligations.AdaptiveGetsDecodeStream : Prop :=
  ∀ (w : IntWidth) (sm : SignMode) (st : Strategy) (s : State),
    s.Inv → s.fault = .none → s.mode = .read →
    (∀ r rest, decodeBits w sm st s.unread = some (r, rest) →
      ∃ t, exec (getvOf w sm st) s = .next t ∧ t.result = r ∧ t.unread = rest ∧
        s.HasConsumed t (s.unread.length - rest.length) ∧
        t.reply = some (.response true r)) ∧
    (decodeBits w sm st s.unread = none →
      exec (getvOf w sm st) s = .next (s.faultedWith .underflow))

/-- PUTV of -2^(W-1) raises DOMAIN and puts nothing (60_exceptions.md R290). -/
def Obligations.MostNegativeValueFaults : Prop :=
  ∀ (w : IntWidth) (sm : SignMode) (st : Strategy) (s : State),
    s.fault = .none → s.mode = .write →
    (s.operand.setWidth (widthBits w)).toInt = -(2 ^ (widthBits w - 1) : Int) →
    exec (putvOf w sm st) s = .next (s.faultedWith .domain)

/-- An encoding determines its own length, and decodes, whatever follows it, to the value it holds: v in the Either mode,
|v| in the Positive mode and -|v| in the Negative mode (42_adaptive_codec.md R228; the values: R214). -/
def Obligations.EncodingIsSelfDelimiting : Prop :=
  ∀ (w : IntWidth) (sm : SignMode) (st : Strategy) (v : Int) (rest : List Bool),
    v.natAbs < 2 ^ (widthBits w - 1) →
    decodeBits w sm st (encodingBits w sm st v ++ rest) =
      some (BitVec.ofInt 64 (match sm with
        | .positive => (v.natAbs : Int)
        | .negative => -(v.natAbs : Int)
        | .either => v), rest)

/-- The adaptive round trip: after PUTV of v in a sign mode that fits v, and FLIP, GETV at the same stream position
returns v (42_adaptive_codec.md R226). -/
def Obligations.AdaptiveRoundTrip : Prop :=
  ∀ (w : IntWidth) (sm : SignMode) (st : Strategy) (s t u g : State) (v : Int),
    s.Inv → s.fault = .none → s.mode = .write →
    v = (s.operand.setWidth (widthBits w)).toInt → v ≠ -(2 ^ (widthBits w - 1) : Int) →
    signFits sm v →
    exec (putvOf w sm st) s = .next t → t.fault = .none →
    exec .flip t = .next u → u.fault = .none →
    g.Inv → g.fault = .none → g.mode = .read → g.unread = u.unread.drop s.appended.length →
    ∃ h, exec (getvOf w sm st) g = .next h ∧ h.fault = .none ∧ h.result = BitVec.ofInt 64 v

/-- The escape thresholds and the sizes of the encodings (42_adaptive_codec.md R205, R206, R209, R210): the first bit is 0
exactly from the smallest escaped magnitude on; an escape takes W + s bits, a compressed HALF field
1 + s + L + (bl | 1) and a compressed BLOCKED field 4 + s + 4n; the half-length fits its prefix. -/
def Obligations.EscapeThresholds : Prop :=
  ∀ (w : IntWidth) (sm : SignMode) (st : Strategy) (v : Int),
    v.natAbs < 2 ^ (widthBits w - 1) →
    (smallestEscaped w st ≤ v.natAbs →
      (encodingBits w sm st v).head? = some false ∧
      (encodingBits w sm st v).length = widthBits w + (signPart sm v).length) ∧
    (v.natAbs < smallestEscaped w st →
      (encodingBits w sm st v).head? = some true ∧
      (encodingBits w sm st v).length =
        match st with
        | .half => 1 + (signPart sm v).length + prefixWidth w + (bitLen v.natAbs ||| 1)
        | .blocked => 4 + (signPart sm v).length + 4 * ((bitLen v.natAbs + 3) / 4)) ∧
    (v.natAbs < smallestEscaped w .half → bitLen v.natAbs / 2 < 2 ^ prefixWidth w)

/-! ## The lifecycle -/

/-- ALLOC of n <= CAP_MAX bytes starts a fresh buffer of n rounded up to a multiple of 8, with its bytes zero, and clears
any fault; of more it raises ALLOC_RANGE, or keeps the first fault (43_lifecycle.md R250, 60_exceptions.md R281). -/
def Obligations.AllocStartsFreshBuffer : Prop :=
  ∀ s : State, s.Inv →
    (s.operand.toNat ≤ Config.capMax →
      ∃ t, exec .alloc s = .next t ∧ t.cap.toNat = 8 * ((s.operand.toNat + 7) / 8) ∧
        (∀ a < t.cap.toNat, t.store.read a = 0) ∧
        (∀ a, t.cap.toNat ≤ a → t.store.read a = s.store.read a) ∧
        t.cache = 0 ∧ t.free.val = 64 ∧ t.mode = .write ∧ t.wpos = 0 ∧ t.rpos = 0 ∧
        t.fault = .none ∧ t.fcmd = 0 ∧ t.result = s.result ∧
        t.cmd = s.cmd ∧ t.operand = s.operand ∧ t.pending = s.pending ∧
        t.reply = some (.response true s.result)) ∧
    (Config.capMax < s.operand.toNat → s.fault = .none →
      exec .alloc s = .next (s.faultedWith .allocRange)) ∧
    (Config.capMax < s.operand.toNat → s.fault ≠ .none →
      exec .alloc s = .next { s with reply := some (.response false s.result) })

/-- FLIP in write mode with bits pending writes the cache word at WPOS, byte k of the word at WPOS + k, or raises OVERFLOW
when that would pass CAP; with none pending, and in read mode, it writes nothing. It leaves READ, an empty cache
and RPOS = 0, and changes nothing else (43_lifecycle.md R252, R253). -/
def Obligations.FlipFlushesAndRewinds : Prop :=
  ∀ s : State, s.Inv → s.fault = .none →
    (s.mode = .write → s.free.val < 64 → s.wpos.toNat + 8 ≤ s.cap.toNat →
      ∃ t, exec .flip s = .next t ∧
        (∀ k < 8, t.store.read (s.wpos.toNat + k) = s.cache.extractLsb' (8 * k) 8) ∧
        (∀ a, (a < s.wpos.toNat ∨ s.wpos.toNat + 8 ≤ a) → t.store.read a = s.store.read a) ∧
        t.wpos.toNat = s.wpos.toNat + 8 ∧ t.mode = .read ∧ t.cache = 0 ∧ t.free.val = 0 ∧
        t.rpos = 0 ∧ t.cap = s.cap ∧ t.fault = .none ∧ t.fcmd = s.fcmd ∧ t.result = s.result ∧
        t.cmd = s.cmd ∧ t.operand = s.operand ∧ t.pending = s.pending ∧
        t.reply = some (.response true s.result)) ∧
    (s.mode = .write → s.free.val < 64 → s.cap.toNat < s.wpos.toNat + 8 →
      exec .flip s = .next (s.faultedWith .overflow)) ∧
    (s.mode = .read ∨ s.free.val = 64 →
      exec .flip s = .next { s with
        mode := .read, cache := 0, free := 0, rpos := 0
        reply := some (.response true s.result) })

/-- FLIP in read mode rewinds: the next get reads from bit 0 of the store again. Two FLIPs in a row leave the state one
FLIP leaves, whatever mode the buffer was in (43_lifecycle.md R253). -/
def Obligations.FlipIsIdempotent : Prop :=
  ∀ s t : State, s.fault = .none → exec .flip s = .next t →
    (s.mode = .read → t.fault = .none ∧ t.cache = 0 ∧ t.free.val = 0 ∧ t.rpos = 0 ∧ t.wpos = s.wpos ∧
      t.store = s.store ∧ t.unread = s.store.bits 0 s.wpos.toNat) ∧
    (t.fault = .none → exec .flip t = .next t)

/-- After a FLIP from write mode the unread stream, and bytes 0..WPOS-1 of the store, hold every appended bit in order and
then zero padding to the word boundary (20_memory.md R76, R77, 43_lifecycle.md R260). -/
def Obligations.FlipMakesStreamReadable : Prop :=
  ∀ s t : State, s.Inv → s.fault = .none → s.mode = .write →
    exec .flip s = .next t → t.fault = .none →
    t.unread = s.appended ++ List.replicate (if s.free.val = 64 then 0 else s.free.val) false ∧
    t.artifact.flatMap (fun b => natBits b.toNat 8) = t.unread ∧
    t.artifact.length = t.wpos.toNat

/-- COMPACT never faults. In read mode it moves bytes RPOS..WPOS-1 to 0, takes RPOS off WPOS and sets RPOS to 0; the other
bytes keep their old contents. In write mode it does nothing. CACHE, FREE and RESULT never change
(43_lifecycle.md R254, 20_memory.md R73). -/
def Obligations.CompactRemovesConsumedWords : Prop :=
  ∀ s : State, s.Inv → s.fault = .none →
    (s.mode = .write →
      exec .compact s = .next { s with reply := some (.response true s.result) }) ∧
    (s.mode = .read →
      ∃ t, exec .compact s = .next t ∧
        (∀ i < s.wpos.toNat - s.rpos.toNat, t.store.read i = s.store.read (s.rpos.toNat + i)) ∧
        (∀ i, s.wpos.toNat - s.rpos.toNat ≤ i → t.store.read i = s.store.read i) ∧
        t.wpos.toNat = s.wpos.toNat - s.rpos.toNat ∧ t.rpos = 0 ∧
        t.cache = s.cache ∧ t.free = s.free ∧ t.mode = .read ∧ t.cap = s.cap ∧
        t.fault = .none ∧ t.fcmd = s.fcmd ∧ t.result = s.result ∧
        t.cmd = s.cmd ∧ t.operand = s.operand ∧ t.pending = s.pending ∧
        t.reply = some (.response true s.result))

/-- COMPACT in read mode leaves the unread stream as it was; a FLIP after it rewinds to the new address 0, so the words
COMPACT removed cannot be read again (43_lifecycle.md R254, R255). -/
def Obligations.FlipAfterCompactRewindsToNewStart : Prop :=
  ∀ s t u : State, s.Inv → s.fault = .none → s.mode = .read →
    exec .compact s = .next t → exec .flip t = .next u →
    t.unread = s.unread ∧ u.rpos = 0 ∧ u.unread = s.store.bits s.rpos.toNat s.wpos.toNat

/-- RDREG copies the register its index names, zero-extended, to RESULT, in either mode and even while FAULT is not 0, and
changes nothing else; the eight indices of its word name the eight registers of the map (43_lifecycle.md R258,
10_state.md R44). -/
def Obligations.RdregReadsRegisters : Prop :=
  (∀ k : Fin 8, decode (BitVec.ofNat 32 (0x33 + 256 * k.val)) =
    .ok (.rdreg ([.cache, .free, .mode, .fault, .fcmd, .cap, .wpos, .rpos].get k))) ∧
  ∀ s : State, ∃ value : RegIndex → Word,
    (∀ idx, exec (.rdreg idx) s =
      .next { s with result := value idx, reply := some (.response true (value idx)) }) ∧
    value .cache = s.cache ∧ (value .free).toNat = s.free.val ∧
    (value .mode).toNat = (if s.mode = .write then 0 else 1) ∧
    (value .fault).toNat = (match s.fault with
      | .none => 0
      | .illegalCommand => 1
      | .mode => 2
      | .overflow => 3
      | .underflow => 4
      | .domain => 5
      | .allocRange => 6) ∧
    (value .fcmd).toNat = s.fcmd.toNat ∧
    value .cap = s.cap ∧ value .wpos = s.wpos ∧ value .rpos = s.rpos

/-! ## The machine as a whole -/

/-- Nothing sets MODE from READ back to WRITE except ALLOC and reset (10_state.md R36, 43_lifecycle.md R256). -/
def Obligations.OnlyAllocAndResetLeaveReadMode : Prop :=
  ∀ s t : State, step s = .next t → s.mode = .read → t.mode = .write →
    (∃ rest, s.pending = .reset :: rest) ∨
    ∃ c o rest, s.pending = .command c o :: rest ∧ decode c = .ok .alloc ∧
      o.toNat ≤ Config.capMax

/-- RESULT is written only by a GET-type command or RDREG that completes; every other command, and every faulted or
refused one, leaves it unchanged (10_state.md R42). -/
def Obligations.ResultWrittenOnlyByGetsAndRdreg : Prop :=
  ∀ (s t : State) (c : CommandWord) (o : Word) (rest : List HostEvent),
    s.pending = .command c o :: rest → step s = .next t → t.result ≠ s.result →
    t.reply = some (.response true t.result) ∧
    ∃ i, decode c = .ok i ∧ (neededMode i = some .read ∨ ∃ idx, i = .rdreg idx)

/-- Which commands write which state, the table of 10_state.md R45: no command writes outside its row, a put or FLIP
changes no byte of the store but those it flushes, COMPACT none but the bytes 0..WPOS-RPOS-1 it moves bytes to, a
get and RDREG none, and a faulted or refused command writes FAULT and FCMD alone. -/
def Obligations.CommandsWriteOnlyTheirState : Prop :=
  ∀ (i : Instr) (s t : State), s.Inv → exec i s = .next t →
    (neededMode i = some .write →
      t.mode = s.mode ∧ t.cap = s.cap ∧ t.rpos = s.rpos ∧ t.result = s.result ∧
      ∀ a, (a < s.wpos.toNat ∨ t.wpos.toNat ≤ a) → t.store.read a = s.store.read a) ∧
    (neededMode i = some .read →
      t.mode = s.mode ∧ t.cap = s.cap ∧ t.wpos = s.wpos ∧ t.store = s.store ∧
      (t.rpos = s.rpos → t.cache = s.cache)) ∧
    (i = .alloc → t.result = s.result) ∧
    (i = .flip →
      t.cap = s.cap ∧ t.result = s.result ∧
      ∀ a, (a < s.wpos.toNat ∨ t.wpos.toNat ≤ a) → t.store.read a = s.store.read a) ∧
    (i = .compact →
      t.cache = s.cache ∧ t.free = s.free ∧ t.mode = s.mode ∧ t.cap = s.cap ∧
      t.result = s.result ∧
      (∀ a, s.wpos.toNat - s.rpos.toNat ≤ a → t.store.read a = s.store.read a) ∧
      (s.mode = .write → t.wpos = s.wpos ∧ t.rpos = s.rpos ∧ t.store = s.store)) ∧
    (∀ idx, i = .rdreg idx →
      t.cache = s.cache ∧ t.free = s.free ∧ t.mode = s.mode ∧ t.cap = s.cap ∧ t.wpos = s.wpos ∧
      t.rpos = s.rpos ∧ t.store = s.store ∧ t.fault = s.fault ∧ t.fcmd = s.fcmd) ∧
    (t.reply = some (.response false t.result) →
      t.cache = s.cache ∧ t.free = s.free ∧ t.mode = s.mode ∧ t.cap = s.cap ∧ t.wpos = s.wpos ∧
      t.rpos = s.rpos ∧ t.store = s.store ∧ t.result = s.result)
end

