-- ==== Sys2Proof/Laws/Memory.lean ====
section
/-!
SUPPORT. The store's operations: each keeps the canonical form, and what a byte reads as after each of them.
-/

namespace Sys2Proof.Machine

theorem Memory.wf_nil : Memory.wf [] := ⟨List.Pairwise.nil, by simp⟩

/-- A canonical list is a cell in front of a canonical list of higher addresses. -/
theorem Memory.wf_cons_iff {b : Nat} {u : Byte} {m : Memory} :
    Memory.wf ((b, u) :: m) ↔ (∀ c ∈ m, b < c.1) ∧ u ≠ unlistedByte ∧ Memory.wf m := by
  simp only [Memory.wf, List.pairwise_cons, List.mem_cons, forall_eq_or_imp]
  tauto

@[simp] theorem Memory.read_nil (a : Nat) : Memory.read [] a = unlistedByte := rfl

theorem Memory.read_cons (b : Nat) (u : Byte) (m : Memory) (a : Nat) :
    Memory.read ((b, u) :: m) a = if a = b then u else Memory.read m a := rfl

/-- An address below every listed one is unlisted. -/
theorem Memory.read_eq_unlisted {m : Memory} {a : Nat} (h : ∀ c ∈ m, c.1 ≠ a) :
    Memory.read m a = unlistedByte := by
  induction m with
  | nil => rfl
  | cons c m ih =>
    rw [Memory.read_cons, if_neg (Ne.symm (h c (by simp)))]
    exact ih fun d hd => h d (by simp [hd])

theorem Memory.read_consCell {a : Nat} {v : Byte} {m : Memory} (h : ∀ c ∈ m, c.1 ≠ a) (x : Nat) :
    Memory.read (Memory.consCell a v m) x = if x = a then v else Memory.read m x := by
  unfold Memory.consCell
  split
  · split
    · subst_vars; exact Memory.read_eq_unlisted h
    · rfl
  · rfl

theorem Memory.wf_consCell {a : Nat} {v : Byte} {m : Memory} (hm : m.wf) (h : ∀ c ∈ m, a < c.1) :
    (Memory.consCell a v m).wf := by
  unfold Memory.consCell
  split
  · exact hm
  · rename_i hv; exact Memory.wf_cons_iff.2 ⟨h, hv, hm⟩

theorem Memory.mem_consCell {a : Nat} {v : Byte} {m : Memory} {c : Host.Cell}
    (h : c ∈ Memory.consCell a v m) : c.1 = a ∨ c ∈ m := by
  unfold Memory.consCell at h
  split at h
  · exact .inr h
  · rcases List.mem_cons.1 h with rfl | h
    · exact .inl rfl
    · exact .inr h

/-- The cells of a write are the old ones and the written one. -/
theorem Memory.mem_write {m : Memory} {a : Nat} {v : Byte} {c : Host.Cell}
    (h : c ∈ Memory.write m a v) : c.1 = a ∨ c ∈ m := by
  induction m with
  | nil => exact Memory.mem_consCell h
  | cons d m ih =>
    obtain ⟨b, u⟩ := d
    unfold Memory.write at h
    split at h
    · exact Memory.mem_consCell h
    · split at h
      · exact (Memory.mem_consCell h).imp id fun h => by simp [h]
      · rcases List.mem_cons.1 h with rfl | h
        · exact .inr (by simp)
        · exact (ih h).imp id fun h => by simp [h]

/-- A write of one byte keeps the canonical form. -/
theorem Memory.wf_write {m : Memory} (hm : m.wf) (a : Nat) (v : Byte) : (m.write a v).wf := by
  induction m with
  | nil => exact Memory.wf_consCell hm (by simp)
  | cons d m ih =>
    obtain ⟨b, u⟩ := d
    obtain ⟨hlt, hu, hm'⟩ := Memory.wf_cons_iff.1 hm
    unfold Memory.write
    split
    · rename_i hab
      refine Memory.wf_consCell hm fun c hc => ?_
      rcases List.mem_cons.1 hc with rfl | hc
      · exact hab
      · exact lt_trans hab (hlt c hc)
    · split
      · subst_vars; exact Memory.wf_consCell hm' hlt
      · refine Memory.wf_cons_iff.2 ⟨fun c hc => ?_, hu, ih hm'⟩
        rcases Memory.mem_write hc with rfl | hc
        · omega
        · exact hlt c hc

/-- What a byte reads as after a write of one byte. -/
theorem Memory.read_write {m : Memory} (hm : m.wf) (a : Nat) (v : Byte) (x : Nat) :
    (m.write a v).read x = if x = a then v else m.read x := by
  induction m with
  | nil => exact Memory.read_consCell (by simp) x
  | cons d m ih =>
    obtain ⟨b, u⟩ := d
    obtain ⟨hlt, -, hm'⟩ := Memory.wf_cons_iff.1 hm
    unfold Memory.write
    split
    · rename_i hab
      refine Memory.read_consCell (fun c hc => ?_) x
      rcases List.mem_cons.1 hc with rfl | hc
      · exact (Nat.ne_of_lt hab).symm
      · exact (Nat.ne_of_lt (lt_trans hab (hlt c hc))).symm
    · split
      · rename_i _ hab
        subst hab
        rw [Memory.read_consCell (fun c hc => (Nat.ne_of_lt (hlt c hc)).symm), Memory.read_cons]
        split <;> rfl
      · rw [Memory.read_cons, Memory.read_cons, ih hm']
        split <;> rename_i h1 <;> split <;> simp_all

/-- Writing bytes in a row keeps the canonical form. -/
theorem Memory.wf_writeBytes {m : Memory} (hm : m.wf) (a : Nat) (vs : List Byte) :
    (m.writeBytes a vs).wf := by
  induction vs generalizing m a with
  | nil => exact hm
  | cons v vs ih => exact ih (Memory.wf_write hm a v) (a + 1)

/-- What a byte reads as after bytes are written in a row from `a`. -/
theorem Memory.read_writeBytes {m : Memory} (hm : m.wf) (a : Nat) (vs : List Byte) (x : Nat) :
    (m.writeBytes a vs).read x =
      if a ≤ x ∧ x < a + vs.length then vs.getD (x - a) 0 else m.read x := by
  induction vs generalizing m a with
  | nil => rw [if_neg (by simp)]; rfl
  | cons v vs ih =>
    rw [Memory.writeBytes, ih (Memory.wf_write hm a v) (a + 1), Memory.read_write hm]
    simp only [List.length_cons]
    rcases Nat.lt_trichotomy x a with h | rfl | h
    · simp [show ¬ a + 1 ≤ x by omega, show ¬ a ≤ x by omega, Nat.ne_of_lt h]
    · simp
    · obtain ⟨k, rfl⟩ := Nat.exists_eq_add_of_lt h
      by_cases hk : k < vs.length
      · simp [show a + k + 1 - a = k + 1 by omega, show a + k + 1 - (a + 1) = k by omega,
          show a + 1 ≤ a + k + 1 by omega, show a ≤ a + k + 1 by omega,
          show a + k + 1 < a + 1 + vs.length by omega,
          show a + k + 1 < a + (vs.length + 1) by omega]
      · simp [show ¬ a + k + 1 < a + 1 + vs.length by omega,
          show ¬ a + k + 1 < a + (vs.length + 1) by omega, show a + k + 1 ≠ a by omega]

@[simp] theorem wordBytes_length (v : Word) : (wordBytes v).length = 8 := by simp [wordBytes]

/-- Byte k of a word in store order is its bits 8k+7..8k (20_memory.md R63). -/
theorem wordBytes_getD (v : Word) {k : Nat} (hk : k < 8) :
    (wordBytes v).getD k 0 = v.extractLsb' (8 * k) 8 := by
  simp [wordBytes, hk]

/-- MemWrite keeps the canonical form. -/
theorem Memory.wf_writeWord {m : Memory} (hm : m.wf) (a : Nat) (v : Word) : (m.writeWord a v).wf :=
  Memory.wf_writeBytes hm a _

/-- What a byte reads as after MemWrite: inside the word its own eight bits, outside as before (R63). -/
theorem Memory.read_writeWord {m : Memory} (hm : m.wf) (a : Nat) (v : Word) (x : Nat) :
    (m.writeWord a v).read x =
      if a ≤ x ∧ x < a + 8 then v.extractLsb' (8 * (x - a)) 8 else m.read x := by
  rw [Memory.writeWord, Memory.read_writeBytes hm, wordBytes_length]
  split
  · rw [wordBytes_getD v (by omega)]
  · rfl

theorem Memory.mem_writeBytes {m : Memory} {a : Nat} {vs : List Byte} {c : Host.Cell}
    (h : c ∈ m.writeBytes a vs) : (a ≤ c.1 ∧ c.1 < a + vs.length) ∨ c ∈ m := by
  induction vs generalizing m a with
  | nil => exact .inr h
  | cons v vs ih =>
    rcases ih h with h | h
    · left; simp only [List.length_cons]; omega
    · rcases Memory.mem_write h with h | h
      · left; simp only [List.length_cons]; omega
      · exact .inr h

/-- The cells after MemWrite are old ones or lie in the written word. -/
theorem Memory.mem_writeWord {m : Memory} {a : Nat} {v : Word} {c : Host.Cell}
    (h : c ∈ m.writeWord a v) : (a ≤ c.1 ∧ c.1 < a + 8) ∨ c ∈ m := by
  simpa using Memory.mem_writeBytes h

/-- Keeping some cells keeps the canonical form. -/
theorem Memory.wf_filter {m : Memory} (hm : m.wf) (p : Host.Cell → Bool) :
    Memory.wf (m.filter p) :=
  ⟨hm.1.filter p, fun c hc => hm.2 c (List.mem_of_mem_filter hc)⟩

/-- What a byte reads as when only the cells of some addresses are kept. -/
theorem Memory.read_filter {m : Memory} (hm : m.wf) (p : Nat → Bool) (x : Nat) :
    Memory.read (m.filter fun c => p c.1) x = if p x then m.read x else unlistedByte := by
  induction m with
  | nil => simp
  | cons d m ih =>
    obtain ⟨b, u⟩ := d
    obtain ⟨hlt, -, hm'⟩ := Memory.wf_cons_iff.1 hm
    rw [List.filter_cons]
    by_cases hb : p b
    · simp only [hb, if_true, Memory.read_cons, ih hm']
      by_cases hx : x = b
      · subst hx; simp [hb]
      · simp [hx]
    · rw [if_neg (by simpa using hb), ih hm', Memory.read_cons]
      by_cases hx : x = b
      · subst hx; simp [hb]
      · simp [hx]

/-- StoreClear keeps the canonical form. -/
theorem Memory.wf_clear {m : Memory} (hm : m.wf) (c : Nat) : (m.clear c).wf :=
  Memory.wf_filter hm _

/-- What a byte reads as after StoreClear(c): zero below c, as before from c on (R74). -/
theorem Memory.read_clear {m : Memory} (hm : m.wf) (c x : Nat) :
    (m.clear c).read x = if x < c then 0 else m.read x := by
  rw [Memory.clear, Memory.read_filter hm (fun a => decide (c ≤ a))]
  by_cases h : x < c
  · simp [h, show ¬ c ≤ x by omega, unlistedByte]
  · simp [h, show c ≤ x by omega]

theorem Memory.read_shift {m : Memory} {r : Nat} (h : ∀ c ∈ m, r ≤ c.1) (x : Nat) :
    Memory.read (m.map fun c => (c.1 - r, c.2)) x = Memory.read m (r + x) := by
  induction m with
  | nil => rfl
  | cons d m ih =>
    have hd : r ≤ d.1 := h d (by simp)
    rw [List.map_cons, Memory.read_cons, ih fun c hc => h c (by simp [hc])]
    obtain ⟨b, u⟩ := d
    simp only at hd
    rw [Memory.read_cons]
    by_cases hx : x = b - r
    · simp [hx, show r + (b - r) = b by omega]
    · simp [hx, show r + x ≠ b by omega]

/-- Reading a list in two parts of separate addresses. -/
theorem Memory.read_append {m n : Memory} (x : Nat) (h : ∀ c ∈ m, c.2 ≠ unlistedByte) :
    Memory.read (m ++ n) x = if Memory.read m x = unlistedByte then Memory.read n x
      else Memory.read m x := by
  induction m with
  | nil => simp
  | cons d m ih =>
    obtain ⟨b, u⟩ := d
    rw [List.cons_append, Memory.read_cons, Memory.read_cons, ih fun c hc => h c (by simp [hc])]
    by_cases hx : x = b
    · simp [hx, h (b, u) (by simp)]
    · simp [hx]

/-- StoreCompact keeps the canonical form. -/
theorem Memory.wf_compact {m : Memory} (hm : m.wf) (r w : Nat) : (m.compact r w).wf := by
  constructor
  · refine List.pairwise_append.2 ⟨?_, hm.1.filter _, ?_⟩
    · refine List.pairwise_map.2 ?_
      refine (hm.1.filter _).imp_of_mem fun {c d} hc hd hcd => ?_
      have h1 := List.of_mem_filter hc
      have h2 := List.of_mem_filter hd
      simp only [decide_eq_true_eq] at h1 h2
      omega
    · intro c hc d hd
      obtain ⟨e, he, rfl⟩ := List.mem_map.1 hc
      have h1 := List.of_mem_filter he
      have h2 := List.of_mem_filter hd
      simp only [decide_eq_true_eq] at h1 h2
      simp only
      omega
  · intro c hc
    rcases List.mem_append.1 hc with hc | hc
    · obtain ⟨e, he, rfl⟩ := List.mem_map.1 hc
      exact hm.2 e (List.mem_of_mem_filter he)
    · exact hm.2 c (List.mem_of_mem_filter hc)

/-- The cells after StoreCompact are at no higher addresses than the old ones. -/
theorem Memory.mem_compact {m : Memory} {r w : Nat} {c : Host.Cell} (h : c ∈ m.compact r w) :
    ∃ d ∈ m, c.1 ≤ d.1 := by
  rcases List.mem_append.1 h with h | h
  · obtain ⟨e, he, rfl⟩ := List.mem_map.1 h
    exact ⟨e, List.mem_of_mem_filter he, by simp⟩
  · exact ⟨c, List.mem_of_mem_filter h, le_refl _⟩

/-- What a byte reads as after StoreCompact(r, w): the old byte r + x below w - r, as before from there on (R73). -/
theorem Memory.read_compact {m : Memory} (hm : m.wf) {r w : Nat} (x : Nat) :
    (m.compact r w).read x = if x < w - r then m.read (r + x) else m.read x := by
  rw [Memory.compact, Memory.read_append x ?nz, Memory.read_shift ?ge,
    Memory.read_filter hm (fun a => decide (r ≤ a ∧ a < w)),
    Memory.read_filter hm (fun a => decide (w - r ≤ a))]
  case nz =>
    intro c hc
    obtain ⟨e, he, rfl⟩ := List.mem_map.1 hc
    exact hm.2 e (List.mem_of_mem_filter he)
  case ge =>
    intro c hc
    have := List.of_mem_filter hc
    simp only [decide_eq_true_eq] at this
    exact this.1
  by_cases h : x < w - r
  · have h1 : r ≤ r + x ∧ r + x < w := by omega
    have h2 : ¬ w - r ≤ x := by omega
    simp only [h, h1, h2, decide_true, decide_false, if_true, Bool.false_eq_true, if_false,
      and_self]
    split
    · rename_i h0; exact h0.symm
    · rfl
  · have h1 : ¬ (r ≤ r + x ∧ r + x < w) := by omega
    have h2 : w - r ≤ x := by omega
    simp only [h, h1, h2, decide_true, decide_false, if_true, Bool.false_eq_true, if_false]

/-- What MemRead's word holds: bit i of the word is bit i mod 8 of byte a + i / 8 (R62, R64). -/
theorem Memory.readWord_getLsbD (m : Memory) (a : Nat) {i : Nat} (hi : i < 64) :
    (m.readWord a).getLsbD i = (m.read (a + i / 8)).getLsbD (i % 8) := by
  unfold Memory.readWord
  simp only [BitVec.getLsbD_append]
  obtain ⟨q, r, hr, rfl⟩ : ∃ q r, r < 8 ∧ i = 8 * q + r := ⟨i / 8, i % 8, by omega, by omega⟩
  have hq : q < 8 := by omega
  rw [show (8 * q + r) / 8 = q by omega, show (8 * q + r) % 8 = r by omega]
  interval_cases q
  all_goals repeat' split
  all_goals first
    | omega
    | (congr 1; omega)

end Sys2Proof.Machine
end

