-- ==== Sys2Proof/Laws/Bits.lean ====
section
/-!
SUPPORT. Bits as lists: the bits of a number, of a word's parts and of a stretch of the store.
-/

namespace Sys2Proof.Machine

/-! ## The bits of a number -/

@[simp] theorem natBits_length (v w : Nat) : (natBits v w).length = w := by simp [natBits]

@[simp] theorem natBits_zero (v : Nat) : natBits v 0 = [] := rfl

/-- Numbers that agree on their low w bits have the same w bits. -/
theorem natBits_congr {u v w : Nat} (h : ∀ i < w, u.testBit i = v.testBit i) :
    natBits u w = natBits v w := by
  refine List.map_congr_left fun i hi => h i (List.mem_range.1 hi)

/-- The low a + b bits are the low a bits and then the next b. -/
theorem natBits_add (v a b : Nat) : natBits v (a + b) = natBits v a ++ natBits (v / 2 ^ a) b := by
  simp only [natBits, List.range_add, List.map_append, List.map_map]
  congr 1
  refine List.map_congr_left fun i _ => ?_
  simp [Nat.testBit_div_two_pow, Nat.add_comm]

theorem natBits_succ (v w : Nat) : natBits v (w + 1) = decide (v % 2 = 1) :: natBits (v / 2) w := by
  have h := natBits_add v 1 w
  rw [Nat.add_comm] at h
  simpa [natBits, Nat.testBit_zero] using h

/-- The value of the bits of a number is the number modulo 2^w. -/
theorem bitsValue_natBits (v w : Nat) : bitsValue (natBits v w) = v % 2 ^ w := by
  induction w generalizing v with
  | zero => simp [bitsValue, Nat.mod_one]
  | succ w ih =>
    rw [natBits_succ, bitsValue, ih, Nat.pow_succ, Nat.mul_comm (2 ^ w), Nat.mod_mul]
    rcases Nat.mod_two_eq_zero_or_one v with h | h <;> simp [h]

theorem bitsValue_lt (bs : List Bool) : bitsValue bs < 2 ^ bs.length := by
  induction bs with
  | nil => simp [bitsValue]
  | cons b bs ih =>
    rw [bitsValue, List.length_cons, Nat.pow_succ]
    cases b <;> simp <;> omega

/-- A list of bits is the bits of its value. -/
theorem natBits_bitsValue (bs : List Bool) : natBits (bitsValue bs) bs.length = bs := by
  induction bs with
  | nil => rfl
  | cons b bs ih =>
    rw [List.length_cons, natBits_succ, bitsValue]
    cases b
    · simpa using ih
    · rw [show (true.toNat + 2 * bitsValue bs) / 2 = bitsValue bs by
        simp only [Bool.toNat_true]; omega, ih]
      simp only [Bool.toNat_true, List.cons.injEq, decide_eq_true_eq, and_true]
      omega

/-- The first bits of a number's bits. -/
theorem natBits_take (v : Nat) {a b : Nat} (h : a ≤ b) : (natBits v b).take a = natBits v a := by
  obtain ⟨c, rfl⟩ := Nat.exists_eq_add_of_le h
  simp [natBits_add]

/-- A number's bits after the first. -/
theorem natBits_drop (v : Nat) (a b : Nat) :
    (natBits v b).drop a = natBits (v / 2 ^ a) (b - a) := by
  rcases Nat.le_total a b with h | h
  · obtain ⟨c, rfl⟩ := Nat.exists_eq_add_of_le h
    simp [natBits_add]
  · rw [List.drop_of_length_le (by simpa using h), Nat.sub_eq_zero_of_le h, natBits_zero]

/-! ## Masks and shifts of words -/

/-- The mask table: bit i of entry n is 1 exactly for i < n (40_bit_engine.md R120). -/
theorem mask_getLsbD (n i : Nat) : (mask n).getLsbD i = (decide (i < 64) && decide (i < n)) := by
  simp [mask, BitVec.getLsbD_ofNat, Nat.testBit_two_pow_sub_one]

theorem mask_getElem (n i : Nat) (h : i < 64) : (mask n)[i] = decide (i < n) := by
  rw [← BitVec.getLsbD_eq_getElem, mask_getLsbD]; simp [h]

theorem mask_testBit {n i : Nat} (hn : n ≤ 64) : (mask n).toNat.testBit i = decide (i < n) := by
  have := mask_getLsbD n i
  rw [BitVec.getLsbD] at this
  rw [this]
  by_cases h : i < n
  · simp [h, show i < 64 by omega]
  · simp [h]

/-- A cache with zeros from `k` on has no bit set there. -/
theorem getLsbD_of_shiftRight_eq_zero {c : Word} {k i : Nat} (h : c >>> k = 0) (hi : k ≤ i) :
    c.getLsbD i = false := by
  have := congrArg (fun x : Word => x.getLsbD (i - k)) h
  simpa [BitVec.getLsbD_ushiftRight, show k + (i - k) = i by omega] using this

/-! ## The bits of the store -/

/-- A stretch of the store, cut in two. -/
theorem Memory.bits_append (m : Memory) {a b c : Nat} (hab : a ≤ b) (hbc : b ≤ c) :
    m.bits a b ++ m.bits b c = m.bits a c := by
  obtain ⟨k, rfl⟩ := Nat.exists_eq_add_of_le hab
  obtain ⟨l, rfl⟩ := Nat.exists_eq_add_of_le hbc
  simp only [Memory.bits, Nat.add_sub_cancel_left, ← List.flatMap_append]
  rw [show a + k + l - a = k + l by omega, ← List.range'_append_1]

@[simp] theorem Memory.bits_self (m : Memory) (a : Nat) : m.bits a a = [] := by simp [Memory.bits]

@[simp] theorem Memory.bits_length (m : Memory) (a b : Nat) : (m.bits a b).length = 8 * (b - a) := by
  simp [Memory.bits, List.length_flatMap, Nat.mul_comm]

/-- Stores that agree on a stretch have the same bits there. -/
theorem Memory.bits_congr {m n : Memory} {a b : Nat}
    (h : ∀ i, a ≤ i → i < b → m.read i = n.read i) : m.bits a b = n.bits a b := by
  simp only [Memory.bits]
  refine List.flatMap_congr fun i hi => ?_
  obtain ⟨h1, h2⟩ := List.mem_range'_1.1 hi
  rw [h i h1 (by omega)]

/-- Eight bytes that hold a word's bits in store order are the bits of the word (20_memory.md R64). -/
theorem Memory.bits_word {m : Memory} {a : Nat} {v : Word}
    (h : ∀ i < 64, (m.read (a + i / 8)).getLsbD (i % 8) = v.getLsbD i) :
    m.bits a (a + 8) = natBits v.toNat 64 := by
  have key : ∀ k ≤ 8, (List.range' a k).flatMap (fun i => natBits (m.read i).toNat 8) =
      natBits v.toNat (8 * k) := by
    intro k hk
    induction k with
    | zero => simp
    | succ k ih =>
      rw [List.range'_1_concat, List.flatMap_append, ih (by omega), Nat.mul_succ, natBits_add]
      congr 1
      simp only [List.flatMap_cons, List.flatMap_nil, List.append_nil]
      refine natBits_congr fun i hi => ?_
      have := h (8 * k + i) (by omega)
      rw [show (8 * k + i) / 8 = k by omega, show (8 * k + i) % 8 = i by omega] at this
      rw [Nat.testBit_div_two_pow, Nat.add_comm i]
      exact this
  simpa [Memory.bits] using key 8 (le_refl 8)

/-- MemRead's word is the bits of its eight bytes. -/
theorem Memory.bits_readWord (m : Memory) (a : Nat) :
    m.bits a (a + 8) = natBits (m.readWord a).toNat 64 :=
  Memory.bits_word fun _ hi => (Memory.readWord_getLsbD m a hi).symm

/-- MemWrite's eight bytes are the bits of its word. -/
theorem Memory.bits_writeWord {m : Memory} (hm : m.wf) (a : Nat) (v : Word) :
    (m.writeWord a v).bits a (a + 8) = natBits v.toNat 64 := by
  refine Memory.bits_word fun i hi => ?_
  rw [Memory.read_writeWord hm, if_pos (by omega), show a + i / 8 - a = i / 8 by omega]
  simp only [BitVec.getLsbD_extractLsb', show i % 8 < 8 by omega, decide_true, Bool.true_and]
  congr 1; omega

/-- MemWrite leaves the bits of the bytes below alone. -/
theorem Memory.bits_writeWord_below {m : Memory} (hm : m.wf) {a b : Nat} (v : Word) (c : Nat)
    (h : b ≤ a) : (m.writeWord a v).bits c b = m.bits c b :=
  Memory.bits_congr fun i _ h2 => by rw [Memory.read_writeWord hm, if_neg (by omega)]

end Sys2Proof.Machine
end

