-- ==== Sys2Proof/Laws/Encoding.lean ====
section
/-!
SUPPORT. The fields of the words the encoder writes, format by format (30_encoding.md R92 to R96).
-/

namespace Sys2Proof

/-! ## The two parts of a word: an opcode in the low byte and the fields above it -/

/-- Bit i of a word with an opcode below and fields from bit 8 on. -/
theorem getLsbD_word (op : BitVec 8) (y : BitVec 32) (i : Nat) :
    (op.setWidth 32 ||| y <<< 8).getLsbD i =
      if i < 8 then op.getLsbD i else (decide (i < 32) && y.getLsbD (i - 8)) := by
  by_cases h : i < 8
  · simp [h, show i < 32 by omega]
  · simp [h, BitVec.getLsbD_of_ge op i (by omega)]

theorem opcodeField_word (op : BitVec 8) (y : BitVec 32) :
    opcodeField (op.setWidth 32 ||| y <<< 8) = op := by
  apply BitVec.eq_of_getLsbD_eq
  intro i hi
  rw [opcodeField, BitVec.getLsbD_extractLsb', Nat.zero_add, getLsbD_word]
  simp [hi]

/-- A field of n bits from bit lo of a word is the field of the part above the opcode. -/
theorem field_word (op : BitVec 8) (y : BitVec 32) (lo n : Nat) (h : lo + n ≤ 24) :
    (op.setWidth 32 ||| y <<< 8).extractLsb' (8 + lo) n = y.extractLsb' lo n := by
  apply BitVec.eq_of_getLsbD_eq
  intro i hi
  rw [BitVec.getLsbD_extractLsb', BitVec.getLsbD_extractLsb', getLsbD_word,
    if_neg (by omega), show 8 + lo + i - 8 = lo + i by omega]
  simp [show 8 + lo + i < 32 by omega]

/-- The bits of a widened field from its width on are zero. -/
theorem extract_setWidth_above {k : Nat} (x : BitVec k) (lo n : Nat) (h : k ≤ lo) :
    (x.setWidth 32).extractLsb' lo n = 0 := by
  apply BitVec.eq_of_getLsbD_eq
  intro i hi
  simp [BitVec.getLsbD_of_ge x (lo + i) (by omega)]

theorem extract_setWidth {k : Nat} (x : BitVec k) (h : k ≤ 32) :
    (x.setWidth 32).extractLsb' 0 k = x := by
  apply BitVec.eq_of_getLsbD_eq
  intro i hi
  rw [BitVec.getLsbD_extractLsb', Nat.zero_add, BitVec.getLsbD_setWidth]
  simp [hi, show i < 32 by omega]

/-! ## Format B -/

theorem opcodeField_encodeFormatB (op : BitVec 8) (width : Nat) :
    opcodeField (encodeFormatB op width) = op := opcodeField_word op _

theorem reservedField_encodeFormatB (op : BitVec 8) (width : Nat) :
    reservedField 14 (encodeFormatB op width) = 0 :=
  (field_word op _ 6 18 (by omega)).trans (extract_setWidth_above _ 6 18 (le_refl 6))

theorem wm1Field_encodeFormatB (op : BitVec 8) (width : Nat) :
    wm1Field (encodeFormatB op width) = BitVec.ofNat 6 (width - 1) :=
  (field_word op _ 0 6 (by omega)).trans (extract_setWidth _ (by omega))

/-! ## Format F -/

theorem opcodeField_encodeFormatF (op : BitVec 8) (bo : ByteOrder) :
    opcodeField (encodeFormatF op bo) = op := opcodeField_word op _

theorem reservedField_encodeFormatF (op : BitVec 8) (bo : ByteOrder) :
    reservedField 9 (encodeFormatF op bo) = 0 :=
  (field_word op _ 1 23 (by omega)).trans (extract_setWidth_above _ 1 23 (le_refl 1))

theorem boField_encodeFormatF (op : BitVec 8) (bo : ByteOrder) :
    boField (encodeFormatF op bo) = bo.bit :=
  (field_word op _ 0 1 (by omega)).trans (extract_setWidth _ (by omega))

/-! ## Format V -/

/-- The two fields of format V as one part above the opcode. -/
theorem encodeFormatV_eq (op : BitVec 8) (sm : SignMode) (st : Strategy) :
    encodeFormatV op sm st =
      (op.setWidth 32 ||| (sm.bits.setWidth 32 ||| st.bit.setWidth 32 <<< 2) <<< 8) := by
  cases sm <;> cases st <;> simp only [encodeFormatV, SignMode.bits, Strategy.bit, BitVec.or_assoc] <;> rfl

theorem opcodeField_encodeFormatV (op : BitVec 8) (sm : SignMode) (st : Strategy) :
    opcodeField (encodeFormatV op sm st) = op := by
  rw [encodeFormatV_eq]; exact opcodeField_word op _

theorem reservedField_encodeFormatV (op : BitVec 8) (sm : SignMode) (st : Strategy) :
    reservedField 11 (encodeFormatV op sm st) = 0 := by
  rw [encodeFormatV_eq]
  refine (field_word op _ 3 21 (by omega)).trans ?_
  cases sm <;> cases st <;> decide

theorem smField_encodeFormatV (op : BitVec 8) (sm : SignMode) (st : Strategy) :
    smField (encodeFormatV op sm st) = sm.bits := by
  rw [encodeFormatV_eq]
  refine (field_word op _ 0 2 (by omega)).trans ?_
  cases sm <;> cases st <;> decide

theorem stField_encodeFormatV (op : BitVec 8) (sm : SignMode) (st : Strategy) :
    stField (encodeFormatV op sm st) = st.bit := by
  rw [encodeFormatV_eq]
  refine (field_word op _ 2 1 (by omega)).trans ?_
  cases sm <;> cases st <;> decide

/-! ## Format R -/

theorem opcodeField_encodeFormatR (op : BitVec 8) (idx : RegIndex) :
    opcodeField (encodeFormatR op idx) = op := opcodeField_word op _

theorem reservedField_encodeFormatR (op : BitVec 8) (idx : RegIndex) :
    reservedField 11 (encodeFormatR op idx) = 0 :=
  (field_word op _ 3 21 (by omega)).trans (extract_setWidth_above _ 3 21 (le_refl 3))

theorem idxField_encodeFormatR (op : BitVec 8) (idx : RegIndex) :
    idxField (encodeFormatR op idx) = idx.bits :=
  (field_word op _ 0 3 (by omega)).trans (extract_setWidth _ (by omega))

/-! ## Format N -/

theorem encodeFormatN_eq (op : BitVec 8) : encodeFormatN op = (op.setWidth 32 ||| 0#32 <<< 8) := by
  simp [encodeFormatN]

theorem opcodeField_encodeFormatN (op : BitVec 8) : opcodeField (encodeFormatN op) = op := by
  rw [encodeFormatN_eq]; exact opcodeField_word op _

theorem reservedField_encodeFormatN (op : BitVec 8) : reservedField 8 (encodeFormatN op) = 0 :=
  extract_setWidth_above op 8 24 (le_refl 8)

/-! ## The fields' codes -/

theorem ByteOrder.ofBit_bit (bo : ByteOrder) : ByteOrder.ofBit bo.bit = bo := by cases bo <;> decide

theorem SignMode.ofBits_bits (sm : SignMode) : SignMode.ofBits sm.bits = some sm := by
  cases sm <;> decide

theorem Strategy.ofBit_bit (st : Strategy) : Strategy.ofBit st.bit = st := by cases st <;> decide

theorem RegIndex.ofBits_bits (idx : RegIndex) : RegIndex.ofBits idx.bits = idx := by
  cases idx <;> decide

end Sys2Proof
end

