-- ==== Sys2Proof/Laws/State.lean ====
section
/-!
SUPPORT. What each named update of the state does to each field, one lemma each, so that no later proof unfolds
a record update; and the two forms of taking a fault.
-/

namespace Sys2Proof.Machine

/-! ## `State.fill` -/

@[simp] theorem State.fill_cache (s : State) (c : Word) (used : Nat) : (s.fill c used).cache = c := rfl
@[simp] theorem State.fill_free (s : State) (c : Word) (used : Nat) :
    (s.fill c used).free = ⟨64 - used, by omega⟩ := rfl
@[simp] theorem State.fill_mode (s : State) (c : Word) (used : Nat) : (s.fill c used).mode = s.mode := rfl
@[simp] theorem State.fill_cap (s : State) (c : Word) (used : Nat) : (s.fill c used).cap = s.cap := rfl
@[simp] theorem State.fill_wpos (s : State) (c : Word) (used : Nat) : (s.fill c used).wpos = s.wpos := rfl
@[simp] theorem State.fill_rpos (s : State) (c : Word) (used : Nat) : (s.fill c used).rpos = s.rpos := rfl
@[simp] theorem State.fill_fault (s : State) (c : Word) (used : Nat) : (s.fill c used).fault = s.fault := rfl
@[simp] theorem State.fill_fcmd (s : State) (c : Word) (used : Nat) : (s.fill c used).fcmd = s.fcmd := rfl
@[simp] theorem State.fill_result (s : State) (c : Word) (used : Nat) :
    (s.fill c used).result = s.result := rfl
@[simp] theorem State.fill_store (s : State) (c : Word) (used : Nat) : (s.fill c used).store = s.store := rfl
@[simp] theorem State.fill_cmd (s : State) (c : Word) (used : Nat) : (s.fill c used).cmd = s.cmd := rfl
@[simp] theorem State.fill_operand (s : State) (c : Word) (used : Nat) :
    (s.fill c used).operand = s.operand := rfl
@[simp] theorem State.fill_reply (s : State) (c : Word) (used : Nat) : (s.fill c used).reply = s.reply := rfl
@[simp] theorem State.fill_pending (s : State) (c : Word) (used : Nat) :
    (s.fill c used).pending = s.pending := rfl

/-! ## `State.spend` -/

@[simp] theorem State.spend_cache (s : State) (w : Nat) : (s.spend w).cache = s.cache := rfl
@[simp] theorem State.spend_free (s : State) (w : Nat) : (s.spend w).free = ⟨s.free.val - w, by omega⟩ := rfl
@[simp] theorem State.spend_mode (s : State) (w : Nat) : (s.spend w).mode = s.mode := rfl
@[simp] theorem State.spend_cap (s : State) (w : Nat) : (s.spend w).cap = s.cap := rfl
@[simp] theorem State.spend_wpos (s : State) (w : Nat) : (s.spend w).wpos = s.wpos := rfl
@[simp] theorem State.spend_rpos (s : State) (w : Nat) : (s.spend w).rpos = s.rpos := rfl
@[simp] theorem State.spend_fault (s : State) (w : Nat) : (s.spend w).fault = s.fault := rfl
@[simp] theorem State.spend_fcmd (s : State) (w : Nat) : (s.spend w).fcmd = s.fcmd := rfl
@[simp] theorem State.spend_result (s : State) (w : Nat) : (s.spend w).result = s.result := rfl
@[simp] theorem State.spend_store (s : State) (w : Nat) : (s.spend w).store = s.store := rfl
@[simp] theorem State.spend_cmd (s : State) (w : Nat) : (s.spend w).cmd = s.cmd := rfl
@[simp] theorem State.spend_operand (s : State) (w : Nat) : (s.spend w).operand = s.operand := rfl
@[simp] theorem State.spend_reply (s : State) (w : Nat) : (s.spend w).reply = s.reply := rfl
@[simp] theorem State.spend_pending (s : State) (w : Nat) : (s.spend w).pending = s.pending := rfl

/-! ## `State.flushed` -/

@[simp] theorem State.flushed_cache (s : State) (v : Word) : (s.flushed v).cache = s.cache := rfl
@[simp] theorem State.flushed_free (s : State) (v : Word) : (s.flushed v).free = s.free := rfl
@[simp] theorem State.flushed_mode (s : State) (v : Word) : (s.flushed v).mode = s.mode := rfl
@[simp] theorem State.flushed_cap (s : State) (v : Word) : (s.flushed v).cap = s.cap := rfl
@[simp] theorem State.flushed_wpos (s : State) (v : Word) : (s.flushed v).wpos = s.wpos + 8 := rfl
@[simp] theorem State.flushed_rpos (s : State) (v : Word) : (s.flushed v).rpos = s.rpos := rfl
@[simp] theorem State.flushed_fault (s : State) (v : Word) : (s.flushed v).fault = s.fault := rfl
@[simp] theorem State.flushed_fcmd (s : State) (v : Word) : (s.flushed v).fcmd = s.fcmd := rfl
@[simp] theorem State.flushed_result (s : State) (v : Word) : (s.flushed v).result = s.result := rfl
@[simp] theorem State.flushed_store (s : State) (v : Word) :
    (s.flushed v).store = s.store.writeWord s.wpos.toNat v := rfl
@[simp] theorem State.flushed_cmd (s : State) (v : Word) : (s.flushed v).cmd = s.cmd := rfl
@[simp] theorem State.flushed_operand (s : State) (v : Word) : (s.flushed v).operand = s.operand := rfl
@[simp] theorem State.flushed_reply (s : State) (v : Word) : (s.flushed v).reply = s.reply := rfl
@[simp] theorem State.flushed_pending (s : State) (v : Word) : (s.flushed v).pending = s.pending := rfl

/-! ## `State.refilled` -/

@[simp] theorem State.refilled_cache (s : State) (used : Nat) :
    (s.refilled used).cache = s.store.readWord s.rpos.toNat := rfl
@[simp] theorem State.refilled_free (s : State) (used : Nat) :
    (s.refilled used).free = ⟨64 - used, by omega⟩ := rfl
@[simp] theorem State.refilled_mode (s : State) (used : Nat) : (s.refilled used).mode = s.mode := rfl
@[simp] theorem State.refilled_cap (s : State) (used : Nat) : (s.refilled used).cap = s.cap := rfl
@[simp] theorem State.refilled_wpos (s : State) (used : Nat) : (s.refilled used).wpos = s.wpos := rfl
@[simp] theorem State.refilled_rpos (s : State) (used : Nat) : (s.refilled used).rpos = s.rpos + 8 := rfl
@[simp] theorem State.refilled_fault (s : State) (used : Nat) : (s.refilled used).fault = s.fault := rfl
@[simp] theorem State.refilled_fcmd (s : State) (used : Nat) : (s.refilled used).fcmd = s.fcmd := rfl
@[simp] theorem State.refilled_result (s : State) (used : Nat) : (s.refilled used).result = s.result := rfl
@[simp] theorem State.refilled_store (s : State) (used : Nat) : (s.refilled used).store = s.store := rfl
@[simp] theorem State.refilled_cmd (s : State) (used : Nat) : (s.refilled used).cmd = s.cmd := rfl
@[simp] theorem State.refilled_operand (s : State) (used : Nat) : (s.refilled used).operand = s.operand := rfl
@[simp] theorem State.refilled_reply (s : State) (used : Nat) : (s.refilled used).reply = s.reply := rfl
@[simp] theorem State.refilled_pending (s : State) (used : Nat) : (s.refilled used).pending = s.pending := rfl

/-! ## `State.withResult` -/

@[simp] theorem State.withResult_cache (s : State) (r : Word) : (s.withResult r).cache = s.cache := rfl
@[simp] theorem State.withResult_free (s : State) (r : Word) : (s.withResult r).free = s.free := rfl
@[simp] theorem State.withResult_mode (s : State) (r : Word) : (s.withResult r).mode = s.mode := rfl
@[simp] theorem State.withResult_cap (s : State) (r : Word) : (s.withResult r).cap = s.cap := rfl
@[simp] theorem State.withResult_wpos (s : State) (r : Word) : (s.withResult r).wpos = s.wpos := rfl
@[simp] theorem State.withResult_rpos (s : State) (r : Word) : (s.withResult r).rpos = s.rpos := rfl
@[simp] theorem State.withResult_fault (s : State) (r : Word) : (s.withResult r).fault = s.fault := rfl
@[simp] theorem State.withResult_fcmd (s : State) (r : Word) : (s.withResult r).fcmd = s.fcmd := rfl
@[simp] theorem State.withResult_result (s : State) (r : Word) : (s.withResult r).result = r := rfl
@[simp] theorem State.withResult_store (s : State) (r : Word) : (s.withResult r).store = s.store := rfl
@[simp] theorem State.withResult_cmd (s : State) (r : Word) : (s.withResult r).cmd = s.cmd := rfl
@[simp] theorem State.withResult_operand (s : State) (r : Word) : (s.withResult r).operand = s.operand := rfl
@[simp] theorem State.withResult_reply (s : State) (r : Word) : (s.withResult r).reply = s.reply := rfl
@[simp] theorem State.withResult_pending (s : State) (r : Word) : (s.withResult r).pending = s.pending := rfl

/-! ## `State.allocated` -/

@[simp] theorem State.allocated_cache (s : State) (n : Word) : (s.allocated n).cache = 0 := rfl
@[simp] theorem State.allocated_free (s : State) (n : Word) : (s.allocated n).free = 64 := rfl
@[simp] theorem State.allocated_mode (s : State) (n : Word) : (s.allocated n).mode = .write := rfl
@[simp] theorem State.allocated_cap (s : State) (n : Word) : (s.allocated n).cap = (n + 7) &&& ~~~7 := rfl
@[simp] theorem State.allocated_wpos (s : State) (n : Word) : (s.allocated n).wpos = 0 := rfl
@[simp] theorem State.allocated_rpos (s : State) (n : Word) : (s.allocated n).rpos = 0 := rfl
@[simp] theorem State.allocated_fault (s : State) (n : Word) : (s.allocated n).fault = .none := rfl
@[simp] theorem State.allocated_fcmd (s : State) (n : Word) : (s.allocated n).fcmd = 0 := rfl
@[simp] theorem State.allocated_result (s : State) (n : Word) : (s.allocated n).result = s.result := rfl
@[simp] theorem State.allocated_store (s : State) (n : Word) :
    (s.allocated n).store = s.store.clear ((n + 7) &&& ~~~7).toNat := rfl
@[simp] theorem State.allocated_cmd (s : State) (n : Word) : (s.allocated n).cmd = s.cmd := rfl
@[simp] theorem State.allocated_operand (s : State) (n : Word) : (s.allocated n).operand = s.operand := rfl
@[simp] theorem State.allocated_reply (s : State) (n : Word) : (s.allocated n).reply = s.reply := rfl
@[simp] theorem State.allocated_pending (s : State) (n : Word) : (s.allocated n).pending = s.pending := rfl

/-! ## `State.rewound` -/

@[simp] theorem State.rewound_cache (s : State) : s.rewound.cache = 0 := rfl
@[simp] theorem State.rewound_free (s : State) : s.rewound.free = 0 := rfl
@[simp] theorem State.rewound_mode (s : State) : s.rewound.mode = .read := rfl
@[simp] theorem State.rewound_cap (s : State) : s.rewound.cap = s.cap := rfl
@[simp] theorem State.rewound_wpos (s : State) : s.rewound.wpos = s.wpos := rfl
@[simp] theorem State.rewound_rpos (s : State) : s.rewound.rpos = 0 := rfl
@[simp] theorem State.rewound_fault (s : State) : s.rewound.fault = s.fault := rfl
@[simp] theorem State.rewound_fcmd (s : State) : s.rewound.fcmd = s.fcmd := rfl
@[simp] theorem State.rewound_result (s : State) : s.rewound.result = s.result := rfl
@[simp] theorem State.rewound_store (s : State) : s.rewound.store = s.store := rfl
@[simp] theorem State.rewound_cmd (s : State) : s.rewound.cmd = s.cmd := rfl
@[simp] theorem State.rewound_operand (s : State) : s.rewound.operand = s.operand := rfl
@[simp] theorem State.rewound_reply (s : State) : s.rewound.reply = s.reply := rfl
@[simp] theorem State.rewound_pending (s : State) : s.rewound.pending = s.pending := rfl

/-! ## `State.compacted` -/

@[simp] theorem State.compacted_cache (s : State) : s.compacted.cache = s.cache := rfl
@[simp] theorem State.compacted_free (s : State) : s.compacted.free = s.free := rfl
@[simp] theorem State.compacted_mode (s : State) : s.compacted.mode = s.mode := rfl
@[simp] theorem State.compacted_cap (s : State) : s.compacted.cap = s.cap := rfl
@[simp] theorem State.compacted_wpos (s : State) : s.compacted.wpos = s.wpos - s.rpos := rfl
@[simp] theorem State.compacted_rpos (s : State) : s.compacted.rpos = 0 := rfl
@[simp] theorem State.compacted_fault (s : State) : s.compacted.fault = s.fault := rfl
@[simp] theorem State.compacted_fcmd (s : State) : s.compacted.fcmd = s.fcmd := rfl
@[simp] theorem State.compacted_result (s : State) : s.compacted.result = s.result := rfl
@[simp] theorem State.compacted_store (s : State) :
    s.compacted.store = s.store.compact s.rpos.toNat s.wpos.toNat := rfl
@[simp] theorem State.compacted_cmd (s : State) : s.compacted.cmd = s.cmd := rfl
@[simp] theorem State.compacted_operand (s : State) : s.compacted.operand = s.operand := rfl
@[simp] theorem State.compacted_reply (s : State) : s.compacted.reply = s.reply := rfl
@[simp] theorem State.compacted_pending (s : State) : s.compacted.pending = s.pending := rfl

/-! ## `State.respond` -/

@[simp] theorem State.respond_cache (s : State) (ok : Bool) : (s.respond ok).cache = s.cache := rfl
@[simp] theorem State.respond_free (s : State) (ok : Bool) : (s.respond ok).free = s.free := rfl
@[simp] theorem State.respond_mode (s : State) (ok : Bool) : (s.respond ok).mode = s.mode := rfl
@[simp] theorem State.respond_cap (s : State) (ok : Bool) : (s.respond ok).cap = s.cap := rfl
@[simp] theorem State.respond_wpos (s : State) (ok : Bool) : (s.respond ok).wpos = s.wpos := rfl
@[simp] theorem State.respond_rpos (s : State) (ok : Bool) : (s.respond ok).rpos = s.rpos := rfl
@[simp] theorem State.respond_fault (s : State) (ok : Bool) : (s.respond ok).fault = s.fault := rfl
@[simp] theorem State.respond_fcmd (s : State) (ok : Bool) : (s.respond ok).fcmd = s.fcmd := rfl
@[simp] theorem State.respond_result (s : State) (ok : Bool) : (s.respond ok).result = s.result := rfl
@[simp] theorem State.respond_store (s : State) (ok : Bool) : (s.respond ok).store = s.store := rfl
@[simp] theorem State.respond_cmd (s : State) (ok : Bool) : (s.respond ok).cmd = s.cmd := rfl
@[simp] theorem State.respond_operand (s : State) (ok : Bool) : (s.respond ok).operand = s.operand := rfl
@[simp] theorem State.respond_reply (s : State) (ok : Bool) :
    (s.respond ok).reply = some (.response ok s.result) := rfl
@[simp] theorem State.respond_pending (s : State) (ok : Bool) : (s.respond ok).pending = s.pending := rfl

/-! ## `State.refuse` -/

@[simp] theorem State.refuse_cache (s : State) : s.refuse.cache = s.cache := rfl
@[simp] theorem State.refuse_free (s : State) : s.refuse.free = s.free := rfl
@[simp] theorem State.refuse_mode (s : State) : s.refuse.mode = s.mode := rfl
@[simp] theorem State.refuse_cap (s : State) : s.refuse.cap = s.cap := rfl
@[simp] theorem State.refuse_wpos (s : State) : s.refuse.wpos = s.wpos := rfl
@[simp] theorem State.refuse_rpos (s : State) : s.refuse.rpos = s.rpos := rfl
@[simp] theorem State.refuse_fault (s : State) : s.refuse.fault = s.fault := rfl
@[simp] theorem State.refuse_fcmd (s : State) : s.refuse.fcmd = s.fcmd := rfl
@[simp] theorem State.refuse_result (s : State) : s.refuse.result = s.result := rfl
@[simp] theorem State.refuse_store (s : State) : s.refuse.store = s.store := rfl
@[simp] theorem State.refuse_cmd (s : State) : s.refuse.cmd = s.cmd := rfl
@[simp] theorem State.refuse_operand (s : State) : s.refuse.operand = s.operand := rfl
@[simp] theorem State.refuse_reply (s : State) : s.refuse.reply = some (.response false s.result) := rfl
@[simp] theorem State.refuse_pending (s : State) : s.refuse.pending = s.pending := rfl

/-! ## `State.present` -/

@[simp] theorem State.present_cache (s : State) (c : CommandWord) (o : Word) (rest : List HostEvent) :
    (s.present c o rest).cache = s.cache := rfl
@[simp] theorem State.present_free (s : State) (c : CommandWord) (o : Word) (rest : List HostEvent) :
    (s.present c o rest).free = s.free := rfl
@[simp] theorem State.present_mode (s : State) (c : CommandWord) (o : Word) (rest : List HostEvent) :
    (s.present c o rest).mode = s.mode := rfl
@[simp] theorem State.present_cap (s : State) (c : CommandWord) (o : Word) (rest : List HostEvent) :
    (s.present c o rest).cap = s.cap := rfl
@[simp] theorem State.present_wpos (s : State) (c : CommandWord) (o : Word) (rest : List HostEvent) :
    (s.present c o rest).wpos = s.wpos := rfl
@[simp] theorem State.present_rpos (s : State) (c : CommandWord) (o : Word) (rest : List HostEvent) :
    (s.present c o rest).rpos = s.rpos := rfl
@[simp] theorem State.present_fault (s : State) (c : CommandWord) (o : Word) (rest : List HostEvent) :
    (s.present c o rest).fault = s.fault := rfl
@[simp] theorem State.present_fcmd (s : State) (c : CommandWord) (o : Word) (rest : List HostEvent) :
    (s.present c o rest).fcmd = s.fcmd := rfl
@[simp] theorem State.present_result (s : State) (c : CommandWord) (o : Word) (rest : List HostEvent) :
    (s.present c o rest).result = s.result := rfl
@[simp] theorem State.present_store (s : State) (c : CommandWord) (o : Word) (rest : List HostEvent) :
    (s.present c o rest).store = s.store := rfl
@[simp] theorem State.present_cmd (s : State) (c : CommandWord) (o : Word) (rest : List HostEvent) :
    (s.present c o rest).cmd = c := rfl
@[simp] theorem State.present_operand (s : State) (c : CommandWord) (o : Word) (rest : List HostEvent) :
    (s.present c o rest).operand = o := rfl
@[simp] theorem State.present_reply (s : State) (c : CommandWord) (o : Word) (rest : List HostEvent) :
    (s.present c o rest).reply = s.reply := rfl
@[simp] theorem State.present_pending (s : State) (c : CommandWord) (o : Word) (rest : List HostEvent) :
    (s.present c o rest).pending = rest := rfl

/-! ## `State.taken` -/

@[simp] theorem State.taken_cache (s : State) (rest : List HostEvent) : (s.taken rest).cache = s.cache := rfl
@[simp] theorem State.taken_free (s : State) (rest : List HostEvent) : (s.taken rest).free = s.free := rfl
@[simp] theorem State.taken_mode (s : State) (rest : List HostEvent) : (s.taken rest).mode = s.mode := rfl
@[simp] theorem State.taken_cap (s : State) (rest : List HostEvent) : (s.taken rest).cap = s.cap := rfl
@[simp] theorem State.taken_wpos (s : State) (rest : List HostEvent) : (s.taken rest).wpos = s.wpos := rfl
@[simp] theorem State.taken_rpos (s : State) (rest : List HostEvent) : (s.taken rest).rpos = s.rpos := rfl
@[simp] theorem State.taken_fault (s : State) (rest : List HostEvent) : (s.taken rest).fault = s.fault := rfl
@[simp] theorem State.taken_fcmd (s : State) (rest : List HostEvent) : (s.taken rest).fcmd = s.fcmd := rfl
@[simp] theorem State.taken_result (s : State) (rest : List HostEvent) :
    (s.taken rest).result = s.result := rfl
@[simp] theorem State.taken_store (s : State) (rest : List HostEvent) : (s.taken rest).store = s.store := rfl
@[simp] theorem State.taken_cmd (s : State) (rest : List HostEvent) : (s.taken rest).cmd = s.cmd := rfl
@[simp] theorem State.taken_operand (s : State) (rest : List HostEvent) :
    (s.taken rest).operand = s.operand := rfl
@[simp] theorem State.taken_reply (s : State) (rest : List HostEvent) : (s.taken rest).reply = s.reply := rfl
@[simp] theorem State.taken_pending (s : State) (rest : List HostEvent) : (s.taken rest).pending = rest := rfl

/-! ## Taking a fault -/

/-- A fault on a state without one records the code and the command word (60_exceptions.md R281). -/
theorem State.raise_of_none {s : State} (h : s.fault = .none) (code : FaultCode) :
    s.raise code = { s with fault := code, fcmd := s.cmd, reply := some (.response false s.result) } := by
  simp [State.raise, h, State.respond]

/-- A fault on a state with one keeps the first fault (R281). -/
theorem State.raise_of_fault {s : State} (h : s.fault ≠ .none) (code : FaultCode) :
    s.raise code = { s with reply := some (.response false s.result) } := by
  simp [State.raise, h, State.respond]

@[simp] theorem State.raise_cache (s : State) (code : FaultCode) : (s.raise code).cache = s.cache := by
  unfold State.raise; split <;> rfl
@[simp] theorem State.raise_free (s : State) (code : FaultCode) : (s.raise code).free = s.free := by
  unfold State.raise; split <;> rfl
@[simp] theorem State.raise_mode (s : State) (code : FaultCode) : (s.raise code).mode = s.mode := by
  unfold State.raise; split <;> rfl
@[simp] theorem State.raise_cap (s : State) (code : FaultCode) : (s.raise code).cap = s.cap := by
  unfold State.raise; split <;> rfl
@[simp] theorem State.raise_wpos (s : State) (code : FaultCode) : (s.raise code).wpos = s.wpos := by
  unfold State.raise; split <;> rfl
@[simp] theorem State.raise_rpos (s : State) (code : FaultCode) : (s.raise code).rpos = s.rpos := by
  unfold State.raise; split <;> rfl
@[simp] theorem State.raise_result (s : State) (code : FaultCode) : (s.raise code).result = s.result := by
  unfold State.raise; split <;> rfl
@[simp] theorem State.raise_store (s : State) (code : FaultCode) : (s.raise code).store = s.store := by
  unfold State.raise; split <;> rfl
@[simp] theorem State.raise_cmd (s : State) (code : FaultCode) : (s.raise code).cmd = s.cmd := by
  unfold State.raise; split <;> rfl
@[simp] theorem State.raise_operand (s : State) (code : FaultCode) : (s.raise code).operand = s.operand := by
  unfold State.raise; split <;> rfl
@[simp] theorem State.raise_pending (s : State) (code : FaultCode) : (s.raise code).pending = s.pending := by
  unfold State.raise; split <;> rfl
@[simp] theorem State.raise_reply (s : State) (code : FaultCode) :
    (s.raise code).reply = some (.response false s.result) := by
  unfold State.raise; split <;> rfl

end Sys2Proof.Machine
end

