-- ==== Sys2Proof/Laws/Engine.lean ====
section
/-!
SUPPORT. What the engine primitives can do, said once: when PutBits and GetBits complete, when they fault, and what
they leave, as equations and on the logical bit stream.
-/

namespace Sys2Proof.Machine

/-! ## PutBits -/

/-- PutBits of bits that fit (40_bit_engine.md R123, R124). -/
theorem putBits_fits {s : State} {v : Word} {w : Nat} (h : w ≤ s.free.val) :
    putBits s v w = .ok
      ({ s with cache := s.cache ||| ((v &&& mask w) <<< s.offset) }.spend w) := by
  simp [putBits, h]

/-- PutBits of bits that do not fit, with room for the flush (R124). -/
theorem putBits_splits {s : State} {v : Word} {w : Nat} (h : s.free.val < w)
    (hc : s.wpos.toNat + 8 ≤ s.cap.toNat) :
    putBits s v w = .ok
      ((s.flushed (s.cache ||| (((v &&& mask w) &&& mask s.free.val) <<< s.offset))).fill
        ((v &&& mask w) >>> s.free.val) (w - s.free.val)) := by
  simp [putBits, Nat.not_le.2 h, flushWord, Nat.not_lt.2 hc]

/-- PutBits of bits that do not fit, without room for the flush (R124, R287). -/
theorem putBits_overflows {s : State} {v : Word} {w : Nat} (h : s.free.val < w)
    (hc : s.cap.toNat < s.wpos.toNat + 8) : putBits s v w = .error .overflow := by
  simp [putBits, Nat.not_le.2 h, flushWord, hc]

/-- Everything PutBits can do. -/
theorem putBits_cases (s : State) (v : Word) (w : Nat) :
    (w ≤ s.free.val ∧ putBits s v w = .ok
      ({ s with cache := s.cache ||| ((v &&& mask w) <<< s.offset) }.spend w)) ∨
    (s.free.val < w ∧ s.wpos.toNat + 8 ≤ s.cap.toNat ∧ putBits s v w = .ok
      ((s.flushed (s.cache ||| (((v &&& mask w) &&& mask s.free.val) <<< s.offset))).fill
        ((v &&& mask w) >>> s.free.val) (w - s.free.val))) ∨
    (s.free.val < w ∧ s.cap.toNat < s.wpos.toNat + 8 ∧ putBits s v w = .error .overflow) := by
  rcases Nat.lt_or_ge s.free.val w with h | h
  · rcases Nat.lt_or_ge s.cap.toNat (s.wpos.toNat + 8) with hc | hc
    · exact .inr (.inr ⟨h, hc, putBits_overflows h hc⟩)
    · exact .inr (.inl ⟨h, hc, putBits_splits h hc⟩)
  · exact .inl ⟨h, putBits_fits h⟩

/-! ## GetBits -/

/-- GetBits of bits that are in CACHE (R123, R125). -/
theorem getBits_fits {s : State} {w : Nat} (h : w ≤ s.free.val) :
    getBits s w = .ok ((s.cache >>> s.offset) &&& mask w, s.spend w) := by
  simp [getBits, h]

/-- GetBits that refills (R125). -/
theorem getBits_refills {s : State} {w : Nat} (h : s.free.val < w)
    (hc : s.rpos.toNat + 8 ≤ s.wpos.toNat) :
    getBits s w = .ok
      (((s.cache >>> s.offset) &&& mask s.free.val) |||
        ((s.store.readWord s.rpos.toNat &&& mask (w - s.free.val)) <<< s.free.val),
        s.refilled (w - s.free.val)) := by
  simp [getBits, Nat.not_le.2 h, refillWord, Nat.not_lt.2 hc]

/-- GetBits past the written data (R125, R288). -/
theorem getBits_underflows {s : State} {w : Nat} (h : s.free.val < w)
    (hc : s.wpos.toNat < s.rpos.toNat + 8) : getBits s w = .error .underflow := by
  simp [getBits, Nat.not_le.2 h, refillWord, hc]

/-- Everything GetBits can do. -/
theorem getBits_cases (s : State) (w : Nat) :
    (w ≤ s.free.val ∧
      getBits s w = .ok ((s.cache >>> s.offset) &&& mask w, s.spend w)) ∨
    (s.free.val < w ∧ s.rpos.toNat + 8 ≤ s.wpos.toNat ∧ getBits s w = .ok
      (((s.cache >>> s.offset) &&& mask s.free.val) |||
        ((s.store.readWord s.rpos.toNat &&& mask (w - s.free.val)) <<< s.free.val),
        s.refilled (w - s.free.val))) ∨
    (s.free.val < w ∧ s.wpos.toNat < s.rpos.toNat + 8 ∧ getBits s w = .error .underflow) := by
  rcases Nat.lt_or_ge s.free.val w with h | h
  · rcases Nat.lt_or_ge s.wpos.toNat (s.rpos.toNat + 8) with hc | hc
    · exact .inr (.inr ⟨h, hc, getBits_underflows h hc⟩)
    · exact .inr (.inl ⟨h, hc, getBits_refills h hc⟩)
  · exact .inl ⟨h, getBits_fits h⟩

/-! ## How many words a run of bits takes -/

theorem State.wordsFor_fits {s : State} {n : Nat} (h : n ≤ s.free.val) : s.wordsFor n = 0 := by
  unfold State.wordsFor; omega

theorem State.wordsFor_splits {s : State} {n : Nat} (h : s.free.val < n) (hn : n ≤ 64) :
    s.wordsFor n = 1 := by
  unfold State.wordsFor; omega

/-! ## PutBits on the stream -/

theorem add_eight_toNat {p c : Word} (h : p.toNat + 8 ≤ c.toNat) : (p + 8).toNat = p.toNat + 8 := by
  have := c.isLt
  rw [BitVec.toNat_add]
  exact Nat.mod_eq_of_lt (by simp; omega)

/-- A completed PutBits appends its bits to the stream (R17, R124). -/
theorem putBits_appends {s : State} (hm : s.store.wf) (hp : s.cache >>> (64 - s.free.val) = 0)
    (v : Word) {w : Nat} (hw : w ≤ 64) (hr : s.hasRoom w) :
    ∃ t, putBits s v w = .ok t ∧ t.store.wf ∧ s.HasAppended t (natBits v.toNat w) ∧
      t.reply = s.reply := by
  have hf := s.free.isLt
  rcases Nat.lt_or_ge s.free.val w with h | h
  · have h1 := State.wordsFor_splits h hw
    have hc : s.wpos.toNat + 8 ≤ s.cap.toNat := by simpa [State.hasRoom, h1] using hr
    refine ⟨_, putBits_splits h hc, Memory.wf_writeWord hm _ _, ?_, rfl⟩
    refine
      { stream := ?_, free := ?_, wpos := ?_, padding := ?_, bytes := ?_, mode := rfl, cap := rfl,
        rpos := rfl, fault := rfl, fcmd := rfl, result := rfl, ports := ⟨rfl, rfl, rfl⟩ }
    · simp only [State.appended, State.fill_store, State.fill_wpos, State.fill_cache,
        State.fill_free, State.flushed_store, State.flushed_wpos, add_eight_toNat hc]
      rw [← Memory.bits_append _ (Nat.zero_le s.wpos.toNat) (Nat.le_add_right _ 8),
        Memory.bits_writeWord_below hm _ _ (le_refl _), Memory.bits_writeWord hm,
        show 64 - (64 - (w - s.free.val)) = w - s.free.val by omega]
      conv_lhs => rw [show natBits _ 64 = natBits _ ((64 - s.free.val) + s.free.val) by
        congr 1; omega]
      conv_rhs => rw [show w = s.free.val + (w - s.free.val) by omega, natBits_add]
      rw [natBits_add]
      simp only [List.append_assoc, List.append_cancel_left_eq]
      congr 1
      · refine natBits_congr fun i hi => ?_
        have : ((s.cache ||| ((v &&& mask w) &&& mask s.free.val) <<< s.offset)).getLsbD i =
            s.cache.getLsbD i := by
          simp [State.offset, show i < 64 - s.free.val by omega]
        exact this
      · congr 1
        · refine natBits_congr fun i hi => ?_
          rw [Nat.testBit_div_two_pow]
          have : ((s.cache ||| ((v &&& mask w) &&& mask s.free.val) <<< s.offset)).getLsbD
              (i + (64 - s.free.val)) = v.getLsbD i := by
            rw [BitVec.getLsbD_or, getLsbD_of_shiftRight_eq_zero hp (by omega)]
            simp [State.offset, mask_getElem, hi, show i < w by omega, show i < 64 by omega,
              show i + (64 - s.free.val) < 64 by omega]
          exact this
        · refine natBits_congr fun i hi => ?_
          rw [Nat.testBit_div_two_pow]
          have : ((v &&& mask w) >>> s.free.val).getLsbD i = v.getLsbD (i + s.free.val) := by
            rw [BitVec.getLsbD_ushiftRight, BitVec.getLsbD_and, mask_getLsbD]
            rw [Nat.add_comm]
            simp [show i + s.free.val < w by omega, show i + s.free.val < 64 by omega]
          exact this
    · simp [h1]; omega
    · rw [natBits_length, h1]; exact add_eight_toNat hc
    · simp only [State.fill_cache, State.fill_free]
      apply BitVec.eq_of_getLsbD_eq
      intro i hi
      simp [mask_getLsbD, show ¬ s.free.val + (64 - (64 - (w - s.free.val)) + i) < w by omega]
    · intro a ha
      rw [natBits_length, h1] at ha
      exact (Memory.read_writeWord hm _ _ _).trans (if_neg (by omega))
  · have h0 := State.wordsFor_fits h
    refine ⟨_, putBits_fits h, hm, ?_, rfl⟩
    refine
      { stream := ?_, free := ?_, wpos := ?_, padding := ?_, bytes := fun _ _ => rfl, mode := rfl,
        cap := rfl, rpos := rfl, fault := rfl, fcmd := rfl, result := rfl,
        ports := ⟨rfl, rfl, rfl⟩ }
    · simp only [State.appended, State.spend_store, State.spend_wpos, State.spend_cache,
        State.spend_free, List.append_assoc, List.append_cancel_left_eq]
      rw [show 64 - (s.free.val - w) = (64 - s.free.val) + w by omega, natBits_add]
      congr 1
      · refine natBits_congr fun i hi => ?_
        have : (s.cache ||| (v &&& mask w) <<< s.offset).getLsbD i = s.cache.getLsbD i := by
          simp [State.offset, show i < 64 - s.free.val by omega]
        exact this
      · refine natBits_congr fun i hi => ?_
        rw [Nat.testBit_div_two_pow]
        have : (s.cache ||| (v &&& mask w) <<< s.offset).getLsbD (i + (64 - s.free.val)) =
            v.getLsbD i := by
          rw [BitVec.getLsbD_or, getLsbD_of_shiftRight_eq_zero hp (by omega)]
          simp [State.offset, mask_getLsbD, hi, show i < 64 by omega,
            show i + (64 - s.free.val) < 64 by omega]
        exact this
    · simp [h0]; omega
    · simp [h0]
    · simp only [State.spend_cache, State.spend_free]
      apply BitVec.eq_of_getLsbD_eq
      intro i hi
      rw [BitVec.getLsbD_ushiftRight, BitVec.getLsbD_or,
        getLsbD_of_shiftRight_eq_zero hp (by omega)]
      simp [State.offset, mask_getLsbD,
        show ¬ 64 - (s.free.val - w) + i - (64 - s.free.val) < w by omega]

/-- A PutBits whose flush would pass CAP faults OVERFLOW (R124, R287). -/
theorem putBits_noRoom {s : State} (hle : s.wpos.toNat ≤ s.cap.toNat) (v : Word) {w : Nat}
    (hw : w ≤ 64) (hr : ¬ s.hasRoom w) : putBits s v w = .error .overflow := by
  rcases Nat.lt_or_ge s.free.val w with h | h
  · rw [State.hasRoom, State.wordsFor_splits h hw] at hr
    exact putBits_overflows h (by omega)
  · rw [State.hasRoom, State.wordsFor_fits h] at hr
    omega

/-! ## GetBits on the stream -/

/-- A completed GetBits takes its bits from the front of the unread stream (R17, R125). -/
theorem getBits_consumes {s : State} {w : Nat} (hw : w ≤ 64) (hd : s.hasData w) :
    ∃ r t, getBits s w = .ok (r, t) ∧ natBits r.toNat w = s.unread.take w ∧ r.toNat < 2 ^ w ∧
      s.HasConsumed t w ∧ t.result = s.result ∧ t.reply = s.reply := by
  have hf := s.free.isLt
  rcases Nat.lt_or_ge s.free.val w with h | h
  · have h1 := State.wordsFor_splits h hw
    have hc : s.rpos.toNat + 8 ≤ s.wpos.toNat := by simpa [State.hasData, h1] using hd
    have hu : s.unread = natBits (s.cache.toNat / 2 ^ (64 - s.free.val)) s.free.val ++
        (natBits (s.store.readWord s.rpos.toNat).toNat 64 ++
          s.store.bits (s.rpos.toNat + 8) s.wpos.toNat) := by
      rw [State.unread, ← Memory.bits_append _ (Nat.le_add_right s.rpos.toNat 8) hc,
        Memory.bits_readWord]
    refine ⟨_, _, getBits_refills h hc, ?_, ?_, ?_, rfl, rfl⟩
    · rw [hu, List.take_append, List.take_of_length_le (by simp; omega), natBits_length,
        List.take_append_of_le_length (by simp; omega), natBits_take _ (by omega)]
      conv_lhs => rw [show w = s.free.val + (w - s.free.val) by omega, natBits_add]
      congr 1
      · refine natBits_congr fun i hi => ?_
        rw [Nat.testBit_div_two_pow]
        have : ((s.cache >>> s.offset) &&& mask s.free.val |||
            (s.store.readWord s.rpos.toNat &&& mask (s.free.val + (w - s.free.val) - s.free.val))
              <<< s.free.val).getLsbD i = s.cache.getLsbD (i + (64 - s.free.val)) := by
          simp [State.offset, mask_getLsbD, hi, show i < 64 by omega, Nat.add_comm i]
        exact this
      · refine natBits_congr fun i hi => ?_
        rw [Nat.testBit_div_two_pow]
        have : ((s.cache >>> s.offset) &&& mask s.free.val |||
            (s.store.readWord s.rpos.toNat &&& mask (s.free.val + (w - s.free.val) - s.free.val))
              <<< s.free.val).getLsbD (i + s.free.val) =
            (s.store.readWord s.rpos.toNat).getLsbD i := by
          simp [mask_getElem, hi, show i < 64 by omega, show i + s.free.val < 64 by omega]
        exact this
    · refine Nat.lt_pow_two_of_testBit _ fun i hi => ?_
      have : ((s.cache >>> s.offset) &&& mask s.free.val |||
          (s.store.readWord s.rpos.toNat &&& mask (w - s.free.val)) <<< s.free.val).getLsbD i =
            false := by
        simp [mask_getLsbD, show ¬ i < s.free.val by omega,
          show ¬ i - s.free.val < w - s.free.val by omega]
      exact this
    · refine
        { stream := ?_, free := ?_, rpos := ?_, cache := ?_, refill := fun _ => ?_, store := rfl, mode := rfl,
          cap := rfl, wpos := rfl, fault := rfl, fcmd := rfl, ports := ⟨rfl, rfl, rfl⟩ }
      · rw [hu, List.drop_append, List.drop_of_length_le (by simp; omega), List.nil_append,
          natBits_length, List.drop_append_of_le_length (by simp; omega), natBits_drop]
        simp only [State.unread, State.refilled_cache, State.refilled_free, State.refilled_store,
          State.refilled_rpos, State.refilled_wpos, add_eight_toNat hc]
        rw [show 64 - (64 - (w - s.free.val)) = w - s.free.val by omega]
      · simp [h1]; omega
      · rw [h1]; exact add_eight_toNat hc
      · simp [h1]
      · rw [State.refilled_cache, State.refilled_rpos, add_eight_toNat hc, Nat.add_sub_cancel]
  · have h0 := State.wordsFor_fits h
    refine ⟨_, _, getBits_fits h, ?_, ?_, ?_, rfl, rfl⟩
    · rw [State.unread, List.take_append_of_le_length (by simpa using h), natBits_take _ h]
      refine natBits_congr fun i hi => ?_
      rw [Nat.testBit_div_two_pow]
      have : ((s.cache >>> s.offset) &&& mask w).getLsbD i =
          s.cache.getLsbD (i + (64 - s.free.val)) := by
        simp [State.offset, mask_getLsbD, hi, show i < 64 by omega, Nat.add_comm i]
      exact this
    · refine Nat.lt_pow_two_of_testBit _ fun i hi => ?_
      have : ((s.cache >>> s.offset) &&& mask w).getLsbD i = false := by
        simp [mask_getLsbD, show ¬ i < w by omega]
      exact this
    · refine
        { stream := ?_, free := ?_, rpos := ?_, cache := fun _ => rfl,
          refill := fun h1 => absurd h0 h1, store := rfl, mode := rfl, cap := rfl, wpos := rfl
          fault := rfl, fcmd := rfl, ports := ⟨rfl, rfl, rfl⟩ }
      · simp only [State.unread, State.spend_cache, State.spend_free, State.spend_store,
          State.spend_rpos, State.spend_wpos]
        rw [List.drop_append_of_le_length (by simpa using h), natBits_drop]
        congr 2
        rw [Nat.div_div_eq_div_mul, ← Nat.pow_add]
        congr 2; omega
      · simp [h0]; omega
      · simp [h0]

/-- A GetBits whose refill would pass WPOS faults UNDERFLOW (R125, R288). -/
theorem getBits_noData {s : State} (hle : s.rpos.toNat ≤ s.wpos.toNat) {w : Nat}
    (hw : w ≤ 64) (hd : ¬ s.hasData w) : getBits s w = .error .underflow := by
  rcases Nat.lt_or_ge s.free.val w with h | h
  · rw [State.hasData, State.wordsFor_splits h hw] at hd
    exact getBits_underflows h (by omega)
  · rw [State.hasData, State.wordsFor_fits h] at hd
    omega

/-! ## Runs of puts and gets -/

/-- The words for a run of bits are those for its first part and then those for the rest. -/
theorem State.wordsFor_add {s t : State} {a : Nat} (h : t.free.val + a = s.free.val + 64 * s.wordsFor a)
    (b : Nat) : s.wordsFor (a + b) = s.wordsFor a + t.wordsFor b := by
  have := s.free.isLt
  have := t.free.isLt
  unfold State.wordsFor at *
  omega

/-- Appending one run of bits and then another appends both. -/
theorem State.HasAppended.trans {s t u : State} {bs cs : List Bool} (h1 : s.HasAppended t bs)
    (h2 : t.HasAppended u cs) : s.HasAppended u (bs ++ cs) := by
  have hw := State.wordsFor_add h1.free cs.length
  have hf := h1.free
  have hf' := h2.free
  have hp := h1.wpos
  have hp' := h2.wpos
  refine
    { stream := by rw [h2.stream, h1.stream, List.append_assoc]
      free := by rw [List.length_append, hw]; omega
      wpos := by rw [List.length_append, hw]; omega
      padding := h2.padding
      bytes := fun a ha => ?_
      mode := h2.mode.trans h1.mode
      cap := h2.cap.trans h1.cap
      rpos := h2.rpos.trans h1.rpos
      fault := h2.fault.trans h1.fault
      fcmd := h2.fcmd.trans h1.fcmd
      result := h2.result.trans h1.result
      ports := ⟨h2.ports.1.trans h1.ports.1, h2.ports.2.1.trans h1.ports.2.1,
        h2.ports.2.2.trans h1.ports.2.2⟩ }
  rw [List.length_append, hw] at ha
  rw [h2.bytes a (by omega), h1.bytes a (by omega)]

/-- Consuming one run of bits and then another consumes both. -/
theorem State.HasConsumed.trans {s t u : State} {a b : Nat} (h1 : s.HasConsumed t a)
    (h2 : t.HasConsumed u b) : s.HasConsumed u (a + b) := by
  have hw := State.wordsFor_add h1.free b
  have hf := h1.free
  have hf' := h2.free
  have hp := h1.rpos
  have hp' := h2.rpos
  refine
    { stream := by rw [h2.stream, h1.stream, List.drop_drop]
      free := by rw [hw]; omega
      rpos := by rw [hw]; omega
      cache := fun h => by rw [h2.cache (by omega), h1.cache (by omega)]
      refill := fun h => ?_
      store := h2.store.trans h1.store
      mode := h2.mode.trans h1.mode
      cap := h2.cap.trans h1.cap
      wpos := h2.wpos.trans h1.wpos
      fault := h2.fault.trans h1.fault
      fcmd := h2.fcmd.trans h1.fcmd
      ports := ⟨h2.ports.1.trans h1.ports.1, h2.ports.2.1.trans h1.ports.2.1,
        h2.ports.2.2.trans h1.ports.2.2⟩ }
  by_cases hb : t.wordsFor b = 0
  · rw [h2.cache hb, h1.refill (by omega)]
    congr 1; omega
  · rw [h2.refill hb, h1.store]

/-- Consuming nothing leaves the state. -/
theorem State.HasConsumed.refl (s : State) : s.HasConsumed s 0 := by
  have h0 : s.wordsFor 0 = 0 := State.wordsFor_fits (Nat.zero_le _)
  exact
    { stream := rfl, free := by simp [h0], rpos := by simp [h0], cache := fun _ => rfl
      refill := fun h => absurd h0 h, store := rfl
      mode := rfl, cap := rfl, wpos := rfl, fault := rfl, fcmd := rfl, ports := ⟨rfl, rfl, rfl⟩ }

/-- Appending nothing leaves the state. -/
theorem State.HasAppended.refl {s : State} (hp : s.cache >>> (64 - s.free.val) = 0) :
    s.HasAppended s [] := by
  have h0 : s.wordsFor 0 = 0 := State.wordsFor_fits (Nat.zero_le _)
  exact
    { stream := by simp, free := by simp [h0], wpos := by simp [h0], padding := hp
      bytes := fun _ _ => rfl, mode := rfl, cap := rfl, rpos := rfl, fault := rfl, fcmd := rfl
      result := rfl, ports := ⟨rfl, rfl, rfl⟩ }

/-- The bits of a list of fields, in stream order (42_adaptive_codec.md R212). -/
def fieldBits (fields : List (Word × Nat)) : List Bool :=
  fields.flatMap fun f => natBits f.1.toNat f.2

/-- A run of fields with room for all of them is appended whole (R212, R213). -/
theorem putFields_appends {s : State} (hm : s.store.wf)
    (hp : s.cache >>> (64 - s.free.val) = 0) {fields : List (Word × Nat)}
    (hw : ∀ f ∈ fields, f.2 ≤ 64) (hr : s.hasRoom (fieldBits fields).length) :
    ∃ t, putFields s fields = .ok t ∧ s.HasAppended t (fieldBits fields) ∧ t.reply = s.reply := by
  induction fields generalizing s with
  | nil => exact ⟨s, rfl, .refl hp, rfl⟩
  | cons f fields ih =>
    obtain ⟨v, w⟩ := f
    have hlen : (fieldBits ((v, w) :: fields)).length = w + (fieldBits fields).length := by
      simp [fieldBits]
    have hw' : w ≤ 64 := hw (v, w) (by simp)
    have hr1 : s.hasRoom w := by
      rw [hlen] at hr
      unfold State.hasRoom State.wordsFor at *
      omega
    obtain ⟨t, h1, htm, h2, h3⟩ := putBits_appends hm hp v hw' hr1
    have hr2 : t.hasRoom (fieldBits fields).length := by
      have hf := h2.free
      rw [natBits_length] at hf
      have hwp := h2.wpos
      rw [natBits_length] at hwp
      have := State.wordsFor_add hf (fieldBits fields).length
      rw [hlen] at hr
      unfold State.hasRoom at *
      rw [h2.cap]
      omega
    obtain ⟨u, h4, h5, h6⟩ := ih htm h2.padding (fun f hf => hw f (by simp [hf])) hr2
    exact ⟨u, by simp [putFields, h1, h4], h2.trans h5, h6.trans h3⟩

/-- A run of fields without room for all of them faults OVERFLOW (R213, R287). -/
theorem putFields_noRoom {s : State} (hm : s.store.wf)
    (hp : s.cache >>> (64 - s.free.val) = 0) (hle : s.wpos.toNat ≤ s.cap.toNat)
    {fields : List (Word × Nat)} (hw : ∀ f ∈ fields, f.2 ≤ 64)
    (hr : ¬ s.hasRoom (fieldBits fields).length) : putFields s fields = .error .overflow := by
  induction fields generalizing s with
  | nil =>
    have h0 : s.wordsFor 0 = 0 := State.wordsFor_fits (Nat.zero_le _)
    simp [fieldBits, State.hasRoom, h0] at hr
    omega
  | cons f fields ih =>
    obtain ⟨v, w⟩ := f
    have hlen : (fieldBits ((v, w) :: fields)).length = w + (fieldBits fields).length := by
      simp [fieldBits]
    have hw' : w ≤ 64 := hw (v, w) (by simp)
    by_cases hr1 : s.hasRoom w
    · obtain ⟨t, h1, htm, h2, h3⟩ := putBits_appends hm hp v hw' hr1
      have hf := h2.free
      rw [natBits_length] at hf
      have hwp := h2.wpos
      rw [natBits_length] at hwp
      have hadd := State.wordsFor_add hf (fieldBits fields).length
      have hr2 : ¬ t.hasRoom (fieldBits fields).length := by
        rw [hlen] at hr
        unfold State.hasRoom at *
        rw [h2.cap]
        omega
      have hle2 : t.wpos.toNat ≤ t.cap.toNat := by
        rw [h2.cap]
        unfold State.hasRoom at hr1
        omega
      simp [putFields, h1, ih htm h2.padding hle2 (fun f hf => hw f (by simp [hf])) hr2]
    · simp [putFields, putBits_noRoom hle v hw' hr1]

end Sys2Proof.Machine
end

