-- ==== Sys2Proof/Laws/Outcome.lean ====
section
/-!
SUPPORT. How a command ends, said once (60_exceptions.md R281 to R284): completion, fault and refusal, as equations
on the shared endings that every meaning calls.
-/

namespace Sys2Proof.Machine

@[simp] theorem finish_ok (s t : State) : finish s (.ok t) = .next (t.respond true) := rfl

@[simp] theorem finish_error (s : State) (code : FaultCode) :
    finish s (.error code) = .next (s.raise code) := rfl

/-- Every ending is a next state. -/
theorem finish_next (s : State) (a : Attempt State) : ∃ t, finish s a = .next t := by
  cases a with
  | ok t => exact ⟨_, rfl⟩
  | error code => exact ⟨_, rfl⟩

/-- While FAULT is 0 a command executes. -/
theorem unlessFaulted_of_none {s : State} (h : s.fault = .none) (a : Attempt State) :
    unlessFaulted s a = finish s a := by simp [unlessFaulted, h]

/-- While FAULT is not 0 a command is refused (R284). -/
theorem unlessFaulted_of_fault {s : State} (h : s.fault ≠ .none) (a : Attempt State) :
    unlessFaulted s a = .next s.refuse := by simp [unlessFaulted, h]

theorem unlessFaulted_next (s : State) (a : Attempt State) : ∃ t, unlessFaulted s a = .next t := by
  unfold unlessFaulted
  split
  · exact finish_next s a
  · exact ⟨_, rfl⟩

/-- A fault on a state without one, in the statements' terms. -/
theorem finish_error_of_none {s : State} (h : s.fault = .none) (code : FaultCode) :
    finish s (.error code) = .next
      { s with fault := code, fcmd := s.cmd, reply := some (.response false s.result) } := by
  rw [finish_error, State.raise_of_none h]

theorem inMode_of_eq {α : Type} {m : Mode} {s : State} (h : s.mode = m) (a : Attempt α) :
    inMode m s a = a := by simp [inMode, h]

/-- In the other mode a command raises MODE before any other fault (R286, R292). -/
theorem inMode_of_ne {α : Type} {m : Mode} {s : State} (h : s.mode ≠ m) (a : Attempt α) :
    inMode m s a = .error .mode := by simp [inMode, h]

@[simp] theorem toResult_ok (r : Word) (t : State) : toResult (.ok (r, t)) = .ok (t.withResult r) := rfl

@[simp] theorem toResult_error (code : FaultCode) : toResult (.error code) = .error code := rfl

/-- A step on a presented command (10_state.md R54, R55). -/
theorem step_command {s : State} {c : CommandWord} {o : Word} {rest : List HostEvent}
    (h : s.pending = .command c o :: rest) : step s = runCommand (s.present c o rest) := by
  simp [step, h]

/-- A legal command runs its meaning. -/
theorem runCommand_of_decode {s : State} {i : Instr} (h : decode s.cmd = .ok i) :
    runCommand s = exec i s := by
  simp [runCommand, State.fetched, h]

/-- An illegal command word raises ILLEGAL_COMMAND or is refused (R285). -/
theorem runCommand_of_illegal {s : State} {e : DecodeError} (h : decode s.cmd = .error e) :
    runCommand s = illegalCommand s := by
  simp [runCommand, State.fetched, h]

end Sys2Proof.Machine
end

