-- ==== Sys2Proof/Laws/PerInstr.lean ====
section
/-!
SUPPORT. Facts about each command as syntax, one lemma for each constructor of Instr: the opcode of its word is the one of
the opcode map (30_encoding.md R98).
-/

namespace Sys2Proof.Laws.EncodeOpcode

/-- The opcode of each command, as the opcode map lists it (R98). -/
def opcodeOf : Instr → Nat
  | .putb _ => 0x01
  | .getb _ => 0x02
  | .putByte _ => 0x10
  | .putChar _ => 0x11
  | .putShort _ => 0x12
  | .putInt _ => 0x13
  | .putLong _ => 0x14
  | .putFloat _ => 0x15
  | .putDouble _ => 0x16
  | .getByte _ => 0x18
  | .getChar _ => 0x19
  | .getShort _ => 0x1A
  | .getInt _ => 0x1B
  | .getLong _ => 0x1C
  | .getFloat _ => 0x1D
  | .getDouble _ => 0x1E
  | .putv16 _ _ => 0x20
  | .putv32 _ _ => 0x21
  | .putv64 _ _ => 0x22
  | .getv16 _ _ => 0x28
  | .getv32 _ _ => 0x29
  | .getv64 _ _ => 0x2A
  | .alloc => 0x30
  | .flip => 0x31
  | .compact => 0x32
  | .rdreg _ => 0x33

/-- The opcode field of a command's word is its opcode (R91, R98). -/
def Statement (i : Instr) : Prop := (opcodeField (encode i)).toNat = opcodeOf i

theorem putb (width : Nat) : Statement (.putb width) := congrArg BitVec.toNat (opcodeField_encodeFormatB _ _)

theorem getb (width : Nat) : Statement (.getb width) := congrArg BitVec.toNat (opcodeField_encodeFormatB _ _)

theorem putByte (bo : ByteOrder) : Statement (.putByte bo) := congrArg BitVec.toNat (opcodeField_encodeFormatF _ _)

theorem putChar (bo : ByteOrder) : Statement (.putChar bo) := congrArg BitVec.toNat (opcodeField_encodeFormatF _ _)

theorem putShort (bo : ByteOrder) : Statement (.putShort bo) := congrArg BitVec.toNat (opcodeField_encodeFormatF _ _)

theorem putInt (bo : ByteOrder) : Statement (.putInt bo) := congrArg BitVec.toNat (opcodeField_encodeFormatF _ _)

theorem putLong (bo : ByteOrder) : Statement (.putLong bo) := congrArg BitVec.toNat (opcodeField_encodeFormatF _ _)

theorem putFloat (bo : ByteOrder) : Statement (.putFloat bo) := congrArg BitVec.toNat (opcodeField_encodeFormatF _ _)

theorem putDouble (bo : ByteOrder) : Statement (.putDouble bo) := congrArg BitVec.toNat (opcodeField_encodeFormatF _ _)

theorem getByte (bo : ByteOrder) : Statement (.getByte bo) := congrArg BitVec.toNat (opcodeField_encodeFormatF _ _)

theorem getChar (bo : ByteOrder) : Statement (.getChar bo) := congrArg BitVec.toNat (opcodeField_encodeFormatF _ _)

theorem getShort (bo : ByteOrder) : Statement (.getShort bo) := congrArg BitVec.toNat (opcodeField_encodeFormatF _ _)

theorem getInt (bo : ByteOrder) : Statement (.getInt bo) := congrArg BitVec.toNat (opcodeField_encodeFormatF _ _)

theorem getLong (bo : ByteOrder) : Statement (.getLong bo) := congrArg BitVec.toNat (opcodeField_encodeFormatF _ _)

theorem getFloat (bo : ByteOrder) : Statement (.getFloat bo) := congrArg BitVec.toNat (opcodeField_encodeFormatF _ _)

theorem getDouble (bo : ByteOrder) : Statement (.getDouble bo) := congrArg BitVec.toNat (opcodeField_encodeFormatF _ _)

theorem putv16 (sm : SignMode) (st : Strategy) : Statement (.putv16 sm st) := congrArg BitVec.toNat (opcodeField_encodeFormatV _ _ _)

theorem putv32 (sm : SignMode) (st : Strategy) : Statement (.putv32 sm st) := congrArg BitVec.toNat (opcodeField_encodeFormatV _ _ _)

theorem putv64 (sm : SignMode) (st : Strategy) : Statement (.putv64 sm st) := congrArg BitVec.toNat (opcodeField_encodeFormatV _ _ _)

theorem getv16 (sm : SignMode) (st : Strategy) : Statement (.getv16 sm st) := congrArg BitVec.toNat (opcodeField_encodeFormatV _ _ _)

theorem getv32 (sm : SignMode) (st : Strategy) : Statement (.getv32 sm st) := congrArg BitVec.toNat (opcodeField_encodeFormatV _ _ _)

theorem getv64 (sm : SignMode) (st : Strategy) : Statement (.getv64 sm st) := congrArg BitVec.toNat (opcodeField_encodeFormatV _ _ _)

theorem alloc : Statement (.alloc) := congrArg BitVec.toNat (opcodeField_encodeFormatN _)

theorem flip : Statement (.flip) := congrArg BitVec.toNat (opcodeField_encodeFormatN _)

theorem compact : Statement (.compact) := congrArg BitVec.toNat (opcodeField_encodeFormatN _)

theorem rdreg (idx : RegIndex) : Statement (.rdreg idx) := congrArg BitVec.toNat (opcodeField_encodeFormatR _ _)

end Sys2Proof.Laws.EncodeOpcode
end

