-- ==== Sys2Proof/Tests/Slice0.lean ====
section
/-!
SUPPORT. The model's own tests: decoding of words written out from the spec's encodings, one-step checks against the
worked examples of the rules and of 95_test_vectors.md, and a witness for the hypotheses of every statement.
-/

namespace Sys2Proof.Tests

open Sys2Proof Sys2Proof.Machine

/-! ## Decoding: words written out from 30_encoding.md R92 to R96, R103 and 95_test_vectors.md section 2.1 -/

/-- WM1 in bits 13:8 over the opcode. -/
theorem test_decode_putb : decode 0b00000000000000000011111000000001#32 = .ok (.putb 63) := by decide
theorem test_decode_getb : decode 0b00000000000000000011111100000010#32 = .ok (.getb 64) := by decide
theorem test_decode_putb_one : decode 0x00000001#32 = .ok (.putb 1) := by decide
/-- BO in bit 8 over the opcode. -/
theorem test_decode_putInt : decode 0b00000000000000000000000100010011#32 = .ok (.putInt .big) := by
  decide
theorem test_decode_putByte : decode 0x00000010#32 = .ok (.putByte .little) := by decide
theorem test_decode_putChar : decode 0x00000111#32 = .ok (.putChar .big) := by decide
theorem test_decode_putShort : decode 0x00000012#32 = .ok (.putShort .little) := by decide
theorem test_decode_putLong : decode 0x00000014#32 = .ok (.putLong .little) := by decide
theorem test_decode_putFloat : decode 0x00000115#32 = .ok (.putFloat .big) := by decide
theorem test_decode_putDouble : decode 0x00000016#32 = .ok (.putDouble .little) := by decide
theorem test_decode_getByte : decode 0x00000118#32 = .ok (.getByte .big) := by decide
theorem test_decode_getChar : decode 0x00000019#32 = .ok (.getChar .little) := by decide
theorem test_decode_getShort : decode 0x0000011A#32 = .ok (.getShort .big) := by decide
theorem test_decode_getInt : decode 0x0000001B#32 = .ok (.getInt .little) := by decide
theorem test_decode_getLong : decode 0x0000011C#32 = .ok (.getLong .big) := by decide
theorem test_decode_getFloat : decode 0x0000001D#32 = .ok (.getFloat .little) := by decide
theorem test_decode_getDouble : decode 0x0000011E#32 = .ok (.getDouble .big) := by decide
/-- ST in bit 10 and SM in bits 9:8 over the opcode. -/
theorem test_decode_putv32 : decode 0b00000000000000000000001000100001#32 = .ok (.putv32 .either .half) := by
  decide
theorem test_decode_putv16 : decode 0x00000020#32 = .ok (.putv16 .positive .half) := by decide
theorem test_decode_putv64 : decode 0x00000522#32 = .ok (.putv64 .negative .blocked) := by decide
theorem test_decode_getv16 : decode 0x00000528#32 = .ok (.getv16 .negative .blocked) := by decide
theorem test_decode_getv32 : decode 0x00000629#32 = .ok (.getv32 .either .blocked) := by decide
theorem test_decode_getv64 : decode 0x0000002A#32 = .ok (.getv64 .positive .half) := by decide
theorem test_decode_alloc : decode 0b00000000000000000000000000110000#32 = .ok .alloc := by decide
theorem test_decode_flip : decode 0x00000031#32 = .ok .flip := by decide
theorem test_decode_compact : decode 0x00000032#32 = .ok .compact := by decide
/-- IDX in bits 10:8 over the opcode. -/
theorem test_decode_rdreg : decode 0b00000000000000000000011100110011#32 = .ok (.rdreg .rpos) := by decide

/-- The illegal words of 95_test_vectors.md section 2.1. -/
theorem test_decode_unassigned :
    ([0x00, 0x17, 0x1F, 0x23, 0x2B, 0x34, 0xFF] : List (BitVec 32)).all
      (fun c => decode c = .error .unassignedOpcode) = true := by decide
theorem test_decode_reserved :
    ([0x4001, 0x211, 0x821, 0x130, 0x1000031, 0x833] : List (BitVec 32)).all
      (fun c => decode c = .error .reservedBits) = true := by decide
theorem test_decode_illegalSignMode :
    decode 0x00000321#32 = .error .illegalSignMode ∧ decode 0x00000728#32 = .error .illegalSignMode := by
  decide

/-- The words of the worked encodings of R103, encoded. -/
theorem test_encode :
    encode (.putb 63) = 0x3E01#32 ∧ encode (.putInt .big) = 0x113#32 ∧
    encode (.getv16 .negative .half) = 0x128#32 ∧ encode .alloc = 0x30#32 ∧
    encode (.rdreg .fault) = 0x333#32 := by decide

/-! ## Well-formedness: each check refuses an ill-formed term -/

theorem test_wellFormed_refuses_zero :
    (Instr.putb 0).wellFormed = false ∧ (Instr.getb 0).wellFormed = false := by decide
theorem test_wellFormed_refuses_wide :
    (Instr.putb 65).wellFormed = false ∧ (Instr.getb 65).wellFormed = false := by decide
theorem test_wellFormed_accepts_bounds :
    (Instr.putb 1).wellFormed = true ∧ (Instr.getb 64).wellFormed = true := by decide

/-! ## Small states -/

/-- A buffer of 8 bytes being written, with `cache` holding 64 - `free` pending bits, and an operand. -/
def writing (free : Fin 65) (cache operand : Word) : State :=
  { State.reset with cap := 8, free := free, cache := cache, operand := operand }

/-- A buffer of 8 bytes flipped for reading, whose one word is `word`. -/
def reading (word : Word) : State :=
  { State.reset with cap := 8, wpos := 8, mode := .read, free := 0, store := Memory.writeWord [] 0 word }

/-- A state with its word all flushed: nothing more fits. -/
def full : State := { writing 0 5 1 with wpos := 8 }

/-- A state in which a fault is recorded. -/
def faulted : State := { writing 64 0 8 with fault := .overflow, fcmd := 0x31 }

/-- The state with the host about to present a command. -/
def presenting (s : State) (c : CommandWord) (o : Word) : State :=
  { s with pending := [.command c o] }

/-- What a next state satisfies; false of a stop. -/
def endsIn (o : Host.Outcome State Fault Refusal) (p : State → Bool) : Bool :=
  match o with
  | .next t => p t
  | .fault _ => false
  | .refused _ => false

/-- CACHE and FREE after a completed put. -/
def leaves (i : Instr) (s : State) (cache : Word) (free : Nat) : Bool :=
  endsIn (exec i s) fun t => t.cache = cache && t.free.val = free && t.reply = some (.response true 0)

/-- RESULT and FREE after a completed get. -/
def gives (i : Instr) (s : State) (result : Word) (free : Nat) : Bool :=
  endsIn (exec i s) fun t =>
    t.result = result && t.free.val = free && t.reply = some (.response true result)

/-- FAULT and FCMD after a command that faults, with CACHE and FREE kept. -/
def faults (i : Instr) (s : State) (code : FaultCode) : Bool :=
  endsIn (exec i s) fun t =>
    t.fault = code && t.fcmd = s.cmd && t.cache = s.cache && t.free = s.free && t.wpos = s.wpos &&
      t.store = s.store && t.reply = some (.response false s.result)

/-! ## The bit engine: 95_test_vectors.md section 2.2, P2 -/

/-- B1: the operand bits above the width are ignored. -/
theorem test_putb_masks : leaves (.putb 4) (writing 64 0 0xFFFFFFFFFFFFFFF5) 0x5 60 = true := by decide
/-- P2 step 3: one bit completes the word and the four above it become the cache. -/
theorem test_putb_splits :
    endsIn (exec (.putb 5) (writing 1 0x7FFFFFFFFFFFFFFF 0x17)) (fun t =>
      t.cache = 0xB && t.free.val = 60 && t.wpos = 8 && t.store.readWord 0 = 0xFFFFFFFFFFFFFFFF) = true := by
  decide
/-- B6: the padding reads as zero. -/
theorem test_getb : gives (.getb 64) (reading 1) 1 0 = true := by decide
/-- P2 step 6: one bit of the old word under four of the next. -/
theorem test_getb_splits :
    endsIn (exec (.getb 5) { reading 0xB with free := 1, cache := 0xFFFFFFFFFFFFFFFF }) (fun t =>
      t.result = 0x17 && t.cache = 0xB && t.free.val = 60 && t.rpos = 8) = true := by decide

/-! ## The fixed-width codec: 95_test_vectors.md sections 1 (S1) and 2.3, P3 -/

theorem test_putByte : leaves (.putByte .little) (writing 64 0 0xFFFFFFFFFFFFFF80) 0x80 56 = true := by decide
theorem test_putChar : leaves (.putChar .big) (writing 64 0 0x8001) 0x0180 48 = true := by decide
theorem test_putShort : leaves (.putShort .little) (writing 64 0 0xFFFFFFFFFFFF8001) 0x8001 48 = true := by decide
theorem test_putInt :
    leaves (.putInt .big) (writing 32 0x11223344 0x11223344) 0x4433221111223344 0 = true := by decide
theorem test_putLong :
    leaves (.putLong .big) (writing 64 0 0x0102030405060708) 0x0807060504030201 0 = true := by decide
/-- F3: a full cache is flushed and FREE stays 0. -/
theorem test_putLong_flushes :
    endsIn (exec (.putLong .little) (writing 0 7 9)) (fun t =>
      t.cache = 9 && t.free.val = 0 && t.wpos = 8 && t.store.readWord 0 = 7) = true := by decide
theorem test_putFloat : leaves (.putFloat .big) (writing 64 0 0xFF800001) 0x010080FF 32 = true := by decide
theorem test_putDouble :
    leaves (.putDouble .big) (writing 64 0 0x8000000000000001) 0x0100000000000080 0 = true := by decide
theorem test_getByte : gives (.getByte .big) (reading 0x80) 0xFFFFFFFFFFFFFF80 56 = true := by decide
theorem test_getChar : gives (.getChar .little) (reading 0x8001) 0x8001 48 = true := by decide
theorem test_getShort : gives (.getShort .little) (reading 0x8001) 0xFFFFFFFFFFFF8001 48 = true := by decide
theorem test_getShort_swaps : gives (.getShort .big) (reading 0x8001) 0x0180 48 = true := by decide
theorem test_getInt : gives (.getInt .big) (reading 0x01000080) 0xFFFFFFFF80000001 32 = true := by decide
theorem test_getLong :
    gives (.getLong .big) (reading 0x0807060504030201) 0x0102030405060708 0 = true := by decide
theorem test_getFloat : gives (.getFloat .little) (reading 0xFF800001) 0xFF800001 32 = true := by decide
theorem test_getDouble :
    gives (.getDouble .big) (reading 0x0100000000000080) 0x8000000000000001 0 = true := by decide

/-! ## The adaptive codec: 95_test_vectors.md sections 1 (S2, S5) and 2.4, P1 -/

/-- A5: the operand bits above the width are ignored. -/
theorem test_putv16 : leaves (.putv16 .either .half) (writing 64 0 0xFFFF0005) 0xA5 56 = true := by decide
/-- S5: the smallest escaped magnitude of BLOCKED. -/
theorem test_putv16_escapes : leaves (.putv16 .positive .blocked) (writing 64 0 256) 0x200 48 = true := by decide
theorem test_putv32 :
    leaves (.putv32 .either .half) (writing 34 0xF89021 0xFFFFFFFFFFFE1DC0) 0x001E2408C0F89021 11 = true := by
  decide
/-- A8. -/
theorem test_putv32_blocked :
    leaves (.putv32 .positive .blocked) (writing 64 0 16777215) 0xFFFFFFD 36 = true := by decide
/-- A7: no sign bit in the Negative mode. -/
theorem test_putv64 : leaves (.putv64 .negative .half) (writing 64 0 (-1)) 0x41 57 = true := by decide
/-- A12: a 65-bit escape flushes one word. -/
theorem test_putv64_escapes :
    endsIn (exec (.putv64 .either .half) (writing 64 0 0x8000000000000001)) (fun t =>
      t.cache = 1 && t.free.val = 63 && t.wpos = 8 && t.store.readWord 0 = 0xFFFFFFFFFFFFFFFE) = true := by
  decide
/-- A4: an escaped negative value. -/
theorem test_getv16 : gives (.getv16 .either .half) (reading 0x2002) 0xFFFFFFFFFFFFF800 47 = true := by decide
/-- M5: a magnitude of 28 bits is truncated to 16. -/
theorem test_getv16_malformed :
    gives (.getv16 .positive .blocked) (reading 0xFFFFFFFF) 0xFFFFFFFFFFFFFFFF 32 = true := by decide
theorem test_getv32 :
    gives (.getv32 .either .half) (reading 0x001E2408C0F89021) 0x1E240 41 = true := by decide
/-- M1: a mismatched sign mode reads the sign bit as part of the prefix. -/
theorem test_getv32_mismatch : gives (.getv32 .positive .half) (reading 0x145) 0xA 54 = true := by decide
theorem test_getv64 : gives (.getv64 .negative .half) (reading 0x41) 0xFFFFFFFFFFFFFFFF 57 = true := by decide
theorem test_getv64_blocked :
    gives (.getv64 .either .blocked) (reading 0x1FFFFFFFD) 0xFFFFFFF 31 = true := by decide

/-! ## The lifecycle: 95_test_vectors.md section 2.5 -/

/-- L2: one byte is rounded up to 8, and what the store held is cleared. -/
theorem test_alloc :
    endsIn (exec .alloc { reading 0x1234 with operand := 1, fault := .domain, fcmd := 0x20 }) (fun t =>
      t.cap = 8 && t.wpos = 0 && t.free.val = 64 && t.mode = .write && t.store = [] &&
        t.fault = .none && t.fcmd = 0) = true := by decide
/-- L9: the pending word is written. -/
theorem test_flip :
    endsIn (exec .flip (writing 0 0x1234 0)) (fun t =>
      t.store.readWord 0 = 0x1234 && t.wpos = 8 && t.mode = .read && t.cache = 0 && t.free.val = 0 &&
        t.rpos = 0) = true := by decide
/-- P3 step 5. -/
theorem test_flip_overflows : faults .flip { writing 56 0xAB 0 with wpos := 8, cmd := 0x31 } .overflow = true := by
  decide
/-- L12: 24 written bytes, 16 of them consumed. -/
theorem test_compact :
    endsIn (exec .compact
      { reading 0x0102 with
        cap := 24, wpos := 24, rpos := 16, free := 3, cache := 9
        store := (Memory.writeWord [] 16 0x0304).writeWord 0 0x0102 }) (fun t =>
      t.wpos = 8 && t.rpos = 0 && t.free.val = 3 && t.cache = 9 && t.store.readWord 0 = 0x0304 &&
        t.store.readWord 16 = 0x0304) = true := by decide
/-- L10: no effect in write mode. -/
theorem test_compact_writing :
    endsIn (exec .compact (writing 60 5 0)) (fun t =>
      t = { writing 60 5 0 with reply := some (.response true 0) }) = true := by decide
/-- E5 and L14: the fault code is read while it is recorded. -/
theorem test_rdreg : gives (.rdreg .fault) faulted 3 64 = true := by decide
theorem test_rdreg_fcmd : gives (.rdreg .fcmd) faulted 0x31 64 = true := by decide

/-! ## Faults, refusals and the ports: 95_test_vectors.md sections 2.4, 2.6, 2.7 -/

/-- X1. -/
theorem test_domain :
    faults (.putv32 .either .half) { writing 64 0 0x80000000 with cmd := 0x221 } .domain = true := by decide
/-- B9. -/
theorem test_overflow : faults (.putb 1) { writing 0 1 1 with cap := 0, cmd := 1 } .overflow = true := by decide
/-- B11. -/
theorem test_underflow :
    faults (.getb 1) { reading 0 with wpos := 0, cmd := 2 } .underflow = true := by decide
/-- X8: a later field of the codec underflows and nothing is taken. -/
theorem test_underflow_precise :
    faults (.getv32 .either .half)
      { reading 0x789021 with rpos := 8, free := 4, cache := 0x789021, cmd := 0x229 } .underflow = true := by
  decide
/-- X6: the second flush fails and nothing is written. -/
theorem test_overflow_precise :
    faults (.putv64 .either .half)
      { writing 0 0xFFFFFFFFFFFFFFFF 0x7FFFFFFFFFFFFFFF with cmd := 0x222 } .overflow = true := by decide
/-- X11: MODE comes before DOMAIN. -/
theorem test_mode_first :
    faults (.putv32 .either .half) { reading 0 with operand := 0x80000000, cmd := 0x221 } .mode = true := by
  decide
/-- E1 and E2: an illegal word faults once; the next is refused. -/
theorem test_illegal :
    endsIn (step (presenting (writing 64 0 0) 0x321 0)) (fun t =>
      t.fault = .illegalCommand && t.fcmd = 0x321 && t.faultLine) = true := by decide
theorem test_refused :
    endsIn (step (presenting faulted 0x17 0)) (fun t =>
      t.fault = .overflow && t.fcmd = 0x31 && t.reply = some (.response false 0)) = true := by decide
/-- R57: a byte of the artifact, P1's first and fourth. -/
theorem test_hostRead :
    endsIn (step { reading 0x001E2408C0F89021 with pending := [.readByte 3] }) (fun t =>
      t.reply = some (.byte 0xC0)) = true := by decide
/-- Z4. -/
theorem test_reset :
    endsIn (step { faulted with pending := [.reset] }) (fun t =>
      t.fault = .none && t.fcmd = 0 && t.cap = 0 && t.free.val = 64 && !t.faultLine) = true := by decide
/-- Z2, by the fetch of the table's word. -/
theorem test_withFetchWord :
    endsIn (step ({ State.reset with operand := 5 }.withFetchWord 32 0x3F01)) (fun t =>
      t.cache = 5 && t.free.val = 0) = true := by decide

/-! ## The assembler: 30_encoding.md R101, R103 -/

theorem test_assemble_put : assemble "PUTB 63, 0x7FFFFFFFFFFFFFFF" = some (.putb 63, 0x7FFFFFFFFFFFFFFF) := by
  decide
theorem test_assemble_qualifiers : assemble "PUTV32.E.H -123456" = some (.putv32 .either .half, -123456) := by
  decide
theorem test_assemble_no_default : assemble "PUT_INT 5" = none := by decide

/-! ## Witnesses: for each statement with hypotheses, a state and operands that meet them, at the bounds of each clause -/

/-- The invariants, for a state whose capacity is at most 8 bytes, as something to compute. -/
def smallInv (s : State) : Bool :=
  s.cap.toNat ≤ 8 && s.cap.toNat % 8 = 0 && s.wpos.toNat % 8 = 0 && s.rpos.toNat % 8 = 0 &&
    s.wpos.toNat ≤ s.cap.toNat && s.rpos.toNat ≤ s.wpos.toNat && (s.mode ≠ .write || s.rpos = 0) &&
    (s.mode ≠ .write || s.cache >>> (64 - s.free.val) = 0) && decide s.store.wf &&
    s.store.all (fun c => c.1 < 8) &&
    (s.mode ≠ .write || (List.range 8).all (fun a => a < s.wpos.toNat || s.store.read a = 0)) &&
    (s.fault ≠ .none || s.fcmd = 0)

theorem inv_of_smallInv {s : State} (h : smallInv s = true) : s.Inv := by
  have h8 : 8 ≤ Config.capMax := by unfold Config.capMax; omega
  simp only [smallInv, Bool.and_eq_true, Bool.or_eq_true, decide_eq_true_eq, List.all_eq_true,
    List.mem_range] at h
  obtain ⟨⟨⟨⟨⟨⟨⟨⟨⟨⟨⟨hc, h1⟩, h2⟩, h3⟩, h4⟩, h5⟩, h6⟩, h7⟩, h9⟩, h10⟩, h11⟩, h12⟩ := h
  exact
    { cap_aligned := h1, wpos_aligned := h2, rpos_aligned := h3, wpos_le_cap := h4
      cap_le_capMax := hc.trans h8, rpos_le_wpos := h5
      write_rpos := fun h => h6.resolve_left fun h' => h' h
      write_cache := fun h => h7.resolve_left fun h' => h' h
      store_wf := h9
      store_size := fun c hm => (h10 c hm).trans_le h8
      unwritten_zero := fun h a ha hb =>
        ((h11.resolve_left fun h' => h' h) a (by omega)).resolve_left fun h' => by omega
      fcmd_clear := fun h => h12.resolve_left fun h' => h' h }

theorem writing_inv : (writing 64 0 5).Inv := inv_of_smallInv (by decide)
theorem pending_inv : (writing 61 5 5).Inv := inv_of_smallInv (by decide)
theorem loaded_inv : (writing 0 5 5).Inv := inv_of_smallInv (by decide)
theorem full_inv : full.Inv := inv_of_smallInv (by decide)
theorem reading_inv : (reading 0x1234).Inv := inv_of_smallInv (by decide)
theorem faulted_inv : faulted.Inv := inv_of_smallInv (by decide)

/-- A flipped buffer with every bit taken. -/
def drained : State := { reading 0x1234 with rpos := 8 }

theorem drained_inv : drained.Inv := inv_of_smallInv (by decide)

theorem witness_DecodeOfEncode : (Instr.putb 1).wellFormed = true ∧ (Instr.getb 64).wellFormed = true := by
  decide

theorem witness_EncodeOfDecode : decode 0x00003F02#32 = .ok (.getb 64) := by decide

theorem witness_IllegalWordsFault :
    legalWord (0x321 : CommandWord).toNat = false ∧ (∃ i, decode 0x121 = .ok i) ∧
    (presenting (writing 64 0 0) 0x321 5).pending = .command 0x321 5 :: [] ∧
    (presenting (writing 64 0 0) 0x321 5).fault = .none := ⟨by decide, ⟨_, rfl⟩, rfl, rfl⟩

theorem witness_StepRunsPresentedCommand :
    (presenting (writing 64 0 0) 0x31 5).pending = .command 0x31 5 :: [] ∧ decode 0x31 = .ok .flip :=
  ⟨rfl, rfl⟩

theorem witness_HostReadPort :
    ({ reading 1 with pending := [.readByte 7] } : State).pending = .readByte 7 :: [] ∧
    7 < (reading 1).cap.toNat ∧
    ({ reading 1 with pending := [.readByte 8] } : State).pending = .readByte 8 :: [] ∧
    (reading 1).cap.toNat ≤ 8 := by decide

theorem witness_FaultLineFollowsFault :
    (∃ t, step (presenting (writing 64 0 0) 0x321 0) = .next t ∧
      (presenting (writing 64 0 0) 0x321 0).faultLine = false ∧ t.faultLine = true) ∧
    (∃ t, step (presenting faulted 0x30 8) = .next t ∧
      (presenting faulted 0x30 8).faultLine = true ∧ t.faultLine = false) :=
  ⟨⟨_, rfl, rfl, rfl⟩, ⟨_, rfl, rfl, rfl⟩⟩

theorem witness_ResetSetsEveryRegister :
    ({ faulted with pending := [.reset] } : State).pending = .reset :: [] ∧ (writing 60 5 0).operand = 0 :=
  ⟨rfl, rfl⟩

theorem witness_StepKeepsInvariants :
    ∃ s t : State, s.Inv ∧ step s = .next t ∧ t.wpos = 8 :=
  ⟨presenting (writing 0 5 0) 0x1 1, _, inv_of_smallInv (by decide), rfl, rfl⟩

theorem witness_InvariantsOnEveryHostRun :
    ∃ t, Sys2Proof.core.run 3
      { State.reset with pending := [.command 0x30 8, .command 0x3F01 5, .command 0x31 0] } = .next t ∧
      t.wpos = 8 := ⟨_, rfl, rfl⟩

theorem witness_FaultsArePrecise :
    ∃ t, (presenting full 0x1 1).pending = .command 0x1 1 :: [] ∧ (presenting full 0x1 1).fault = .none ∧
      step (presenting full 0x1 1) = .next t ∧ t.fault ≠ .none := ⟨_, rfl, rfl, rfl, by decide⟩

theorem witness_RefusedWhileFaulted :
    (presenting faulted 0x31 5).pending = .command 0x31 5 :: [] ∧ (presenting faulted 0x31 5).fault ≠ .none ∧
    (∀ i, decode 0x31 = .ok i → runsWhileFaulted i = false) ∧
    (∀ i, decode 0x130 = .ok i → runsWhileFaulted i = false) ∧
    decode 0x30 = .ok .alloc ∧ (8 : Word).toNat ≤ Config.capMax ∧ Config.capMax < (-1 : Word).toNat ∧
    decode 0x333 = .ok (.rdreg .fault) := by
  refine ⟨rfl, by decide, fun i h => ?_, fun i h => ?_, rfl, ?_, ?_, rfl⟩
  · obtain rfl : Instr.flip = i := by simpa using (show Except.ok Instr.flip = Except.ok i from h)
    rfl
  · exact nomatch (show (Except.error DecodeError.reservedBits : Except _ Instr) = .ok i from h)
  · show 8 ≤ Config.capMax
    unfold Config.capMax; omega
  · show _ < 18446744073709551615
    have := Config.capMaxIndex.isLt
    unfold Config.capMax; omega

theorem witness_FirstFaultIsKept :
    (∃ t, step (presenting faulted 0x31 5) = .next t ∧ t.fault = .overflow) ∧
    (∃ t, step (presenting faulted 0x30 8) = .next t ∧ t.fault = .none) ∧
    (presenting faulted 0x31 5).fault ≠ .none := ⟨⟨_, rfl, rfl⟩, ⟨_, rfl, rfl⟩, by decide⟩

theorem witness_FcmdWrittenWithFault :
    (∃ t, step (presenting (writing 64 0 0) 0x321 0) = .next t ∧
      t.fcmd ≠ (presenting (writing 64 0 0) 0x321 0).fcmd) ∧
    (∃ t, step (presenting faulted 0x30 8) = .next t ∧ t.fcmd ≠ (presenting faulted 0x30 8).fcmd) :=
  ⟨⟨_, rfl, by decide⟩, ⟨_, rfl, by decide⟩⟩

/-- Refused; illegal; wrong mode; DOMAIN at -2^31; ALLOC_RANGE; and a command past all of these. -/
theorem witness_FaultPriority :
    (∃ t, step (presenting faulted 0x31 5) = .next t ∧ runsWhileFaulted .flip = false) ∧
    (∃ t, step (presenting (writing 64 0 0) 0x721 5) = .next t ∧
      legalWord (0x721 : CommandWord).toNat = false) ∧
    (∃ t, step (presenting drained 0x221 0x80000000) = .next t ∧
      decode 0x221 = .ok (.putv32 .either .half) ∧
      neededMode (.putv32 .either .half) = some .write ∧ drained.mode ≠ .write) ∧
    (∃ t, step (presenting (writing 64 0 0) 0x221 0x80000000) = .next t ∧
      neededMode (.putv32 .either .half) = some (writing 64 0 0).mode ∧
      domainError (.putv32 .either .half) 0x80000000 = true) ∧
    ((∃ t, step (presenting (writing 64 0 0) 0x30 (-1)) = .next t) ∧
      Config.capMax < (-1 : Word).toNat) ∧
    (∃ t, step (presenting full 0x31 0) = .next t ∧ neededMode .flip = none ∧
      domainError .flip 0 = false) := by
  refine ⟨⟨_, rfl, rfl⟩, ⟨_, rfl, by decide⟩, ⟨_, rfl, rfl, rfl, by decide⟩, ⟨_, rfl, rfl, by decide⟩,
    ⟨?_, ?_⟩, ⟨_, rfl, rfl, rfl⟩⟩
  · show ∃ t, finish _ _ = Host.Outcome.next t
    unfold finish
    split <;> exact ⟨_, rfl⟩
  · show _ < 18446744073709551615
    unfold Config.capMax
    have := Config.capMaxIndex.isLt
    omega

theorem witness_WrongModeFaults :
    neededMode (.putb 5) = some .write ∧ (reading 1).mode ≠ .write ∧ (reading 1).fault = .none ∧
    neededMode (.getv16 .either .half) = some .read ∧ (writing 64 0 0).mode ≠ .read := by decide

theorem witness_StoreWordsAreLittleEndian : Memory.wf [] ∧ Memory.wf [(7, 1), (8, 2)] := by decide

theorem witness_MaskTableEntries : (0 : Nat) ≤ 64 ∧ (64 : Nat) ≤ 64 ∧ (63 : Nat) < 64 := by decide

theorem witness_ByterevReversesBytes : (1 : Nat) ≤ 8 ∧ (0 : Nat) < 1 ∧ (8 : Nat) ≤ 8 ∧ (7 : Nat) < 8 := by decide

theorem witness_ConcatenationLaw :
    (63 + 1 ≤ 64 ∧ 0 + 64 ≤ 64 ∧ 64 + 0 ≤ 64) ∧
    ((writing 61 5 5).Inv ∧ (writing 61 5 5).mode = .write ∧
      (∀ f ∈ [((5 : Word), 2), (7, 64)], f.2 ≤ 64) ∧ (∀ f ∈ [((29 : Word), 64), (0, 2)], f.2 ≤ 64) ∧
      [((5 : Word), 2), (7, 64)].flatMap (fun f => natBits f.1.toNat f.2) =
        [((29 : Word), 64), (0, 2)].flatMap (fun f => natBits f.1.toNat f.2)) :=
  ⟨by decide, pending_inv, rfl, by decide, by decide, by decide⟩

theorem witness_PaddingStaysZero :
    (∃ t, (writing 1 5 7).cache >>> (64 - (writing 1 5 7).free.val) = 0 ∧
      putBits (writing 1 5 7) 7 64 = .ok t) ∧
    (∃ t, (writing 63 1 0).Inv ∧ (writing 63 1 0).mode = .write ∧ (writing 63 1 0).fault = .none ∧
      (writing 63 1 0).free.val < 64 ∧ exec .flip (writing 63 1 0) = .next t ∧ t.fault = .none) :=
  ⟨⟨_, by decide, rfl⟩, ⟨_, inv_of_smallInv (by decide), rfl, rfl, by decide, rfl, rfl⟩⟩

/-- A put of 64 bits into a full cache with one word of room left, and of one bit with none. -/
theorem witness_PutbAppendsBits :
    ((writing 0 5 5).Inv ∧ (writing 0 5 5).fault = .none ∧ (writing 0 5 5).mode = .write ∧
      (writing 0 5 5).hasRoom 64) ∧
    (full.Inv ∧ full.fault = .none ∧ full.mode = .write ∧ ¬ full.hasRoom 1) :=
  ⟨⟨loaded_inv, rfl, rfl, by unfold State.hasRoom; decide⟩,
    ⟨full_inv, rfl, rfl, by unfold State.hasRoom; decide⟩⟩

/-- A get of 64 bits with exactly one word left, and of one bit with none. -/
theorem witness_GetbTakesBits :
    ((reading 0x1234).Inv ∧ (reading 0x1234).fault = .none ∧ (reading 0x1234).mode = .read ∧
      (reading 0x1234).hasData 64) ∧
    (drained.Inv ∧ drained.fault = .none ∧ drained.mode = .read ∧ ¬ drained.hasData 1) :=
  ⟨⟨reading_inv, rfl, rfl, by unfold State.hasData; decide⟩,
    ⟨drained_inv, rfl, rfl, by unfold State.hasData; decide⟩⟩

/-- Two fields that fill the one word of the buffer. -/
theorem witness_BoundaryCrossingRoundTrip :
    ∃ t u, (writing 64 0 5).Inv ∧ (writing 64 0 5).fault = .none ∧ (writing 64 0 5).mode = .write ∧
      (writing 64 0 5).free.val = 64 ∧ (writing 64 0 5).wpos = 0 ∧
      (∀ f ∈ [((7 : Word), 63), (1, 1)], f.2 ≤ 64) ∧
      putFields (writing 64 0 5) [((7 : Word), 63), (1, 1)] = .ok t ∧ exec .flip t = .next u ∧
      u.fault = .none ∧
      8 * ((([((7 : Word), 63), (1, 1)].map Prod.snd).sum + 63) / 64) ≤ (writing 64 0 5).cap.toNat :=
  ⟨_, _, writing_inv, rfl, rfl, rfl, rfl, by decide, rfl, rfl, rfl, by decide⟩

theorem witness_AtMostTwoWordAccesses :
    (∃ t, (Instr.putb 64).wellFormed = true ∧ (writing 0 5 5).Inv ∧ exec (.putb 64) (writing 0 5 5) = .next t ∧
      neededMode (.putb 64) = some .write) ∧
    (∃ t, (Instr.getb 64).wellFormed = true ∧ (reading 0x1234).Inv ∧
      exec (.getb 64) (reading 0x1234) = .next t ∧ neededMode (.getb 64) = some .read) :=
  ⟨⟨_, rfl, loaded_inv, rfl, rfl⟩, ⟨_, rfl, reading_inv, rfl, rfl⟩⟩

theorem witness_FixedPutsAppendValue :
    ((writing 0 5 5).Inv ∧ (writing 0 5 5).fault = .none ∧ (writing 0 5 5).mode = .write ∧
      (writing 0 5 5).hasRoom (typeWidth .long)) ∧
    (full.Inv ∧ full.fault = .none ∧ full.mode = .write ∧ ¬ full.hasRoom (typeWidth .byte)) :=
  ⟨⟨loaded_inv, rfl, rfl, by unfold State.hasRoom; decide⟩,
    ⟨full_inv, rfl, rfl, by unfold State.hasRoom; decide⟩⟩

theorem witness_FixedGetsWidenValue :
    ((reading 0x1234).Inv ∧ (reading 0x1234).fault = .none ∧ (reading 0x1234).mode = .read ∧
      (reading 0x1234).hasData (typeWidth .double)) ∧
    (drained.Inv ∧ drained.fault = .none ∧ drained.mode = .read ∧ ¬ drained.hasData (typeWidth .byte)) :=
  ⟨⟨reading_inv, rfl, rfl, by unfold State.hasData; decide⟩,
    ⟨drained_inv, rfl, rfl, by unfold State.hasData; decide⟩⟩

/-- The state before the put, after it, after FLIP, and with the first three bits read. -/
theorem witness_FixedRoundTrip :
    ∃ t u v g : State, (writing 61 5 0xFFFF8001).Inv ∧ (writing 61 5 0xFFFF8001).fault = .none ∧
      (writing 61 5 0xFFFF8001).mode = .write ∧
      exec (putOf .short .big) (writing 61 5 0xFFFF8001) = .next t ∧ t.fault = .none ∧
      exec .flip t = .next u ∧ u.fault = .none ∧ getBits u 3 = .ok (v.cache, g) ∧
      g.Inv ∧ g.fault = .none ∧ g.mode = .read ∧
      g.unread = u.unread.drop (writing 61 5 0xFFFF8001).appended.length :=
  ⟨_, _, writing 61 5 0, _, inv_of_smallInv (by decide), rfl, rfl, rfl, rfl, rfl, rfl, rfl,
    inv_of_smallInv (by decide), rfl, rfl, by decide⟩

/-- Seven whole bytes are pending. -/
theorem witness_ByteViewOfFixedPuts :
    ∃ t u, (writing 8 5 9).Inv ∧ (writing 8 5 9).fault = .none ∧ (writing 8 5 9).mode = .write ∧
      (writing 8 5 9).appended.length % 8 = 0 ∧ exec (putOf .byte .big) (writing 8 5 9) = .next t ∧
      t.fault = .none ∧ exec .flip t = .next u ∧ u.fault = .none ∧ 0 < typeWidth .byte / 8 :=
  ⟨_, _, inv_of_smallInv (by decide), rfl, rfl, by decide, rfl, rfl, rfl, rfl, by decide⟩

/-- The longest encoding with one word of room left; the same with none; and the least magnitude there is. -/
theorem witness_AdaptivePutsAppendEncoding :
    ((writing 64 0 (-1)).Inv ∧ (-1 : Int) = ((writing 64 0 (-1)).operand.setWidth (widthBits .w64)).toInt ∧
      (-1 : Int) ≠ -(2 ^ (widthBits .w64 - 1) : Int) ∧ (writing 64 0 (-1)).hasRoom
        (encodingBits .w64 .either .half (-1)).length) ∧
    (full.Inv ∧ full.fault = .none ∧ full.mode = .write ∧
      (1 : Int) = (full.operand.setWidth (widthBits .w16)).toInt ∧
      ¬ full.hasRoom (encodingBits .w16 .positive .blocked 1).length) ∧
    ((writing 0 5 0x7FFFFFFFFFFFFFFF).Inv ∧
      (2 ^ 63 - 1 : Int) = ((writing 0 5 0x7FFFFFFFFFFFFFFF).operand.setWidth (widthBits .w64)).toInt ∧
      ¬ (writing 0 5 0x7FFFFFFFFFFFFFFF).hasRoom
        (encodingBits .w64 .either .half (2 ^ 63 - 1)).length) :=
  ⟨⟨inv_of_smallInv (by decide), by decide, by decide, by unfold State.hasRoom; decide⟩,
    ⟨full_inv, rfl, rfl, by decide, by unfold State.hasRoom; decide⟩,
    ⟨inv_of_smallInv (by decide), by decide, by unfold State.hasRoom; decide⟩⟩

theorem witness_AdaptiveGetsDecodeStream :
    ((reading 0x1234).Inv ∧ (reading 0x1234).fault = .none ∧ (reading 0x1234).mode = .read ∧
      ∃ r rest, decodeBits .w64 .positive .half (reading 0x1234).unread = some (r, rest)) ∧
    (drained.Inv ∧ drained.fault = .none ∧ drained.mode = .read ∧
      decodeBits .w16 .positive .blocked drained.unread = none) :=
  ⟨⟨reading_inv, rfl, rfl, ⟨_, _, rfl⟩⟩, ⟨drained_inv, rfl, rfl, rfl⟩⟩

theorem witness_MostNegativeValueFaults :
    (writing 64 0 0x18000).fault = .none ∧ (writing 64 0 0x18000).mode = .write ∧
    ((writing 64 0 0x18000).operand.setWidth (widthBits .w16)).toInt = -(2 ^ (widthBits .w16 - 1) : Int) ∧
    ((writing 64 0 0x8000000000000000).operand.setWidth (widthBits .w64)).toInt =
      -(2 ^ (widthBits .w64 - 1) : Int) := by decide

theorem witness_EncodingIsSelfDelimiting :
    (0 : Int).natAbs < 2 ^ (widthBits .w16 - 1) ∧ (-32767 : Int).natAbs < 2 ^ (widthBits .w16 - 1) := by decide

theorem witness_AdaptiveRoundTrip :
    ∃ t u, (writing 64 0 0xFFFF8001).Inv ∧ (writing 64 0 0xFFFF8001).fault = .none ∧
      (writing 64 0 0xFFFF8001).mode = .write ∧
      (-32767 : Int) = ((writing 64 0 0xFFFF8001).operand.setWidth (widthBits .w16)).toInt ∧
      (-32767 : Int) ≠ -(2 ^ (widthBits .w16 - 1) : Int) ∧ signFits .negative (-32767) ∧
      exec (putvOf .w16 .negative .half) (writing 64 0 0xFFFF8001) = .next t ∧ t.fault = .none ∧
      exec .flip t = .next u ∧ u.fault = .none ∧ u.Inv ∧ u.mode = .read ∧
      u.unread = u.unread.drop (writing 64 0 0xFFFF8001).appended.length :=
  ⟨_, _, inv_of_smallInv (by decide), rfl, rfl, by decide, by decide,
    by unfold signFits; decide, rfl, rfl, rfl, rfl, inv_of_smallInv (by decide), rfl, by decide⟩

/-- 2^11 escapes in the 16-bit HALF format and 2^11 - 1 does not. -/
theorem witness_EscapeThresholds :
    (2048 : Int).natAbs < 2 ^ (widthBits .w16 - 1) ∧ smallestEscaped .w16 .half ≤ (2048 : Int).natAbs ∧
    (-2047 : Int).natAbs < 2 ^ (widthBits .w16 - 1) ∧ (-2047 : Int).natAbs < smallestEscaped .w16 .half := by
  decide

theorem witness_AllocStartsFreshBuffer :
    ((writing 64 0 8).Inv ∧ (writing 64 0 8).operand.toNat ≤ Config.capMax) ∧
    ((writing 64 0 (-1)).Inv ∧ Config.capMax < (writing 64 0 (-1)).operand.toNat ∧
      (writing 64 0 (-1)).fault = .none) ∧
    (({ faulted with operand := -1 } : State).Inv ∧
      Config.capMax < ({ faulted with operand := -1 } : State).operand.toNat ∧
      ({ faulted with operand := -1 } : State).fault ≠ .none) := by
  have h := Config.capMaxIndex.isLt
  refine ⟨⟨inv_of_smallInv (by decide), ?_⟩, ⟨inv_of_smallInv (by decide), ?_, rfl⟩,
    ⟨inv_of_smallInv (by decide), ?_, by decide⟩⟩
  · show 8 ≤ Config.capMax
    unfold Config.capMax; omega
  · show _ < 18446744073709551615
    unfold Config.capMax; omega
  · show _ < 18446744073709551615
    unfold Config.capMax; omega

/-- One pending bit with a word of room; a full cache with none; nothing pending; read mode. -/
theorem witness_FlipFlushesAndRewinds :
    ((writing 63 1 0).Inv ∧ (writing 63 1 0).fault = .none ∧ (writing 63 1 0).mode = .write ∧
      (writing 63 1 0).free.val < 64 ∧
      (writing 63 1 0).wpos.toNat + 8 ≤ (writing 63 1 0).cap.toNat) ∧
    (full.Inv ∧ full.fault = .none ∧ full.mode = .write ∧ full.free.val < 64 ∧
      full.cap.toNat < full.wpos.toNat + 8) ∧
    ((writing 64 0 5).Inv ∧ (writing 64 0 5).free.val = 64) ∧
    ((reading 0x1234).Inv ∧ (reading 0x1234).mode = .read) :=
  ⟨⟨inv_of_smallInv (by decide), rfl, rfl, by decide, by decide⟩,
    ⟨full_inv, rfl, rfl, by decide, by decide⟩, ⟨writing_inv, rfl⟩, ⟨reading_inv, rfl⟩⟩

theorem witness_FlipIsIdempotent :
    (∃ t, (writing 61 5 5).fault = .none ∧ exec .flip (writing 61 5 5) = .next t ∧ t.fault = .none) ∧
    (∃ t, drained.fault = .none ∧ exec .flip drained = .next t ∧ drained.mode = .read) :=
  ⟨⟨_, rfl, rfl, rfl⟩, ⟨_, rfl, rfl, rfl⟩⟩

theorem witness_FlipMakesStreamReadable :
    ∃ t, (writing 61 5 5).Inv ∧ (writing 61 5 5).fault = .none ∧ (writing 61 5 5).mode = .write ∧
      exec .flip (writing 61 5 5) = .next t ∧ t.fault = .none :=
  ⟨_, pending_inv, rfl, rfl, rfl, rfl⟩

/-- Nothing consumed, all consumed, and write mode. -/
theorem witness_CompactRemovesConsumedWords :
    ((reading 0x1234).Inv ∧ (reading 0x1234).fault = .none ∧ (reading 0x1234).mode = .read ∧
      0 < (reading 0x1234).wpos.toNat - (reading 0x1234).rpos.toNat) ∧
    (drained.Inv ∧ drained.fault = .none ∧ drained.mode = .read) ∧
    ((writing 61 5 5).Inv ∧ (writing 61 5 5).fault = .none ∧ (writing 61 5 5).mode = .write) :=
  ⟨⟨reading_inv, rfl, rfl, by decide⟩, ⟨drained_inv, rfl, rfl⟩, ⟨pending_inv, rfl, rfl⟩⟩

theorem witness_FlipAfterCompactRewindsToNewStart :
    ∃ t u, drained.Inv ∧ drained.fault = .none ∧ drained.mode = .read ∧ exec .compact drained = .next t ∧
      exec .flip t = .next u := ⟨_, _, drained_inv, rfl, rfl, rfl, rfl⟩

theorem witness_OnlyAllocAndResetLeaveReadMode :
    (∃ t, step (presenting (reading 1) 0x30 8) = .next t ∧ (presenting (reading 1) 0x30 8).mode = .read ∧
      t.mode = .write) ∧
    (∃ t, step { reading 1 with pending := [.reset] } = .next t ∧ t.mode = .write) :=
  ⟨⟨_, rfl, rfl, rfl⟩, ⟨_, rfl, rfl⟩⟩

theorem witness_ResultWrittenOnlyByGetsAndRdreg :
    ∃ t, (presenting (reading 5) 0x3F02 0).pending = .command 0x3F02 0 :: [] ∧
      step (presenting (reading 5) 0x3F02 0) = .next t ∧ t.result ≠ (presenting (reading 5) 0x3F02 0).result :=
  ⟨_, rfl, rfl, by decide⟩

/-- One command of each row, and a faulted one. -/
theorem witness_CommandsWriteOnlyTheirState :
    (∃ t, (writing 0 5 5).Inv ∧ exec (.putb 64) (writing 0 5 5) = .next t ∧
      neededMode (.putb 64) = some .write) ∧
    (∃ t, (reading 0x1234).Inv ∧ exec (.getb 1) (reading 0x1234) = .next t ∧
      neededMode (.getb 1) = some .read) ∧
    (∃ t, exec .flip (writing 61 5 5) = .next t) ∧
    (∃ t, exec .compact (reading 0x1234) = .next t) ∧
    (∃ t, exec (.rdreg .fault) faulted = .next t) ∧
    (∃ t, full.Inv ∧ exec .flip full = .next t ∧ t.reply = some (.response false t.result)) :=
  ⟨⟨_, loaded_inv, rfl, rfl⟩, ⟨_, reading_inv, rfl, rfl⟩, ⟨_, rfl⟩, ⟨_, rfl⟩, ⟨_, rfl⟩,
    ⟨_, full_inv, rfl, rfl⟩⟩

end Sys2Proof.Tests
end

section
/-!
PROOFS. The parameter and the value operators of 00_scope.md: the bounds of CAP_MAX (R8), the byte reversal
`byterev_N` (R13) and `bit_length` (R14). Each operator gets one lemma that says what it computes, from which its
obligation follows.
-/

namespace Sys2Proof.Machine

/-! ## CAP_MAX (R8) -/

/-- Settles O12: the bounds of the 58-bit parameter, scaled by the eight bytes of a word. -/
theorem capMaxInBounds : Obligations.CapMaxInBounds := by
  unfold Obligations.CapMaxInBounds Config.capMax
  have hindex : Config.capMaxIndex.toNat < 2 ^ 58 := Config.capMaxIndex.isLt
  refine ⟨?multiple, ?lower, ?upper⟩
  case multiple => exact Nat.mul_mod_right 8 _
  case lower => omega
  case upper => omega

/-! ## byterev_N (R13) -/

/-- Bit `i` of one more round of `byterev`: the reversal of the upper bytes, and above it the lowest byte. -/
theorem byterev_succ_getLsbD (n : Nat) (x : Word) (i : Nat) :
    (byterev (n + 1) x).getLsbD i =
      ((byterev n (x >>> 8)).getLsbD i ||
        (decide (i < 64) && decide (8 * n ≤ i) && decide (i < 8 * n + 8) && x.getLsbD (i - 8 * n))) := by
  rw [byterev, BitVec.getLsbD_or, BitVec.getLsbD_shiftLeft, BitVec.getLsbD_and, mask_getLsbD]
  congr 1
  cases x.getLsbD (i - 8 * n)
  · simp
  · rw [Bool.eq_iff_iff]
    simp only [Bool.true_and, Bool.and_true, Bool.and_eq_true, Bool.not_eq_true', decide_eq_true_eq,
      decide_eq_false_iff_not]
    omega

/-- Bit `i` of the reversal of n bytes is bit `i % 8` of byte n - 1 - `i / 8`, and zero from bit 8n on. -/
theorem byterev_getLsbD {n : Nat} (hn : n ≤ 8) (x : Word) (i : Nat) :
    (byterev n x).getLsbD i = (decide (i < 8 * n) && x.getLsbD (8 * (n - 1 - i / 8) + i % 8)) := by
  induction n generalizing x with
  | zero => simp [byterev]
  | succ n ih =>
    rw [byterev_succ_getLsbD, ih (by omega), BitVec.getLsbD_ushiftRight]
    rcases Nat.lt_or_ge i (8 * n) with hlow | hhigh
    · have hsource : 8 + (8 * (n - 1 - i / 8) + i % 8) = 8 * (n + 1 - 1 - i / 8) + i % 8 := by omega
      simp [hsource, hlow, show ¬ 8 * n ≤ i by omega, show i < 8 * (n + 1) by omega]
    · rcases Nat.lt_or_ge i (8 * (n + 1)) with htop | hout
      · have hsource : i - 8 * n = 8 * (n + 1 - 1 - i / 8) + i % 8 := by omega
        simp [hsource, hhigh, htop, show ¬ i < 8 * n by omega, show i < 64 by omega,
          show i < 8 * n + 8 by omega]
      · simp [show ¬ i < 8 * n by omega, show ¬ i < 8 * n + 8 by omega, show ¬ i < 8 * (n + 1) by omega]

/-- Settles O22: both halves read off bit by bit. -/
theorem byterevReversesBytes : Obligations.ByterevReversesBytes := by
  intro n hn x
  constructor
  · intro k hk
    apply BitVec.eq_of_getLsbD_eq
    intro j hj
    have hbyte : (8 * k + j) / 8 = k := by omega
    have hbit : (8 * k + j) % 8 = j := by omega
    simp [byterev_getLsbD hn, hbyte, hbit, show 8 * k + j < 8 * n by omega]
  · apply BitVec.eq_of_getLsbD_eq
    intro j _
    simp [byterev_getLsbD hn]

/-! ## bit_length (R14) -/

/-- With fuel for the whole of `m`, the number of halvings is at most n exactly when `m` has at most n bits. -/
theorem lt_two_pow_iff_bitLengthFrom_le {fuel m : Nat} (hm : m < 2 ^ fuel) (n : Nat) :
    m < 2 ^ n ↔ bitLengthFrom fuel m ≤ n := by
  induction fuel generalizing m n with
  | zero =>
    obtain rfl : m = 0 := by simpa using hm
    simp [bitLengthFrom]
  | succ fuel ih =>
    rcases Nat.eq_zero_or_pos m with rfl | hpos
    · simp [bitLengthFrom]
    · have hne : m ≠ 0 := by omega
      rw [bitLengthFrom, if_neg hne]
      cases n with
      | zero => simp [hne]
      | succ n =>
        have hhalf : m / 2 < 2 ^ fuel := by rw [Nat.pow_succ] at hm; omega
        calc m < 2 ^ (n + 1) ↔ m / 2 < 2 ^ n := by rw [Nat.pow_succ]; omega
          _ ↔ bitLengthFrom fuel (m / 2) ≤ n := ih hhalf n
          _ ↔ bitLengthFrom fuel (m / 2) + 1 ≤ n + 1 := Nat.succ_le_succ_iff.symm

/-- Settles O23: 64 halvings are enough for a 64-bit magnitude. -/
theorem bitLengthIsLeast : Obligations.BitLengthIsLeast := fun m n =>
  lt_two_pow_iff_bitLengthFrom_le m.isLt n

end Sys2Proof.Machine
end

section
/-!
PROOFS. What a command and a step can do, said once (10_state.md R54, 60_exceptions.md R282): each command ends by
completing with its effect, by a fault or refused, and a step is one command, one host read, one reset or nothing.
Every statement on the steps of the machine is read off these inversion lemmas.
-/

namespace Sys2Proof.Machine

/-! ## Attempts that keep a property

A rule's working copy is an `Attempt`; `Yields` is what the rules below say of one, so that a command is followed
through its parts without its cases being split again in each proof. -/

/-- The value of a completed attempt has the property `P`, and a failed one carries the code of a fault. -/
structure Yields {α : Type} (attempt : Attempt α) (P : α → Prop) : Prop where
  value : ∀ x, attempt = .ok x → P x
  code_ne : ∀ code, attempt = .error code → code ≠ .none

theorem Yields.of_ok {α : Type} {P : α → Prop} {x : α} (h : P x) : Yields (.ok x) P :=
  ⟨fun _ hx => Except.ok.inj hx ▸ h, fun _ hx => nomatch hx⟩

theorem Yields.of_error {α : Type} {P : α → Prop} {code : FaultCode} (h : code ≠ .none) :
    Yields (.error code) P :=
  ⟨fun _ hx => (nomatch hx), fun _ hx => Except.error.inj hx ▸ h⟩

theorem Yields.imp {α : Type} {P Q : α → Prop} {attempt : Attempt α} (h : Yields attempt P)
    (hPQ : ∀ x, P x → Q x) : Yields attempt Q :=
  ⟨fun x hx => hPQ x (h.value x hx), h.code_ne⟩

/-- A rule behind the MODE check runs only in that mode (60_exceptions.md R286). -/
theorem Yields.inMode {α : Type} {P : α → Prop} {m : Mode} {s : State} {attempt : Attempt α}
    (h : s.mode = m → Yields attempt P) : Yields (inMode m s attempt) P := by
  by_cases hm : s.mode = m
  · rw [inMode_of_eq hm]; exact h hm
  · rw [inMode_of_ne hm]; exact .of_error (by decide)

/-! ## Chains of PutBits and of GetBits

Every put is a chain of PutBits and every get a chain of GetBits (40_bit_engine.md R124, R125), whatever the command
and its fields, so a fact about them is an induction on the chain. -/

/-- `t` is reached from `s` by completed PutBits. -/
def PutsTo : State → State → Prop :=
  Relation.ReflTransGen fun s t => ∃ v w, putBits s v w = .ok t

/-- `t` is reached from `s` by completed GetBits. -/
def GetsTo : State → State → Prop :=
  Relation.ReflTransGen fun s t => ∃ w r, getBits s w = .ok (r, t)

theorem putBits_yields (s : State) (v : Word) (w : Nat) : Yields (putBits s v w) (PutsTo s) where
  value t h := .single ⟨v, w, h⟩
  code_ne code h := by
    rcases putBits_cases s v w with ⟨_, hok⟩ | ⟨_, _, hok⟩ | ⟨_, _, herror⟩
    · exact nomatch hok.symm.trans h
    · exact nomatch hok.symm.trans h
    · exact Except.error.inj (herror.symm.trans h) ▸ by decide

theorem getBits_yields (s : State) (w : Nat) : Yields (getBits s w) fun p => GetsTo s p.2 where
  value p h := .single ⟨w, p.1, h⟩
  code_ne code h := by
    rcases getBits_cases s w with ⟨_, hok⟩ | ⟨_, _, hok⟩ | ⟨_, _, herror⟩
    · exact nomatch hok.symm.trans h
    · exact nomatch hok.symm.trans h
    · exact Except.error.inj (herror.symm.trans h) ▸ by decide

theorem putFields_yields (s : State) (fields : List (Word × Nat)) :
    Yields (putFields s fields) (PutsTo s) := by
  induction fields generalizing s with
  | nil => exact .of_ok .refl
  | cons field fields ih =>
    obtain ⟨v, w⟩ := field
    rw [putFields]
    split
    · next t hput =>
      exact (ih t).imp fun u hu => ((putBits_yields s v w).value t hput).trans hu
    · next code hput => exact .of_error ((putBits_yields s v w).code_ne code hput)

theorem getSign_yields (sm : SignMode) (s : State) : Yields (getSign sm s) fun p => GetsTo s p.2 := by
  cases sm with
  | positive => exact .of_ok .refl
  | negative => exact .of_ok .refl
  | either => exact getBits_yields s 1

theorem getMagnitude_yields (w : IntWidth) (st : Strategy) (flag : Word) (s : State) :
    Yields (getMagnitude w st flag s) fun p => GetsTo s p.2 := by
  unfold getMagnitude
  split
  · exact getBits_yields s _
  · cases st with
    | half =>
      simp only
      split
      · next h t hget =>
        exact (getBits_yields t _).imp fun p hp => ((getBits_yields s _).value _ hget).trans hp
      · next code hget => exact .of_error ((getBits_yields s _).code_ne code hget)
    | blocked =>
      simp only
      split
      · next n t hget =>
        exact (getBits_yields t _).imp fun p hp => ((getBits_yields s _).value _ hget).trans hp
      · next code hget => exact .of_error ((getBits_yields s _).code_ne code hget)

/-! ## What a command's working copy is when it completes -/

/-- `t` is the working copy of the completed command `i` on `s`, with the conditions it completes under: the rows of
the state-transition table (10_state.md R45). -/
inductive Effect : Instr → State → State → Prop
  | puts {i : Instr} {s t : State} (kind : neededMode i = some .write) (mode : s.mode = .write)
      (chain : PutsTo s t) : Effect i s t
  | gets {i : Instr} {s t : State} (r : Word) (kind : neededMode i = some .read) (mode : s.mode = .read)
      (chain : GetsTo s t) : Effect i s (t.withResult r)
  | alloc {s : State} (fits : s.operand.toNat ≤ Config.capMax) : Effect .alloc s (s.allocated s.operand)
  | flush {s : State} (mode : s.mode = .write) (bits : s.free.val < 64)
      (room : s.wpos.toNat + 8 ≤ s.cap.toNat) : Effect .flip s (s.flushed s.cache).rewound
  | rewind {s : State} (nothing : ¬ (s.mode = .write ∧ s.free.val < 64)) : Effect .flip s s.rewound
  | keep {s : State} (mode : s.mode = .write) : Effect .compact s s
  | compact {s : State} (mode : s.mode = .read) : Effect .compact s s.compacted
  | rdreg (idx : RegIndex) {s : State} : Effect (.rdreg idx) s (s.withResult (s.register idx))

/-- A get's value and working copy before the value goes to RESULT. -/
def HasRead (s : State) (p : Word × State) : Prop := s.mode = .read ∧ GetsTo s p.2

/-- Putting a get's value into RESULT is the effect of a GET-type command. -/
theorem Yields.toResult {i : Instr} (kind : neededMode i = some .read) {s : State}
    {attempt : Attempt (Word × State)} (h : Yields attempt (HasRead s)) :
    Yields (toResult attempt) (Effect i s) := by
  cases hget : attempt with
  | ok p =>
    obtain ⟨mode, chain⟩ := h.value p hget
    exact .of_ok (.gets p.1 kind mode chain)
  | error code => exact .of_error (h.code_ne code hget)

theorem putb_yields (s : State) (w : Nat) :
    Yields (inMode .write s (putBits s s.operand w)) (Effect (.putb w) s) :=
  .inMode fun mode => (putBits_yields s _ w).imp fun _ => .puts rfl mode

theorem getb_yields (s : State) (w : Nat) :
    Yields (inMode .read s (toResult (getBits s w))) (Effect (.getb w) s) :=
  .inMode fun mode => Yields.toResult rfl ((getBits_yields s w).imp fun _ chain => ⟨mode, chain⟩)

theorem putFixed_yields {i : Instr} (kind : neededMode i = some .write) (n : Nat) (bo : ByteOrder)
    (s : State) : Yields (putFixed n bo s) (Effect i s) :=
  .inMode fun mode => (putBits_yields s _ n).imp fun _ => .puts kind mode

theorem getFixed_yields (n : Nat) (ext : Extension) (bo : ByteOrder) (s : State) :
    Yields (getFixed n ext bo s) (HasRead s) := by
  refine .inMode fun mode => ?_
  split
  · next x t hget =>
    have chain : GetsTo s t := (getBits_yields s n).value _ hget
    exact .of_ok ⟨mode, chain⟩
  · next code hget => exact .of_error ((getBits_yields s n).code_ne code hget)

theorem putAdaptive_yields {i : Instr} (kind : neededMode i = some .write) (w : IntWidth) (sm : SignMode)
    (st : Strategy) (s : State) : Yields (putAdaptive w sm st s) (Effect i s) := by
  refine .inMode fun mode => ?_
  dsimp only
  split
  · exact .of_error (by decide)
  · exact (putFields_yields s _).imp fun _ => .puts kind mode

theorem getAdaptive_yields (w : IntWidth) (sm : SignMode) (st : Strategy) (s : State) :
    Yields (getAdaptive w sm st s) (HasRead s) := by
  refine .inMode fun mode => ?_
  split
  · next code hflag => exact .of_error ((getBits_yields s 1).code_ne code hflag)
  · next flag s1 hflag =>
    split
    · next code hsign => exact .of_error ((getSign_yields sm s1).code_ne code hsign)
    · next sign s2 hsign =>
      split
      · next code hmag => exact .of_error ((getMagnitude_yields w st flag s2).code_ne code hmag)
      · next m s3 hmag =>
        have h1 : GetsTo s s1 := (getBits_yields s 1).value _ hflag
        have h2 : GetsTo s1 s2 := (getSign_yields sm s1).value _ hsign
        have h3 : GetsTo s2 s3 := (getMagnitude_yields w st flag s2).value _ hmag
        exact .of_ok ⟨mode, (h1.trans h2).trans h3⟩

theorem allocate_yields (s : State) : Yields (allocate s) (Effect .alloc s) := by
  unfold allocate
  split
  · exact .of_error (by decide)
  · next h => exact .of_ok (.alloc (Nat.not_lt.1 h))

theorem flipBuffer_yields (s : State) : Yields (flipBuffer s) (Effect .flip s) := by
  unfold flipBuffer flushWord
  split
  · next h =>
    obtain ⟨mode, bits⟩ := h
    rcases Nat.lt_or_ge s.cap.toNat (s.wpos.toNat + 8) with hfull | hroom
    · rw [if_pos hfull]; exact .of_error (by decide)
    · rw [if_neg (Nat.not_lt.2 hroom)]; exact .of_ok (.flush mode bits hroom)
  · next h => exact .of_ok (.rewind h)

theorem compactBuffer_effect (s : State) : Effect .compact s (compactBuffer s) := by
  unfold compactBuffer
  split
  · next mode => exact .keep mode
  · next mode => exact .compact mode

/-! ## How a command ends -/

/-- `t` is `s` after a command word ended (60_exceptions.md R282); `o` is the command the word stands for, if it is
legal. -/
inductive CommandEnds (o : Option Instr) (s : State) : State → Prop
  | completes {i : Instr} {u : State} (legal : o = some i)
      (runs : s.fault = .none ∨ runsWhileFaulted i = true) (effect : Effect i s u) :
      CommandEnds o s (u.respond true)
  | faults {code : FaultCode} (clear : s.fault = .none) (code_ne : code ≠ .none) :
      CommandEnds o s (s.faultedWith code)
  | refused (faulted : s.fault ≠ .none) : CommandEnds o s s.refuse

/-- A fault is recorded, or is the answer of an ALLOC that keeps the first one (R281). -/
theorem raise_ends {o : Option Instr} {s : State} {code : FaultCode} (h : code ≠ .none) :
    CommandEnds o s (s.raise code) := by
  by_cases clear : s.fault = .none
  · rw [State.raise_of_none clear]; exact .faults clear h
  · rw [State.raise_of_fault clear]; exact .refused clear

theorem finish_ends {i : Instr} {s t : State} {attempt : Attempt State}
    (runs : s.fault = .none ∨ runsWhileFaulted i = true) (h : Yields attempt (Effect i s))
    (hnext : finish s attempt = .next t) : CommandEnds (some i) s t := by
  cases hend : attempt with
  | ok u =>
    rw [hend, finish_ok] at hnext
    exact Host.Outcome.next.inj hnext ▸ .completes rfl runs (h.value u hend)
  | error code =>
    rw [hend, finish_error] at hnext
    exact Host.Outcome.next.inj hnext ▸ raise_ends (h.code_ne code hend)

theorem unlessFaulted_ends {i : Instr} {s t : State} {attempt : Attempt State}
    (h : Yields attempt (Effect i s)) (hnext : unlessFaulted s attempt = .next t) :
    CommandEnds (some i) s t := by
  by_cases clear : s.fault = .none
  · rw [unlessFaulted_of_none clear] at hnext
    exact finish_ends (.inl clear) h hnext
  · rw [unlessFaulted_of_fault clear] at hnext
    exact Host.Outcome.next.inj hnext ▸ .refused clear

/-- Everything a command can do. -/
theorem exec_ends {i : Instr} {s t : State} (h : exec i s = .next t) : CommandEnds (some i) s t := by
  cases i with
  | putb w => exact unlessFaulted_ends (putb_yields s w) h
  | getb w => exact unlessFaulted_ends (getb_yields s w) h
  | putByte bo => exact unlessFaulted_ends (putFixed_yields rfl 8 bo s) h
  | putChar bo => exact unlessFaulted_ends (putFixed_yields rfl 16 bo s) h
  | putShort bo => exact unlessFaulted_ends (putFixed_yields rfl 16 bo s) h
  | putInt bo => exact unlessFaulted_ends (putFixed_yields rfl 32 bo s) h
  | putLong bo => exact unlessFaulted_ends (putFixed_yields rfl 64 bo s) h
  | putFloat bo => exact unlessFaulted_ends (putFixed_yields rfl 32 bo s) h
  | putDouble bo => exact unlessFaulted_ends (putFixed_yields rfl 64 bo s) h
  | getByte bo => exact unlessFaulted_ends (.toResult rfl (getFixed_yields 8 .sign bo s)) h
  | getChar bo => exact unlessFaulted_ends (.toResult rfl (getFixed_yields 16 .zero bo s)) h
  | getShort bo => exact unlessFaulted_ends (.toResult rfl (getFixed_yields 16 .sign bo s)) h
  | getInt bo => exact unlessFaulted_ends (.toResult rfl (getFixed_yields 32 .sign bo s)) h
  | getLong bo => exact unlessFaulted_ends (.toResult rfl (getFixed_yields 64 .zero bo s)) h
  | getFloat bo => exact unlessFaulted_ends (.toResult rfl (getFixed_yields 32 .zero bo s)) h
  | getDouble bo => exact unlessFaulted_ends (.toResult rfl (getFixed_yields 64 .zero bo s)) h
  | putv16 sm st => exact unlessFaulted_ends (putAdaptive_yields rfl .w16 sm st s) h
  | putv32 sm st => exact unlessFaulted_ends (putAdaptive_yields rfl .w32 sm st s) h
  | putv64 sm st => exact unlessFaulted_ends (putAdaptive_yields rfl .w64 sm st s) h
  | getv16 sm st => exact unlessFaulted_ends (.toResult rfl (getAdaptive_yields .w16 sm st s)) h
  | getv32 sm st => exact unlessFaulted_ends (.toResult rfl (getAdaptive_yields .w32 sm st s)) h
  | getv64 sm st => exact unlessFaulted_ends (.toResult rfl (getAdaptive_yields .w64 sm st s)) h
  | alloc => exact finish_ends (.inr rfl) (allocate_yields s) h
  | flip => exact unlessFaulted_ends (flipBuffer_yields s) h
  | compact => exact unlessFaulted_ends (.of_ok (compactBuffer_effect s)) h
  | rdreg idx => exact finish_ends (.inr rfl) (.of_ok (.rdreg idx)) h

/-- RDREG always completes, so it writes RESULT alone (43_lifecycle.md R258). -/
theorem exec_rdreg (idx : RegIndex) (s : State) :
    exec (.rdreg idx) s = .next ((s.withResult (s.register idx)).respond true) := rfl

theorem illegalCommand_ends {s t : State} (h : illegalCommand s = .next t) : CommandEnds none s t := by
  unfold illegalCommand at h
  by_cases clear : s.fault = .none
  · rw [unlessFaulted_of_none clear, finish_error] at h
    exact Host.Outcome.next.inj h ▸ raise_ends (by decide)
  · rw [unlessFaulted_of_fault clear] at h
    exact Host.Outcome.next.inj h ▸ .refused clear

theorem runCommand_ends {s t : State} (h : runCommand s = .next t) : CommandEnds s.fetched s t := by
  unfold runCommand at h
  split at h
  · next i hfetch => rw [hfetch]; exact exec_ends h
  · next hfetch => rw [hfetch]; exact illegalCommand_ends h

theorem State.fetched_eq_some {s : State} {i : Instr} : s.fetched = some i ↔ decode s.cmd = .ok i := by
  unfold State.fetched
  split
  · next j hdecode => simp [hdecode]
  · next e hdecode => simp [hdecode]

/-! ## What a step can do -/

theorem step_readByte {s : State} {a : Nat} {rest : List HostEvent} (h : s.pending = .readByte a :: rest) :
    step s = hostReadByte (s.taken rest) a := by
  simp [step, h]

theorem step_reset {s : State} {rest : List HostEvent} (h : s.pending = .reset :: rest) :
    step s = .next (s.taken rest).resetAsserted := by
  simp [step, h]

theorem step_idle {s : State} (h : s.pending = []) : step s = .next s := by
  simp [step, h]

/-- A host read below CAP answers the byte (10_state.md R57). -/
theorem hostReadByte_below {s : State} {a : Nat} (h : a < s.cap.toNat) :
    hostReadByte s a = .next { s with reply := some (.byte (s.store.read a)) } := by
  simp [hostReadByte, State.hostRead, h]

/-- A host read at or beyond CAP is refused by name (R57). -/
theorem hostReadByte_beyond {s : State} {a : Nat} (h : s.cap.toNat ≤ a) :
    hostReadByte s a = .refused (.hostReadBeyondCap a) := by
  simp [hostReadByte, State.hostRead, Nat.not_lt.2 h]

/-- `t` is `s` after the host's next event was taken (R53 to R58). -/
inductive StepTakes (s : State) : State → Prop
  | idle (pending : s.pending = []) : StepTakes s s
  | command {c : CommandWord} {o : Word} {rest : List HostEvent} {t : State}
      (pending : s.pending = .command c o :: rest)
      (ends : CommandEnds (s.present c o rest).fetched (s.present c o rest) t) : StepTakes s t
  | hostRead {a : Nat} {rest : List HostEvent} (pending : s.pending = .readByte a :: rest)
      (below : a < s.cap.toNat) :
      StepTakes s { s.taken rest with reply := some (.byte (s.store.read a)) }
  | reset {rest : List HostEvent} (pending : s.pending = .reset :: rest) :
      StepTakes s (s.taken rest).resetAsserted

/-- Everything a step can do. -/
theorem step_takes {s t : State} (h : step s = .next t) : StepTakes s t := by
  match hp : s.pending with
  | [] =>
    rw [step_idle hp] at h
    exact Host.Outcome.next.inj h ▸ .idle hp
  | .command c o :: rest =>
    rw [step_command hp] at h
    exact .command hp (runCommand_ends h)
  | .readByte a :: rest =>
    rw [step_readByte hp] at h
    rcases Nat.lt_or_ge a s.cap.toNat with below | beyond
    · rw [hostReadByte_below (s := s.taken rest) below] at h
      exact Host.Outcome.next.inj h ▸ .hostRead hp below
    · rw [hostReadByte_beyond (s := s.taken rest) beyond] at h
      exact nomatch h
  | .reset :: rest =>
    rw [step_reset hp] at h
    exact Host.Outcome.next.inj h ▸ .reset hp

/-! ## The ports -/

/-- Settles O5: the event is a command, and its word decodes. -/
theorem stepRunsPresentedCommand : Obligations.StepRunsPresentedCommand := by
  intro s c o rest i hpending hdecode
  have hrun : runCommand (s.present c o rest) = exec i (s.present c o rest) := runCommand_of_decode hdecode
  exact (step_command hpending).trans hrun

/-- Settles O6, on either side of CAP. -/
theorem hostReadPort : Obligations.HostReadPort := by
  intro s a rest hpending
  rw [step_readByte hpending]
  exact ⟨fun below => hostReadByte_below (s := s.taken rest) below,
    fun beyond => hostReadByte_beyond (s := s.taken rest) beyond⟩

end Sys2Proof.Machine
end

section
/-!
PROOFS. What each command leaves unchanged: FAULT, FCMD, MODE, RESULT, the cursors and the bytes of the store, first
along a chain of PutBits or GetBits, then for each effect, then for a step (10_state.md R40 to R45, R56).
-/

namespace Sys2Proof.Machine

/-! ## Chains of PutBits and of GetBits -/

/-- The registers a put leaves: all but CACHE, FREE and WPOS. -/
structure KeptByPut (s t : State) : Prop where
  mode : t.mode = s.mode
  cap : t.cap = s.cap
  rpos : t.rpos = s.rpos
  result : t.result = s.result
  fault : t.fault = s.fault
  fcmd : t.fcmd = s.fcmd

/-- What a get leaves before its value goes to RESULT: the store and all registers but CACHE, FREE and RPOS. -/
structure KeptByGet (s t : State) : Prop where
  mode : t.mode = s.mode
  cap : t.cap = s.cap
  wpos : t.wpos = s.wpos
  store : t.store = s.store
  fault : t.fault = s.fault
  fcmd : t.fcmd = s.fcmd

theorem KeptByPut.refl (s : State) : KeptByPut s s := ⟨rfl, rfl, rfl, rfl, rfl, rfl⟩

theorem KeptByPut.trans {s t u : State} (h1 : KeptByPut s t) (h2 : KeptByPut t u) : KeptByPut s u :=
  ⟨h2.mode.trans h1.mode, h2.cap.trans h1.cap, h2.rpos.trans h1.rpos, h2.result.trans h1.result,
    h2.fault.trans h1.fault, h2.fcmd.trans h1.fcmd⟩

theorem KeptByGet.refl (s : State) : KeptByGet s s := ⟨rfl, rfl, rfl, rfl, rfl, rfl⟩

theorem KeptByGet.trans {s t u : State} (h1 : KeptByGet s t) (h2 : KeptByGet t u) : KeptByGet s u :=
  ⟨h2.mode.trans h1.mode, h2.cap.trans h1.cap, h2.wpos.trans h1.wpos, h2.store.trans h1.store,
    h2.fault.trans h1.fault, h2.fcmd.trans h1.fcmd⟩

theorem putBits_registers {s t : State} {v : Word} {w : Nat} (h : putBits s v w = .ok t) :
    KeptByPut s t := by
  rcases putBits_cases s v w with ⟨_, hok⟩ | ⟨_, _, hok⟩ | ⟨_, _, herror⟩
  · obtain rfl := Except.ok.inj (hok.symm.trans h)
    exact ⟨rfl, rfl, rfl, rfl, rfl, rfl⟩
  · obtain rfl := Except.ok.inj (hok.symm.trans h)
    exact ⟨rfl, rfl, rfl, rfl, rfl, rfl⟩
  · exact nomatch herror.symm.trans h

theorem getBits_registers {s t : State} {w : Nat} {r : Word} (h : getBits s w = .ok (r, t)) :
    KeptByGet s t := by
  rcases getBits_cases s w with ⟨_, hok⟩ | ⟨_, _, hok⟩ | ⟨_, _, herror⟩
  · obtain ⟨-, rfl⟩ := Prod.mk.inj (Except.ok.inj (hok.symm.trans h))
    exact ⟨rfl, rfl, rfl, rfl, rfl, rfl⟩
  · obtain ⟨-, rfl⟩ := Prod.mk.inj (Except.ok.inj (hok.symm.trans h))
    exact ⟨rfl, rfl, rfl, rfl, rfl, rfl⟩
  · exact nomatch herror.symm.trans h

theorem PutsTo.registers {s t : State} (h : PutsTo s t) : KeptByPut s t := by
  induction h with
  | refl => exact .refl s
  | tail _ last ih =>
    obtain ⟨v, w, hput⟩ := last
    exact ih.trans (putBits_registers hput)

theorem GetsTo.registers {s t : State} (h : GetsTo s t) : KeptByGet s t := by
  induction h with
  | refl => exact .refl s
  | tail _ last ih =>
    obtain ⟨w, r, hget⟩ := last
    exact ih.trans (getBits_registers hget)

/-- Every byte before `a` and from `b` on is the same: the bytes that flushes moving WPOS from `a` to `b` leave. -/
def SameOutside (a b : Nat) (m n : Memory) : Prop := ∀ x, (x < a ∨ b ≤ x) → n.read x = m.read x

/-- A flush moves WPOS by one word and writes no byte outside that word (20_memory.md R63, 40_bit_engine.md R124). -/
theorem State.flushed_bytes {s : State} (hwf : s.store.wf) (hroom : s.wpos.toNat + 8 ≤ s.cap.toNat)
    (v : Word) :
    (s.flushed v).wpos.toNat = s.wpos.toNat + 8 ∧ (s.flushed v).store.wf ∧
      SameOutside s.wpos.toNat (s.flushed v).wpos.toNat s.store (s.flushed v).store := by
  have hwpos : (s.flushed v).wpos.toNat = s.wpos.toNat + 8 := add_eight_toNat hroom
  refine ⟨hwpos, Memory.wf_writeWord hwf _ _, fun x hx => ?_⟩
  rw [hwpos] at hx
  exact (Memory.read_writeWord hwf _ _ _).trans (if_neg (by omega))

/-- PutBits changes no byte outside the word it flushes. -/
theorem putBits_bytes {s t : State} {v : Word} {w : Nat} (hwf : s.store.wf)
    (h : putBits s v w = .ok t) :
    s.wpos.toNat ≤ t.wpos.toNat ∧ t.store.wf ∧
      SameOutside s.wpos.toNat t.wpos.toNat s.store t.store := by
  rcases putBits_cases s v w with ⟨_, hok⟩ | ⟨_, hroom, hok⟩ | ⟨_, _, herror⟩
  · obtain rfl := Except.ok.inj (hok.symm.trans h)
    exact ⟨le_refl _, hwf, fun _ _ => rfl⟩
  · obtain rfl := Except.ok.inj (hok.symm.trans h)
    obtain ⟨hwpos, hwf', hsame⟩ := State.flushed_bytes hwf hroom _
    exact ⟨hwpos.symm ▸ Nat.le_add_right _ _, hwf', hsame⟩
  · exact nomatch herror.symm.trans h

/-- A chain of PutBits changes no byte outside the words it flushes. -/
theorem PutsTo.bytes {s t : State} (hwf : s.store.wf) (h : PutsTo s t) :
    s.wpos.toNat ≤ t.wpos.toNat ∧ t.store.wf ∧
      SameOutside s.wpos.toNat t.wpos.toNat s.store t.store := by
  induction h with
  | refl => exact ⟨le_refl _, hwf, fun _ _ => rfl⟩
  | tail _ last ih =>
    obtain ⟨v, w, hput⟩ := last
    obtain ⟨hle, hwf', hsame⟩ := ih
    obtain ⟨hle', hwf'', hsame'⟩ := putBits_bytes hwf' hput
    exact ⟨hle.trans hle', hwf'', fun x hx =>
      (hsame' x (by omega)).trans (hsame x (by omega))⟩

/-- GetBits moves RPOS, unless it leaves RPOS and CACHE (40_bit_engine.md R125). -/
theorem getBits_refill {s t : State} {w : Nat} {r : Word} (h : getBits s w = .ok (r, t)) :
    (t.rpos = s.rpos ∧ t.cache = s.cache) ∨ s.rpos.toNat < t.rpos.toNat := by
  rcases getBits_cases s w with ⟨_, hok⟩ | ⟨_, hdata, hok⟩ | ⟨_, _, herror⟩
  · obtain ⟨-, rfl⟩ := Prod.mk.inj (Except.ok.inj (hok.symm.trans h))
    exact .inl ⟨rfl, rfl⟩
  · obtain ⟨-, rfl⟩ := Prod.mk.inj (Except.ok.inj (hok.symm.trans h))
    have hrpos : (s.rpos + 8).toNat = s.rpos.toNat + 8 := add_eight_toNat hdata
    exact .inr (by rw [State.refilled_rpos, hrpos]; omega)
  · exact nomatch herror.symm.trans h

/-- A chain of GetBits moves RPOS, unless it leaves RPOS and CACHE. -/
theorem GetsTo.refill {s t : State} (h : GetsTo s t) :
    (t.rpos = s.rpos ∧ t.cache = s.cache) ∨ s.rpos.toNat < t.rpos.toNat := by
  induction h with
  | refl => exact .inl ⟨rfl, rfl⟩
  | tail _ last ih =>
    obtain ⟨w, r, hget⟩ := last
    rcases ih with ⟨hrpos, hcache⟩ | hlt <;> rcases getBits_refill hget with ⟨hrpos', hcache'⟩ | hlt'
    · exact .inl ⟨hrpos'.trans hrpos, hcache'.trans hcache⟩
    · exact .inr (hrpos ▸ hlt')
    · exact .inr (hrpos'.symm ▸ hlt)
    · exact .inr (hlt.trans hlt')

/-! ## The effect of each kind of command (R45) -/

/-- Only ALLOC touches FAULT and FCMD when it completes (R40, R41, 60_exceptions.md R294). -/
theorem Effect.fault_of_ne_alloc {i : Instr} {s t : State} (h : Effect i s t) (hi : i ≠ .alloc) :
    t.fault = s.fault ∧ t.fcmd = s.fcmd := by
  cases h with
  | puts _ _ chain => exact ⟨chain.registers.fault, chain.registers.fcmd⟩
  | gets _ _ _ chain => exact ⟨chain.registers.fault, chain.registers.fcmd⟩
  | alloc _ => exact absurd rfl hi
  | flush _ _ _ => exact ⟨rfl, rfl⟩
  | rewind _ => exact ⟨rfl, rfl⟩
  | keep _ => exact ⟨rfl, rfl⟩
  | compact _ => exact ⟨rfl, rfl⟩
  | rdreg _ => exact ⟨rfl, rfl⟩

/-- A completed ALLOC had room, and leaves no fault (43_lifecycle.md R250). -/
theorem Effect.alloc_clears {s t : State} (h : Effect .alloc s t) :
    s.operand.toNat ≤ Config.capMax ∧ t.fault = .none ∧ t.fcmd = 0 ∧ t.result = s.result := by
  cases h with
  | puts kind _ _ => exact nomatch kind
  | gets _ kind _ _ => exact nomatch kind
  | alloc fits => exact ⟨fits, rfl, rfl, rfl⟩

/-- Only ALLOC leaves read mode (R36, 43_lifecycle.md R256). -/
theorem Effect.mode_of_ne_alloc {i : Instr} {s t : State} (h : Effect i s t) (hi : i ≠ .alloc)
    (hmode : s.mode = .read) : t.mode = .read := by
  cases h with
  | puts _ write _ => exact nomatch write.symm.trans hmode
  | gets _ _ _ chain => exact chain.registers.mode.trans hmode
  | alloc _ => exact absurd rfl hi
  | flush _ _ _ => rfl
  | rewind _ => rfl
  | keep _ => exact hmode
  | compact _ => exact hmode
  | rdreg _ => exact hmode

/-- RESULT is written by gets and RDREG alone (R42). -/
theorem Effect.result_eq_or {i : Instr} {s t : State} (h : Effect i s t) :
    t.result = s.result ∨ neededMode i = some .read ∨ ∃ idx, i = .rdreg idx := by
  cases h with
  | puts _ _ chain => exact .inl chain.registers.result
  | gets _ kind _ _ => exact .inr (.inl kind)
  | alloc _ => exact .inl rfl
  | flush _ _ _ => exact .inl rfl
  | rewind _ => exact .inl rfl
  | keep _ => exact .inl rfl
  | compact _ => exact .inl rfl
  | rdreg idx => exact .inr (.inr ⟨idx, rfl⟩)

/-- The row of the PUT-type commands. -/
theorem Effect.put_frame {i : Instr} {s t : State} (h : Effect i s t) (kind : neededMode i = some .write)
    (hwf : s.store.wf) :
    t.mode = s.mode ∧ t.cap = s.cap ∧ t.rpos = s.rpos ∧ t.result = s.result ∧
      SameOutside s.wpos.toNat t.wpos.toNat s.store t.store := by
  cases h with
  | puts _ _ chain =>
    have kept := chain.registers
    obtain ⟨_, _, bytes⟩ := chain.bytes hwf
    exact ⟨kept.mode, kept.cap, kept.rpos, kept.result, bytes⟩
  | gets _ read _ _ => exact nomatch read.symm.trans kind
  | alloc _ => exact nomatch kind
  | flush _ _ _ => exact nomatch kind
  | rewind _ => exact nomatch kind
  | keep _ => exact nomatch kind
  | compact _ => exact nomatch kind
  | rdreg _ => exact nomatch kind

/-- The row of the GET-type commands. -/
theorem Effect.get_frame {i : Instr} {s t : State} (h : Effect i s t) (kind : neededMode i = some .read) :
    t.mode = s.mode ∧ t.cap = s.cap ∧ t.wpos = s.wpos ∧ t.store = s.store ∧
      (t.rpos = s.rpos → t.cache = s.cache) := by
  cases h with
  | puts write _ _ => exact nomatch write.symm.trans kind
  | gets r _ _ chain =>
    have kept := chain.registers
    refine ⟨kept.mode, kept.cap, kept.wpos, kept.store, fun hrpos => ?_⟩
    rcases chain.refill with ⟨_, hcache⟩ | hlt
    · exact hcache
    · exact absurd (congrArg BitVec.toNat hrpos) hlt.ne'
  | alloc _ => exact nomatch kind
  | flush _ _ _ => exact nomatch kind
  | rewind _ => exact nomatch kind
  | keep _ => exact nomatch kind
  | compact _ => exact nomatch kind
  | rdreg _ => exact nomatch kind

/-- The row of FLIP. -/
theorem Effect.flip_frame {s t : State} (h : Effect .flip s t) (hwf : s.store.wf) :
    t.cap = s.cap ∧ t.result = s.result ∧
      SameOutside s.wpos.toNat t.wpos.toNat s.store t.store := by
  cases h with
  | puts kind _ _ => exact nomatch kind
  | gets _ kind _ _ => exact nomatch kind
  | flush _ _ room =>
    obtain ⟨_, _, bytes⟩ := State.flushed_bytes hwf room s.cache
    exact ⟨rfl, rfl, bytes⟩
  | rewind _ => exact ⟨rfl, rfl, fun _ _ => rfl⟩

/-- The row of COMPACT. -/
theorem Effect.compact_frame {s t : State} (h : Effect .compact s t) (hwf : s.store.wf) :
    t.cache = s.cache ∧ t.free = s.free ∧ t.mode = s.mode ∧ t.cap = s.cap ∧ t.result = s.result ∧
      (∀ a, s.wpos.toNat - s.rpos.toNat ≤ a → t.store.read a = s.store.read a) ∧
      (s.mode = .write → t.wpos = s.wpos ∧ t.rpos = s.rpos ∧ t.store = s.store) := by
  cases h with
  | puts kind _ _ => exact nomatch kind
  | gets _ kind _ _ => exact nomatch kind
  | keep _ => exact ⟨rfl, rfl, rfl, rfl, rfl, fun _ _ => rfl, fun _ => ⟨rfl, rfl, rfl⟩⟩
  | compact read =>
    refine ⟨rfl, rfl, rfl, rfl, rfl, fun a ha => ?_, fun write => nomatch write.symm.trans read⟩
    exact (Memory.read_compact hwf a).trans (if_neg (Nat.not_lt.2 ha))

/-! ## FAULT, FCMD and MODE over a step -/

/-- The two events that start a buffer afresh: RESET, and a legal ALLOC of at most CAP_MAX bytes. -/
def State.StartsFresh (s : State) : Prop :=
  (∃ rest, s.pending = .reset :: rest) ∨
    ∃ c o rest, s.pending = .command c o :: rest ∧ decode c = .ok .alloc ∧ o.toNat ≤ Config.capMax

/-- An ALLOC that completes is a fresh start, with FAULT and FCMD cleared. -/
theorem startsFresh_of_alloc {s u : State} {c : CommandWord} {o : Word} {rest : List HostEvent}
    (hpending : s.pending = .command c o :: rest)
    (hlegal : (s.present c o rest).fetched = some .alloc) (h : Effect .alloc (s.present c o rest) u) :
    (u.respond true).fault = .none ∧ (u.respond true).fcmd = 0 ∧ s.StartsFresh := by
  obtain ⟨fits, hfault, hfcmd, _⟩ := h.alloc_clears
  exact ⟨hfault, hfcmd, .inr ⟨c, o, rest, hpending, State.fetched_eq_some.1 hlegal, fits⟩⟩

/-- Everything a step can do to FAULT and FCMD: keep both, record a fault of the command presented, or clear both at
a fresh start (R40, R41). -/
theorem step_fault_cases {s t : State} (h : step s = .next t) :
    (t.fault = s.fault ∧ t.fcmd = s.fcmd) ∨
    (s.fault = .none ∧ t.fault ≠ .none ∧ t.reply = some (.response false s.result) ∧
      ∃ o rest, s.pending = .command t.fcmd o :: rest) ∨
    (t.fault = .none ∧ t.fcmd = 0 ∧ s.StartsFresh) := by
  cases step_takes h with
  | idle _ => exact .inl ⟨rfl, rfl⟩
  | hostRead _ _ => exact .inl ⟨rfl, rfl⟩
  | reset hpending => exact .inr (.inr ⟨rfl, rfl, .inl ⟨_, hpending⟩⟩)
  | command hpending ends =>
    cases ends with
    | refused _ => exact .inl ⟨rfl, rfl⟩
    | faults clear code_ne => exact .inr (.inl ⟨clear, code_ne, rfl, _, _, hpending⟩)
    | @completes i u legal _ effect =>
      by_cases hi : i = .alloc
      · subst hi
        exact .inr (.inr (startsFresh_of_alloc hpending legal effect))
      · exact .inl (effect.fault_of_ne_alloc hi)

theorem State.faultLine_eq_false {s : State} : s.faultLine = false ↔ s.fault = .none := by
  cases hfault : s.fault <;> simp [State.faultLine, hfault]

theorem State.faultLine_eq_true {s : State} : s.faultLine = true ↔ s.fault ≠ .none := by
  rw [← Bool.not_eq_false, State.faultLine_eq_false]

/-- Only the code of no fault is 0 (60_exceptions.md R280). -/
theorem FaultCode.code_eq_zero {code : FaultCode} : code.code = 0 ↔ code = .none := by
  cases code <;> decide

/-- Settles O7: FAULT_LINE is read off FAULT, which a step sets or clears as `step_fault_cases` says. -/
theorem faultLineFollowsFault : Obligations.FaultLineFollowsFault := by
  refine ⟨fun s => ?level, fun s t hstep => ⟨fun hlow hhigh => ?rise, fun hhigh hlow => ?fall⟩⟩
  case level => rw [State.faultLine_eq_true, ne_eq, ne_eq, FaultCode.code_eq_zero]
  case rise =>
    rw [State.faultLine_eq_false] at hlow
    rw [State.faultLine_eq_true] at hhigh
    rcases step_fault_cases hstep with ⟨hkept, _⟩ | ⟨_, _, hreply, o, rest, hpending⟩ | ⟨hclear, _, _⟩
    · exact absurd (hkept.trans hlow) hhigh
    · exact ⟨t.fcmd, o, rest, hpending, rfl, hreply⟩
    · exact absurd hclear hhigh
  case fall =>
    rw [State.faultLine_eq_true] at hhigh
    rw [State.faultLine_eq_false] at hlow
    rcases step_fault_cases hstep with ⟨hkept, _⟩ | ⟨hclear, _⟩ | ⟨_, _, hfresh⟩
    · exact absurd (hkept.symm.trans hlow) hhigh
    · exact absurd hclear hhigh
    · exact hfresh

/-- Settles O15: with a fault recorded no new one is. -/
theorem firstFaultIsKept : Obligations.FirstFaultIsKept := by
  intro s t hstep hfault
  rcases step_fault_cases hstep with hkept | ⟨hclear, _⟩ | hfresh
  · exact .inl hkept
  · exact absurd hclear hfault
  · exact .inr hfresh

/-- Settles O16: FCMD moves with FAULT, or is cleared with it. -/
theorem fcmdWrittenWithFault : Obligations.FcmdWrittenWithFault := by
  intro s t hstep hchanged
  rcases step_fault_cases hstep with ⟨_, hkept⟩ | ⟨hclear, hfault, _, hpending⟩ | ⟨hfault, hfcmd, hfresh⟩
  · exact absurd hkept hchanged
  · exact .inl ⟨hclear, hfault, hpending⟩
  · refine .inr ⟨hfcmd, hfault, ?_⟩
    rcases hfresh with hreset | ⟨c, o, rest, hpending, halloc, _⟩
    · exact .inl hreset
    · exact .inr ⟨c, o, rest, hpending, halloc⟩

/-- Settles O48: of the effects of a command only that of ALLOC leaves read mode. -/
theorem onlyAllocAndResetLeaveReadMode : Obligations.OnlyAllocAndResetLeaveReadMode := by
  intro s t hstep hread hwrite
  change s.StartsFresh
  cases step_takes hstep with
  | idle _ => exact nomatch hread.symm.trans hwrite
  | hostRead _ _ => exact nomatch hread.symm.trans hwrite
  | reset hpending => exact .inl ⟨_, hpending⟩
  | command hpending ends =>
    cases ends with
    | refused _ => exact nomatch hread.symm.trans hwrite
    | faults _ _ => exact nomatch hread.symm.trans hwrite
    | @completes i u legal _ effect =>
      by_cases hi : i = .alloc
      · subst hi
        obtain ⟨_, _, hfresh⟩ := startsFresh_of_alloc hpending legal effect
        exact hfresh
      · exact nomatch (effect.mode_of_ne_alloc hi hread).symm.trans hwrite

/-! ## RESULT, and the whole state-transition table -/

/-- Settles O49: only a command that completes can have changed RESULT, and then its effect says which. -/
theorem resultWrittenOnlyByGetsAndRdreg : Obligations.ResultWrittenOnlyByGetsAndRdreg := by
  intro s t c o rest hpending hstep hchanged
  rw [step_command hpending] at hstep
  cases runCommand_ends hstep with
  | refused _ => exact absurd rfl hchanged
  | faults _ _ => exact absurd rfl hchanged
  | @completes i u legal _ effect =>
    exact ⟨rfl, i, State.fetched_eq_some.1 legal, effect.result_eq_or.resolve_left hchanged⟩

/-- A command that does not complete writes FAULT, FCMD and the answer alone (60_exceptions.md R283, R284). -/
theorem CommandEnds.completes_or_keeps {i : Instr} {s t : State} (h : CommandEnds (some i) s t) :
    (∃ u, t = u.respond true ∧ Effect i s u) ∨
    t = { s with fault := t.fault, fcmd := t.fcmd, reply := some (.response false s.result) } := by
  cases h with
  | completes legal _ effect =>
    obtain rfl := Option.some.inj legal
    exact .inl ⟨_, rfl, effect⟩
  | faults _ _ => exact .inr rfl
  | refused _ => exact .inr rfl

/-- Settles O50: a command that completes keeps to the row of its effect, and any other writes FAULT and FCMD alone. -/
theorem commandsWriteOnlyTheirState : Obligations.CommandsWriteOnlyTheirState := by
  intro i s t hinv hexec
  have hrdreg : ∀ idx, i = .rdreg idx →
      t.cache = s.cache ∧ t.free = s.free ∧ t.mode = s.mode ∧ t.cap = s.cap ∧ t.wpos = s.wpos ∧
      t.rpos = s.rpos ∧ t.store = s.store ∧ t.fault = s.fault ∧ t.fcmd = s.fcmd := by
    rintro idx rfl
    obtain rfl := Host.Outcome.next.inj ((exec_rdreg idx s).symm.trans hexec)
    exact ⟨rfl, rfl, rfl, rfl, rfl, rfl, rfl, rfl, rfl⟩
  rcases (exec_ends hexec).completes_or_keeps with ⟨u, rfl, effect⟩ | hkept
  · refine ⟨fun kind => effect.put_frame kind hinv.store_wf, fun kind => effect.get_frame kind,
      ?alloc, ?flip, ?compact, hrdreg, fun hreply => ?notOk⟩
    case alloc =>
      rintro rfl
      obtain ⟨_, _, _, result⟩ := effect.alloc_clears
      exact result
    case flip => rintro rfl; exact effect.flip_frame hinv.store_wf
    case compact => rintro rfl; exact effect.compact_frame hinv.store_wf
    case notOk => simp at hreply
  · rw [hkept]
    refine ⟨fun _ => ⟨rfl, rfl, rfl, rfl, fun _ _ => rfl⟩, fun _ => ⟨rfl, rfl, rfl, rfl, fun _ => rfl⟩,
      fun _ => rfl, fun _ => ⟨rfl, rfl, fun _ _ => rfl⟩,
      fun _ => ⟨rfl, rfl, rfl, rfl, rfl, fun _ _ => rfl, fun _ => ⟨rfl, rfl, rfl⟩⟩, ?_,
      fun _ => ⟨rfl, rfl, rfl, rfl, rfl, rfl, rfl, rfl⟩⟩
    rw [← hkept]
    exact hrdreg

end Sys2Proof.Machine
end

section
/-!
PROOFS. The invariants (10_state.md R47, 20_memory.md R70): reset meets them, every effect of a command and so every
step keeps them, and so does every run of the host's events.
-/

namespace Sys2Proof.Machine

/-! ## Updates of the state that keep the invariants -/

/-- The invariants do not speak of RESULT and of the ports. -/
theorem State.Inv.withPorts {s : State} (h : s.Inv) (result : Word) (cmd : CommandWord) (operand : Word)
    (reply : Option Reply) (pending : List HostEvent) :
    State.Inv { s with
      result := result, cmd := cmd, operand := operand, reply := reply, pending := pending } :=
  { h with }

/-- The state after a fault: FCMD goes with a FAULT that is not 0 (R41). -/
theorem State.Inv.faultedWith {s : State} (h : s.Inv) {code : FaultCode} (hcode : code ≠ .none) :
    (s.faultedWith code).Inv :=
  { h with fcmd_clear := fun hnone => absurd hnone hcode }

/-- Another CACHE and FREE keep the invariants when, in write mode, CACHE is zero above the fill offset. -/
theorem State.Inv.withCache {s : State} (h : s.Inv) {c : Word} {f : Fin 65}
    (hcache : s.mode = .write → c >>> (64 - f.val) = 0) :
    State.Inv { s with cache := c, free := f } :=
  { h with write_cache := hcache }

/-- A flush within CAP keeps the invariants (20_memory.md R70, 40_bit_engine.md R124). -/
theorem State.Inv.flushed {s : State} (h : s.Inv) (hroom : s.wpos.toNat + 8 ≤ s.cap.toNat) (v : Word) :
    (s.flushed v).Inv := by
  obtain ⟨hwpos, hwf, hbytes⟩ := State.flushed_bytes h.store_wf hroom v
  have haligned := h.wpos_aligned
  have hrpos := h.rpos_le_wpos
  have hcap := h.cap_le_capMax
  exact
    { h with
      wpos_aligned := by omega
      wpos_le_cap := hwpos.trans_le hroom
      rpos_le_wpos := by rw [hwpos]; exact hrpos.trans (Nat.le_add_right _ _)
      store_wf := hwf
      store_size := fun c hc => (Memory.mem_writeWord hc).elim (fun _ => by omega) (h.store_size c)
      unwritten_zero := fun hmode a ha hlt =>
        (hbytes a (.inr ha)).trans (h.unwritten_zero hmode a (by omega) hlt) }

/-- A refill within WPOS keeps the invariants of read mode (R125). -/
theorem State.Inv.refilled {s : State} (h : s.Inv) (hmode : s.mode = .read)
    (hdata : s.rpos.toNat + 8 ≤ s.wpos.toNat) (used : Nat) : (s.refilled used).Inv := by
  have hrpos : (s.refilled used).rpos.toNat = s.rpos.toNat + 8 := add_eight_toNat hdata
  have haligned := h.rpos_aligned
  exact
    { h with
      rpos_aligned := by omega
      rpos_le_wpos := hrpos.trans_le hdata
      write_rpos := fun hwrite => nomatch hmode.symm.trans hwrite
      write_cache := fun hwrite => nomatch hmode.symm.trans hwrite }

/-- A rewind keeps the invariants: the buffer is in read mode at RPOS = 0 (43_lifecycle.md R252). -/
theorem State.Inv.rewound {s : State} (h : s.Inv) : s.rewound.Inv :=
  { h with
    rpos_aligned := rfl
    rpos_le_wpos := Nat.zero_le _
    write_rpos := fun _ => rfl
    write_cache := fun hwrite => nomatch hwrite
    unwritten_zero := fun hwrite => nomatch hwrite }

/-- COMPACT keeps the invariants of read mode (43_lifecycle.md R254). -/
theorem State.Inv.compacted {s : State} (h : s.Inv) (hmode : s.mode = .read) : s.compacted.Inv := by
  have hwpos : s.compacted.wpos.toNat = s.wpos.toNat - s.rpos.toNat :=
    BitVec.toNat_sub_of_le h.rpos_le_wpos
  have hwaligned := h.wpos_aligned
  have hraligned := h.rpos_aligned
  have hcap := h.wpos_le_cap
  exact
    { h with
      wpos_aligned := by omega
      rpos_aligned := rfl
      wpos_le_cap := by rw [hwpos]; exact (Nat.sub_le _ _).trans hcap
      rpos_le_wpos := Nat.zero_le _
      write_rpos := fun _ => rfl
      write_cache := fun hwrite => nomatch hmode.symm.trans hwrite
      store_wf := Memory.wf_compact h.store_wf _ _
      store_size := fun c hc => by
        obtain ⟨d, hd, hle⟩ := Memory.mem_compact hc
        exact hle.trans_lt (h.store_size d hd)
      unwritten_zero := fun hwrite => nomatch hmode.symm.trans hwrite }

/-- Clearing the low bits of a word is shifting them out and back. -/
theorem and_not_mask (x : Word) (k : Nat) : x &&& ~~~mask k = (x >>> k) <<< k := by
  apply BitVec.eq_of_getLsbD_eq
  intro i hi
  rcases Nat.lt_or_ge i k with hlow | hhigh
  · simp [mask_getLsbD, hi, hlow]
  · simp [mask_getElem, hi, Nat.not_lt.2 hhigh, Nat.add_sub_cancel' hhigh]

/-- ALLOC rounds up to a multiple of 8 (43_lifecycle.md R250). -/
theorem roundUp_toNat {n : Word} (h : n.toNat ≤ Config.capMax) :
    ((n + 7) &&& ~~~7).toNat = 8 * ((n.toNat + 7) / 8) := by
  obtain ⟨_, _, hmax⟩ := capMaxInBounds
  have hadd : (n + 7).toNat = n.toNat + 7 := by
    rw [BitVec.toNat_add]; exact Nat.mod_eq_of_lt (by simp; omega)
  have hmask : (7 : Word) = mask 3 := rfl
  rw [show (~~~7 : Word) = ~~~mask 3 from congrArg _ hmask, and_not_mask, BitVec.toNat_shiftLeft,
    BitVec.toNat_ushiftRight, hadd, Nat.shiftRight_eq_div_pow, Nat.shiftLeft_eq]
  omega

/-- ALLOC of at most CAP_MAX bytes keeps the invariants: it starts an empty buffer (R250). -/
theorem State.Inv.allocated {s : State} (h : s.Inv) {n : Word} (hn : n.toNat ≤ Config.capMax) :
    (s.allocated n).Inv := by
  obtain ⟨hmultiple, _, _⟩ := capMaxInBounds
  have hcap : (s.allocated n).cap.toNat = 8 * ((n.toNat + 7) / 8) := roundUp_toNat hn
  exact
    { cap_aligned := by omega
      wpos_aligned := rfl
      rpos_aligned := rfl
      wpos_le_cap := Nat.zero_le _
      cap_le_capMax := by omega
      rpos_le_wpos := le_refl _
      write_rpos := fun _ => rfl
      write_cache := fun _ => rfl
      store_wf := Memory.wf_clear h.store_wf _
      store_size := fun c hc => h.store_size c (List.mem_of_mem_filter hc)
      unwritten_zero := fun _ a _ hlt => (Memory.read_clear h.store_wf _ a).trans (if_pos hlt)
      fcmd_clear := fun _ => rfl }

/-! ## PutBits and GetBits keep the invariants -/

/-- PutBits keeps CACHE zero above the fill offset, for every width (40_bit_engine.md R124, R132). -/
theorem putBits_keeps_padding {s t : State} {v : Word} {w : Nat}
    (hpad : s.cache >>> (64 - s.free.val) = 0) (h : putBits s v w = .ok t) :
    t.cache >>> (64 - t.free.val) = 0 := by
  have hfree := s.free.isLt
  rcases putBits_cases s v w with ⟨hfits, hok⟩ | ⟨hsplit, _, hok⟩ | ⟨_, _, herror⟩
  · obtain rfl := Except.ok.inj (hok.symm.trans h)
    apply BitVec.eq_of_getLsbD_eq
    intro i _
    have hbeyond : ¬ 64 - (s.free.val - w) + i - (64 - s.free.val) < w := by omega
    have hold : s.cache.getLsbD (64 - (s.free.val - w) + i) = false :=
      getLsbD_of_shiftRight_eq_zero hpad (by omega)
    simp [State.offset, mask_getLsbD, hold, hbeyond]
  · obtain rfl := Except.ok.inj (hok.symm.trans h)
    apply BitVec.eq_of_getLsbD_eq
    intro i _
    have hbeyond : s.free.val + (64 - (64 - (w - s.free.val)) + i) < 64 →
        w ≤ s.free.val + (64 - (64 - (w - s.free.val)) + i) := by omega
    simpa [mask_getLsbD] using fun _ => hbeyond
  · exact nomatch herror.symm.trans h

/-- A completed PutBits in write mode keeps the invariants. -/
theorem putBits_keeps_inv {s t : State} {v : Word} {w : Nat} (hinv : s.Inv) (hmode : s.mode = .write)
    (h : putBits s v w = .ok t) : t.Inv := by
  have hpad := putBits_keeps_padding (hinv.write_cache hmode) h
  rcases putBits_cases s v w with ⟨_, hok⟩ | ⟨_, hroom, hok⟩ | ⟨_, _, herror⟩
  · obtain rfl := Except.ok.inj (hok.symm.trans h)
    exact hinv.withCache fun _ => hpad
  · obtain rfl := Except.ok.inj (hok.symm.trans h)
    exact (hinv.flushed hroom _).withCache fun _ => hpad
  · exact nomatch herror.symm.trans h

/-- A completed GetBits in read mode keeps the invariants. -/
theorem getBits_keeps_inv {s t : State} {w : Nat} {r : Word} (hinv : s.Inv) (hmode : s.mode = .read)
    (h : getBits s w = .ok (r, t)) : t.Inv := by
  rcases getBits_cases s w with ⟨_, hok⟩ | ⟨_, hdata, hok⟩ | ⟨_, _, herror⟩
  · obtain ⟨-, rfl⟩ := Prod.mk.inj (Except.ok.inj (hok.symm.trans h))
    exact hinv.withCache fun hwrite => nomatch hmode.symm.trans hwrite
  · obtain ⟨-, rfl⟩ := Prod.mk.inj (Except.ok.inj (hok.symm.trans h))
    exact hinv.refilled hmode hdata _
  · exact nomatch herror.symm.trans h

theorem PutsTo.keeps_inv {s t : State} (h : PutsTo s t) (hinv : s.Inv) (hmode : s.mode = .write) :
    t.Inv := by
  induction h with
  | refl => exact hinv
  | tail chain last ih =>
    obtain ⟨v, w, hput⟩ := last
    exact putBits_keeps_inv ih ((PutsTo.registers chain).mode.trans hmode) hput

theorem GetsTo.keeps_inv {s t : State} (h : GetsTo s t) (hinv : s.Inv) (hmode : s.mode = .read) :
    t.Inv := by
  induction h with
  | refl => exact hinv
  | tail chain last ih =>
    obtain ⟨w, r, hget⟩ := last
    exact getBits_keeps_inv ih ((GetsTo.registers chain).mode.trans hmode) hget

/-! ## Commands, steps and runs keep the invariants -/

/-- The effect of every command keeps the invariants. -/
theorem Effect.keeps_inv {i : Instr} {s t : State} (h : Effect i s t) (hinv : s.Inv) : t.Inv := by
  cases h with
  | puts _ mode chain => exact chain.keeps_inv hinv mode
  | gets r _ mode chain => exact (chain.keeps_inv hinv mode).withPorts r _ _ _ _
  | alloc fits => exact hinv.allocated fits
  | flush _ _ room => exact (hinv.flushed room _).rewound
  | rewind _ => exact hinv.rewound
  | keep _ => exact hinv
  | compact mode => exact hinv.compacted mode
  | rdreg idx => exact hinv.withPorts _ _ _ _ _

theorem CommandEnds.keeps_inv {o : Option Instr} {s t : State} (h : CommandEnds o s t) (hinv : s.Inv) :
    t.Inv := by
  cases h with
  | completes _ _ effect => exact (effect.keeps_inv hinv).withPorts _ _ _ _ _
  | faults _ code_ne => exact hinv.faultedWith code_ne
  | refused _ => exact hinv.withPorts _ _ _ _ _

/-- Settles O9: every clause at the values of reset. -/
theorem resetMeetsInvariants : Obligations.ResetMeetsInvariants where
  cap_aligned := rfl
  wpos_aligned := rfl
  rpos_aligned := rfl
  wpos_le_cap := le_refl _
  cap_le_capMax := Nat.zero_le _
  rpos_le_wpos := le_refl _
  write_rpos _ := rfl
  write_cache _ := rfl
  store_wf := Memory.wf_nil
  store_size _ hc := nomatch hc
  unwritten_zero _ _ _ _ := rfl
  fcmd_clear _ := rfl

/-- Settles O10: each event of the host, by what a step can do with it. -/
theorem stepKeepsInvariants : Obligations.StepKeepsInvariants := by
  intro s t hinv hstep
  cases step_takes hstep with
  | idle _ => exact hinv
  | command _ ends => exact ends.keeps_inv (hinv.withPorts _ _ _ _ _)
  | hostRead _ _ => exact hinv.withPorts _ _ _ _ _
  | reset _ => exact resetMeetsInvariants.withPorts _ _ _ _ _

/-- What every step of a machine keeps, every run of it keeps. -/
theorem run_keeps {M : Host.Core} {P : M.State → Prop}
    (hkeeps : ∀ s t, P s → M.step s = .next t → P t) {k : Nat} {s t : M.State} (hs : P s)
    (hrun : M.run k s = .next t) : P t := by
  induction k generalizing s with
  | zero => exact Host.Outcome.next.inj hrun ▸ hs
  | succ k ih =>
    rw [Host.Core.run] at hrun
    split at hrun
    · next u hstep => exact ih (hkeeps s u hs hstep) hrun
    · exact nomatch hrun
    · exact nomatch hrun

/-- Settles O11: reset meets the invariants, whatever the host is going to do, and the run keeps them. -/
theorem invariantsOnEveryHostRun : Obligations.InvariantsOnEveryHostRun := by
  intro events k t hrun
  have hstart : State.Inv { State.reset with pending := events } :=
    resetMeetsInvariants.withPorts _ _ _ _ events
  have hend : State.Inv t := run_keeps (M := Sys2Proof.core) stepKeepsInvariants hstart hrun
  exact ⟨hend.toSound, Nat.le_of_lt_succ t.free.isLt⟩

end Sys2Proof.Machine
end

section
/-!
PROOFS. The store as bits (20_memory.md R62 to R64): the value of a stretch of bytes, and a byte read back out of the
bits of a stretch; from these the two word primitives.
-/

namespace Sys2Proof.Machine

/-! ## Words and bytes as bits -/

/-- A bit vector is fixed by its bits. -/
theorem eq_of_natBits_eq {n : Nat} {x y : BitVec n} (h : natBits x.toNat n = natBits y.toNat n) : x = y := by
  have hvalue : x.toNat % 2 ^ n = y.toNat % 2 ^ n := by
    rw [← bitsValue_natBits, h, bitsValue_natBits]
  rw [Nat.mod_eq_of_lt x.isLt, Nat.mod_eq_of_lt y.isLt] at hvalue
  exact BitVec.eq_of_toNat_eq hvalue

theorem bitsValue_append (bs cs : List Bool) :
    bitsValue (bs ++ cs) = bitsValue bs + 2 ^ bs.length * bitsValue cs := by
  induction bs with
  | nil => simp [bitsValue]
  | cons b bs ih =>
    rw [List.cons_append, bitsValue, bitsValue, ih, List.length_cons, Nat.pow_succ]
    ring

/-- One byte of the store, as a stretch of its own. -/
theorem Memory.bits_succ (m : Memory) (a : Nat) : m.bits a (a + 1) = natBits (m.read a).toNat 8 := by
  simp [Memory.bits]

/-- The value of n bytes is their little-endian sum (20_memory.md R62, R64). -/
theorem Memory.bitsValue_bits (m : Memory) (a n : Nat) :
    bitsValue (m.bits a (a + n)) = ∑ k ∈ Finset.range n, (m.read (a + k)).toNat * 2 ^ (8 * k) := by
  induction n with
  | zero => simp [bitsValue]
  | succ n ih =>
    have hbyte : bitsValue (m.bits (a + n) (a + n + 1)) = (m.read (a + n)).toNat := by
      rw [Memory.bits_succ, bitsValue_natBits]
      exact Nat.mod_eq_of_lt (m.read (a + n)).isLt
    rw [Finset.sum_range_succ, ← ih, ← Nat.add_assoc,
      ← Memory.bits_append m (Nat.le_add_right a n) (Nat.le_succ (a + n)), bitsValue_append, hbyte,
      Memory.bits_length, Nat.add_sub_cancel_left, Nat.mul_comm (2 ^ (8 * n))]

/-- MemRead's word is the little-endian sum of its bytes (R62). -/
theorem Memory.readWord_toNat (m : Memory) (a : Nat) :
    (m.readWord a).toNat = ∑ k ∈ Finset.range 8, (m.read (a + k)).toNat * 2 ^ (8 * k) := by
  rw [← Memory.bitsValue_bits, Memory.bits_readWord, bitsValue_natBits]
  exact (Nat.mod_eq_of_lt (m.readWord a).isLt).symm

/-- The word MemRead gives where MemWrite wrote (R62, R63). -/
theorem Memory.readWord_writeWord {m : Memory} (hm : m.wf) (a : Nat) (v : Word) :
    (m.writeWord a v).readWord a = v :=
  eq_of_natBits_eq ((Memory.bits_readWord _ a).symm.trans (Memory.bits_writeWord hm a v))

/-- A byte below b, cut out of the bits of the bytes 0..b-1 (R64). -/
theorem Memory.natBits_read (m : Memory) {b i : Nat} (h : i < b) :
    natBits (m.read i).toNat 8 = ((m.bits 0 b).drop (8 * i)).take 8 := by
  have hbelow : (m.bits 0 i).length = 8 * i := by simp
  have hbyte : (m.bits i (i + 1)).length = 8 := by simp
  rw [← Memory.bits_append m (Nat.zero_le i) h.le, ← Memory.bits_append m (Nat.le_succ i) h,
    List.drop_left' hbelow, List.take_left' hbyte, Memory.bits_succ]

/-- Settles O20: the byte values by the rule of a read after MemWrite, the words as the bits of their bytes. -/
theorem storeWordsAreLittleEndian : Obligations.StoreWordsAreLittleEndian := by
  intro m a v hwf
  refine ⟨m.readWord_toNat a, fun k hk => ?inside, fun x hx => ?outside, Memory.readWord_writeWord hwf a v⟩
  case inside =>
    rw [Memory.read_writeWord hwf, if_pos ⟨Nat.le_add_right a k, by omega⟩, Nat.add_sub_cancel_left,
      BitVec.extractLsb'_toNat, Nat.shiftRight_eq_div_pow]
  case outside => rw [Memory.read_writeWord hwf, if_neg (by omega)]

end Sys2Proof.Machine
end

section
/-!
PROOFS. COMPACT and FLIP on the store (20_memory.md R73, R76, R77, 43_lifecycle.md R252, R254), and where a fixed-width
put leaves its bytes (20_memory.md R66).
-/

namespace Sys2Proof.Machine

/-- A command that ends without a fault recorded completed, with its effect (60_exceptions.md R282). -/
theorem exec_effect {i : Instr} {s t : State} (hexec : exec i s = .next t) (hclear : t.fault = .none) :
    ∃ u, Effect i s u ∧ t = u.respond true := by
  cases exec_ends hexec with
  | completes legal _ effect => exact ⟨_, Option.some.inj legal ▸ effect, rfl⟩
  | faults _ code_ne => exact absurd hclear code_ne
  | refused faulted => exact absurd hclear faulted

/-! ## COMPACT -/

/-- COMPACT completes whenever no fault is recorded (43_lifecycle.md R254). -/
theorem exec_compact {s : State} (hclear : s.fault = .none) :
    exec .compact s = .next ((compactBuffer s).respond true) :=
  unlessFaulted_of_none hclear _

theorem compactBuffer_write {s : State} (h : s.mode = .write) : compactBuffer s = s := by
  simp [compactBuffer, h]

theorem compactBuffer_read {s : State} (h : s.mode = .read) : compactBuffer s = s.compacted := by
  simp [compactBuffer, h]

/-- Settles O45: the bytes by the rule of a read after StoreCompact. -/
theorem compactRemovesConsumedWords : Obligations.CompactRemovesConsumedWords := by
  intro s hinv hclear
  rw [exec_compact hclear]
  constructor
  · intro hwrite
    rw [compactBuffer_write hwrite, State.respond]
  · intro hread
    rw [compactBuffer_read hread]
    have hbytes := fun x => Memory.read_compact hinv.store_wf (r := s.rpos.toNat) (w := s.wpos.toNat) x
    have hwpos : s.compacted.wpos.toNat = s.wpos.toNat - s.rpos.toNat :=
      BitVec.toNat_sub_of_le hinv.rpos_le_wpos
    exact ⟨_, rfl, fun i hi => (hbytes i).trans (if_pos hi),
      fun i hi => (hbytes i).trans (if_neg (Nat.not_lt.2 hi)), hwpos, rfl, rfl, rfl, hread, rfl, hclear,
      rfl, rfl, rfl, rfl, rfl, rfl⟩

/-! ## FLIP -/

/-- The zero bits that FLIP leaves after the appended ones: the free part of a partial word (R252). -/
def State.padding (s : State) : List Bool :=
  List.replicate (if s.free.val = 64 then 0 else s.free.val) false

theorem natBits_zero_value (n : Nat) : natBits 0 n = List.replicate n false := by
  simp [natBits, List.eq_replicate_iff]

/-- With CACHE zero above the fill offset, its 64 bits are those in use and then FREE zeros (40_bit_engine.md R122). -/
theorem State.natBits_cache {s : State} (hpad : s.cache >>> (64 - s.free.val) = 0) :
    natBits s.cache.toNat 64 =
      natBits s.cache.toNat (64 - s.free.val) ++ List.replicate s.free.val false := by
  have hhigh : s.cache.toNat / 2 ^ (64 - s.free.val) = 0 := by
    rw [← Nat.shiftRight_eq_div_pow, ← BitVec.toNat_ushiftRight, hpad]
    rfl
  have hsplit := natBits_add s.cache.toNat (64 - s.free.val) s.free.val
  rwa [Nat.sub_add_cancel (Nat.le_of_lt_succ s.free.isLt), hhigh, natBits_zero_value] at hsplit

/-- FLIP from write mode leaves the appended bits and their padding in the bytes below WPOS (R252, 20_memory.md R76). -/
theorem Effect.flip_store {s t : State} (h : Effect .flip s t) (hinv : s.Inv) (hmode : s.mode = .write) :
    t.store.bits 0 t.wpos.toNat = s.appended ++ s.padding := by
  cases h with
  | puts kind _ _ => exact nomatch kind
  | gets _ kind _ _ => exact nomatch kind
  | flush _ bits room =>
    have hwpos : (s.flushed s.cache).wpos.toNat = s.wpos.toNat + 8 := add_eight_toNat room
    rw [State.rewound_wpos, State.rewound_store, hwpos, State.flushed_store,
      ← Memory.bits_append _ (Nat.zero_le s.wpos.toNat) (Nat.le_add_right _ 8),
      Memory.bits_writeWord_below hinv.store_wf _ _ (le_refl _), Memory.bits_writeWord hinv.store_wf,
      State.natBits_cache (hinv.write_cache hmode), State.appended, State.padding, if_neg bits.ne,
      List.append_assoc]
  | rewind nothing =>
    have hfull : s.free.val = 64 := by
      have hle := s.free.isLt
      have hge : ¬ s.free.val < 64 := fun hlt => nothing ⟨hmode, hlt⟩
      omega
    simp [State.appended, State.padding, hfull]

/-- After FLIP nothing is read yet: the unread stream is all of the store below WPOS (R252). -/
theorem Effect.flip_unread {s t : State} (h : Effect .flip s t) : t.unread = t.store.bits 0 t.wpos.toNat := by
  cases h with
  | puts kind _ _ => exact nomatch kind
  | gets _ kind _ _ => exact nomatch kind
  | flush _ _ _ => rfl
  | rewind _ => rfl

/-- The artifact's bytes are the bits of the store below WPOS (20_memory.md R64, R77). -/
theorem State.artifact_bits (s : State) :
    s.artifact.flatMap (fun b => natBits b.toNat 8) = s.store.bits 0 s.wpos.toNat := by
  rw [State.artifact, List.flatMap_map, Memory.bits, Nat.sub_zero, List.range_eq_range']

/-- Settles O44: what FLIP leaves in the store is both the unread stream and the artifact. -/
theorem flipMakesStreamReadable : Obligations.FlipMakesStreamReadable := by
  intro s t hinv _ hmode hexec hclear
  obtain ⟨u, effect, rfl⟩ := exec_effect hexec hclear
  have hunread : (u.respond true).unread = (u.respond true).store.bits 0 (u.respond true).wpos.toNat :=
    effect.flip_unread
  refine ⟨hunread.trans (effect.flip_store hinv hmode), ?_, ?_⟩
  · rw [State.artifact_bits, hunread]
  · rw [State.artifact, List.length_map, List.length_range]

/-! ## The bytes of a fixed-width put -/

/-- The value a fixed-width put appends: the low bits of OPERAND in the byte order (41_fixed_width.md R160, R161). -/
def State.fixedValue (s : State) (ty : FixedType) (bo : ByteOrder) : Word :=
  inByteOrder bo (typeWidth ty) (s.fixedOperand (typeWidth ty))

/-- The widths of the types are whole bytes. -/
theorem typeWidth_bytes (ty : FixedType) : typeWidth ty = 8 * (typeWidth ty / 8) ∧ typeWidth ty ≤ 64 := by
  cases ty <;> decide

/-- Each fixed-width put is one PutBits in write mode (R161, R163 to R169). -/
theorem exec_putOf (ty : FixedType) (bo : ByteOrder) (s : State) :
    exec (putOf ty bo) s =
      unlessFaulted s (inMode .write s (putBits s (s.fixedValue ty bo) (typeWidth ty))) := by
  cases ty <;> rfl

/-- A fixed-width put that ends without a fault has appended its value (R161). -/
theorem exec_putOf_appended {ty : FixedType} {bo : ByteOrder} {s t : State} (hinv : s.Inv)
    (hfault : s.fault = .none) (hmode : s.mode = .write) (hexec : exec (putOf ty bo) s = .next t)
    (hclear : t.fault = .none) : s.HasAppended t (natBits (s.fixedValue ty bo).toNat (typeWidth ty)) := by
  obtain ⟨_, hwidth⟩ := typeWidth_bytes ty
  rw [exec_putOf, unlessFaulted_of_none hfault, inMode_of_eq hmode] at hexec
  by_cases hroom : s.hasRoom (typeWidth ty)
  · obtain ⟨u, hput, _, happended, _⟩ :=
      putBits_appends hinv.store_wf (hinv.write_cache hmode) (s.fixedValue ty bo) hwidth hroom
    rw [hput, finish_ok] at hexec
    obtain rfl := Host.Outcome.next.inj hexec
    exact { happended with }
  · rw [putBits_noRoom hinv.wpos_le_cap _ hwidth hroom, finish_error_of_none hfault] at hexec
    obtain rfl := Host.Outcome.next.inj hexec
    exact nomatch hclear

/-- Narrowing OPERAND keeps its bytes within the width (30_encoding.md R97). -/
theorem State.fixedOperand_byte (s : State) {n j : Nat} (hn : n ≤ 64) (hj : 8 * j + 8 ≤ n) :
    (s.fixedOperand n).extractLsb' (8 * j) 8 = s.operand.extractLsb' (8 * j) 8 := by
  apply BitVec.eq_of_getLsbD_eq
  intro i hi
  simp [State.fixedOperand, zext, hi, show 8 * j + i < n by omega, show 8 * j + i < 64 by omega]

/-- LittleEndian puts OPERAND's bytes in their own order (41_fixed_width.md R160). -/
theorem State.fixedValue_little_byte (s : State) {ty : FixedType} {k : Nat} (hk : k < typeWidth ty / 8) :
    (s.fixedValue ty .little).extractLsb' (8 * k) 8 = s.operand.extractLsb' (8 * k) 8 := by
  obtain ⟨_, hwidth⟩ := typeWidth_bytes ty
  exact s.fixedOperand_byte hwidth (by omega)

/-- BigEndian puts OPERAND's bytes in reverse order (R160). -/
theorem State.fixedValue_big_byte (s : State) {ty : FixedType} {k : Nat} (hk : k < typeWidth ty / 8) :
    (s.fixedValue ty .big).extractLsb' (8 * k) 8 =
      s.operand.extractLsb' (8 * (typeWidth ty / 8 - 1 - k)) 8 := by
  obtain ⟨_, hwidth⟩ := typeWidth_bytes ty
  obtain ⟨hreversed, _⟩ :=
    byterevReversesBytes (typeWidth ty / 8) (by omega) (s.fixedOperand (typeWidth ty))
  exact (hreversed k hk).trans (s.fixedOperand_byte hwidth (by omega))

/-- The eight bits of a value from bit 8k on, cut out of its bits. -/
theorem natBits_extractLsb' (v : Word) {n k : Nat} (h : 8 * k + 8 ≤ n) :
    natBits (v.extractLsb' (8 * k) 8).toNat 8 = ((natBits v.toNat n).drop (8 * k)).take 8 := by
  rw [natBits_drop, natBits_take _ (by omega), BitVec.extractLsb'_toNat, Nat.shiftRight_eq_div_pow]
  refine natBits_congr fun i hi => ?_
  rw [Nat.testBit_mod_two_pow, decide_eq_true hi, Bool.true_and]

/-- A value that stands in the bits of the store from byte q on: its byte k is byte q + k of the store
(20_memory.md R64). -/
theorem Memory.read_of_bits {m : Memory} {b q n k : Nat} {v : Word} {pre post : List Bool}
    (hbits : m.bits 0 b = pre ++ natBits v.toNat n ++ post) (hpre : pre.length = 8 * q)
    (hk : 8 * k + 8 ≤ n) : m.read (q + k) = v.extractLsb' (8 * k) 8 := by
  have hlength : 8 * b = 8 * q + n + post.length := by
    simpa [hpre, Nat.add_assoc] using congrArg List.length hbits
  apply eq_of_natBits_eq
  rw [natBits_extractLsb' v hk, Memory.natBits_read m (b := b) (by omega), hbits, List.append_assoc,
    Nat.mul_add, ← hpre, List.drop_length_add_append,
    List.drop_append_of_le_length (by rw [natBits_length]; omega),
    List.take_append_of_le_length (by rw [List.length_drop, natBits_length]; omega)]

/-- Settles O34: after FLIP the value stands in the store at the byte where its first bit was appended. -/
theorem byteViewOfFixedPuts : Obligations.ByteViewOfFixedPuts := by
  intro ty bo s t u hinv hfault hmode hbyte hput htclear hflip huclear k hk
  obtain ⟨hbytes, _⟩ := typeWidth_bytes ty
  have happended := exec_putOf_appended hinv hfault hmode hput htclear
  have htinv : t.Inv := (exec_ends hput).keeps_inv hinv
  obtain ⟨v, effect, rfl⟩ := exec_effect hflip huclear
  have hstore := effect.flip_store htinv (happended.mode.trans hmode)
  rw [happended.stream] at hstore
  have hread : v.store.read (s.appended.length / 8 + k) = (s.fixedValue ty bo).extractLsb' (8 * k) 8 :=
    Memory.read_of_bits hstore (by omega) (by omega)
  cases bo with
  | little => exact hread.trans (s.fixedValue_little_byte hk)
  | big => exact hread.trans (s.fixedValue_big_byte hk)

end Sys2Proof.Machine
end

section
/-!
PROOFS. The encoding (30_encoding.md R92 to R99): decoder and encoder are inverse to each other format by format, and so
on all 26 commands; the legal words are those of R99's table, and an illegal word raises ILLEGAL_COMMAND
(60_exceptions.md R285).
-/

namespace Sys2Proof

/-! ## The codes of the fields, read back -/

theorem ByteOrder.bit_ofBit (b : BitVec 1) : (ByteOrder.ofBit b).bit = b := by revert b; decide

theorem Strategy.bit_ofBit (b : BitVec 1) : (Strategy.ofBit b).bit = b := by revert b; decide

theorem RegIndex.bits_ofBits (b : BitVec 3) : (RegIndex.ofBits b).bits = b := by revert b; decide

theorem SignMode.bits_of_ofBits {b : BitVec 2} {sm : SignMode} : SignMode.ofBits b = some sm → sm.bits = b := by
  cases sm <;> revert b <;> decide

/-- SM = 3 is the one code that is no sign mode (R94). -/
theorem SignMode.exists_ofBits_eq_some (b : BitVec 2) : (∃ sm, SignMode.ofBits b = some sm) ↔ b.toNat ≠ 3 := by
  simp only [← Option.isSome_iff_exists]
  revert b
  decide

/-! ## The fields of a word as numbers -/

theorem opcodeField_toNat (c : CommandWord) : (opcodeField c).toNat = c.toNat % 256 := by
  simp [opcodeField]

theorem opcodeField_eq_ofNat {c : CommandWord} {n : Nat} (hop : (opcodeField c).toNat = n) :
    opcodeField c = BitVec.ofNat 8 n := by
  simp [← hop]

theorem smField_toNat (c : CommandWord) : (smField c).toNat = c.toNat / 2 ^ 8 % 4 := by
  simp [smField, Nat.shiftRight_eq_div_pow]

theorem reservedField_eq_zero_iff {lo : Nat} (hlo : lo ≤ 32) (c : CommandWord) :
    reservedField lo c = 0 ↔ c.toNat / 2 ^ lo = 0 := by
  have hlt : c.toNat / 2 ^ lo < 2 ^ (32 - lo) := by
    rw [Nat.div_lt_iff_lt_mul (by positivity), ← Nat.pow_add, Nat.sub_add_cancel hlo]
    exact c.isLt
  rw [← BitVec.toNat_inj, reservedField, BitVec.extractLsb'_toNat, Nat.shiftRight_eq_div_pow,
    Nat.mod_eq_of_lt hlt]
  rfl

/-! ## A word is its opcode and its fields when its reserved bits are zero -/

/-- With the bits above an n-bit field zero, a word is the opcode and that field. -/
theorem word_eq_of_reservedField {c : CommandWord} {n : Nat} (h : reservedField (8 + n) c = 0) :
    (opcodeField c).setWidth 32 ||| (c.extractLsb' 8 n).setWidth 32 <<< 8 = c := by
  apply BitVec.eq_of_getLsbD_eq
  intro i hi
  rw [getLsbD_word]
  split
  · next hlow => simp [opcodeField, hlow]
  · next hhigh =>
    by_cases hfield : i - 8 < n
    · simp [hi, hfield, show 8 + (i - 8) = i by omega, show i - 8 < 32 by omega]
    · have hbit : (reservedField (8 + n) c).getLsbD (i - (8 + n)) = false := by simp [h]
      rw [reservedField, BitVec.getLsbD_extractLsb', show 8 + n + (i - (8 + n)) = i by omega] at hbit
      simpa [hfield, show i - (8 + n) < 32 - (8 + n) by omega] using hbit.symm

/-- SM and ST of format V are the two parts of one 3-bit field (R94). -/
theorem setWidth_smField_or_stField (c : CommandWord) :
    (smField c).setWidth 32 ||| (stField c).setWidth 32 <<< 2 = (c.extractLsb' 8 3).setWidth 32 := by
  apply BitVec.eq_of_getLsbD_eq
  intro i hi
  obtain hlow | rfl | hhigh := Nat.lt_trichotomy i 2
  · simp [smField, stField, hlow, show i < 3 by omega]
  · simp [smField, stField]
  · simp [smField, stField, hi, show ¬ i < 2 by omega, show ¬ i < 3 by omega, show i - 2 ≠ 0 by omega]

/-! ## Each format's decoder reads back the words its encoder writes -/

theorem decodeFormatB_encode (mk : Nat → Instr) (op : BitVec 8) {width : Nat} (h : widthOk width = true) :
    decodeFormatB mk (encodeFormatB op width) = .ok (mk width) := by
  have hwidth : 1 ≤ width ∧ width ≤ 64 := by simpa [widthOk] using h
  rw [decodeFormatB, if_pos (reservedField_encodeFormatB op width), wm1Field_encodeFormatB, BitVec.toNat_ofNat,
    show (width - 1) % 2 ^ 6 + 1 = width by omega]

theorem decodeFormatF_encode (mk : ByteOrder → Instr) (op : BitVec 8) (bo : ByteOrder) :
    decodeFormatF mk (encodeFormatF op bo) = .ok (mk bo) := by
  rw [decodeFormatF, if_pos (reservedField_encodeFormatF op bo), boField_encodeFormatF, ByteOrder.ofBit_bit]

theorem decodeFormatV_encode (mk : SignMode → Strategy → Instr) (op : BitVec 8) (sm : SignMode) (st : Strategy) :
    decodeFormatV mk (encodeFormatV op sm st) = .ok (mk sm st) := by
  rw [decodeFormatV, if_pos (reservedField_encodeFormatV op sm st), smField_encodeFormatV, SignMode.ofBits_bits,
    stField_encodeFormatV, Strategy.ofBit_bit]

theorem decodeFormatR_encode (mk : RegIndex → Instr) (op : BitVec 8) (idx : RegIndex) :
    decodeFormatR mk (encodeFormatR op idx) = .ok (mk idx) := by
  rw [decodeFormatR, if_pos (reservedField_encodeFormatR op idx), idxField_encodeFormatR, RegIndex.ofBits_bits]

theorem decodeFormatN_encode (i : Instr) (op : BitVec 8) : decodeFormatN i (encodeFormatN op) = .ok i :=
  if_pos (reservedField_encodeFormatN op)

/-! ## A word a format's decoder reads is the one its encoder writes -/

/-- A format's decoder reads a word when the reserved bits are zero and the fields are read. -/
theorem ite_reservedField_eq_ok_iff {lo : Nat} {c : CommandWord} {fields : Except DecodeError Instr}
    {e : DecodeError} {i : Instr} :
    (if reservedField lo c = 0 then fields else .error e) = .ok i ↔ reservedField lo c = 0 ∧ fields = .ok i := by
  split
  · next hreserved => exact (and_iff_right hreserved).symm
  · next hreserved => exact iff_of_false (nomatch ·) (hreserved ·.1)

theorem decodeFormatB_eq_ok {mk : Nat → Instr} {c : CommandWord} {i : Instr} (h : decodeFormatB mk c = .ok i) :
    ∃ width, widthOk width = true ∧ i = mk width ∧ encodeFormatB (opcodeField c) width = c := by
  obtain ⟨hreserved, hi⟩ := ite_reservedField_eq_ok_iff.1 h
  have hlt : (wm1Field c).toNat < 64 := (wm1Field c).isLt
  refine ⟨(wm1Field c).toNat + 1, by simp [widthOk]; omega, (Except.ok.inj hi).symm, ?_⟩
  rw [encodeFormatB, Nat.add_sub_cancel, BitVec.ofNat_toNat, BitVec.setWidth_eq]
  exact word_eq_of_reservedField (n := 6) hreserved

theorem decodeFormatF_eq_ok {mk : ByteOrder → Instr} {c : CommandWord} {i : Instr}
    (h : decodeFormatF mk c = .ok i) : ∃ bo, i = mk bo ∧ encodeFormatF (opcodeField c) bo = c := by
  obtain ⟨hreserved, hi⟩ := ite_reservedField_eq_ok_iff.1 h
  refine ⟨_, (Except.ok.inj hi).symm, ?_⟩
  rw [encodeFormatF, ByteOrder.bit_ofBit]
  exact word_eq_of_reservedField (n := 1) hreserved

theorem decodeFormatV_eq_ok {mk : SignMode → Strategy → Instr} {c : CommandWord} {i : Instr}
    (h : decodeFormatV mk c = .ok i) : ∃ sm st, i = mk sm st ∧ encodeFormatV (opcodeField c) sm st = c := by
  obtain ⟨hreserved, hi⟩ := ite_reservedField_eq_ok_iff.1 h
  split at hi
  · next sm hsm =>
    refine ⟨sm, _, (Except.ok.inj hi).symm, ?_⟩
    rw [encodeFormatV_eq, SignMode.bits_of_ofBits hsm, Strategy.bit_ofBit, setWidth_smField_or_stField]
    exact word_eq_of_reservedField (n := 3) hreserved
  · exact nomatch hi

theorem decodeFormatR_eq_ok {mk : RegIndex → Instr} {c : CommandWord} {i : Instr}
    (h : decodeFormatR mk c = .ok i) : ∃ idx, i = mk idx ∧ encodeFormatR (opcodeField c) idx = c := by
  obtain ⟨hreserved, hi⟩ := ite_reservedField_eq_ok_iff.1 h
  refine ⟨_, (Except.ok.inj hi).symm, ?_⟩
  rw [encodeFormatR, RegIndex.bits_ofBits]
  exact word_eq_of_reservedField (n := 3) hreserved

theorem decodeFormatN_eq_ok {i j : Instr} {c : CommandWord} (h : decodeFormatN i c = .ok j) :
    j = i ∧ encodeFormatN (opcodeField c) = c := by
  obtain ⟨hreserved, hj⟩ := ite_reservedField_eq_ok_iff.1 h
  exact ⟨(Except.ok.inj hj).symm, by simpa [encodeFormatN] using word_eq_of_reservedField (n := 0) hreserved⟩

/-! ## Decoder and encoder on all commands -/

/-- Settles O1: the opcode of the word selects the command's row, and the format's decoder reads its fields. -/
theorem decodeOfEncode : Obligations.DecodeOfEncode := by
  intro i hwf
  cases i
  case putb width | getb width =>
    rw [decode, encode, opcodeField_encodeFormatB]
    exact decodeFormatB_encode _ _ hwf
  case putByte bo | putChar bo | putShort bo | putInt bo | putLong bo | putFloat bo | putDouble bo
      | getByte bo | getChar bo | getShort bo | getInt bo | getLong bo | getFloat bo | getDouble bo =>
    rw [decode, encode, opcodeField_encodeFormatF]
    exact decodeFormatF_encode _ _ bo
  case putv16 sm st | putv32 sm st | putv64 sm st | getv16 sm st | getv32 sm st | getv64 sm st =>
    rw [decode, encode, opcodeField_encodeFormatV]
    exact decodeFormatV_encode _ _ sm st
  case alloc | flip | compact =>
    rw [decode, encode, opcodeField_encodeFormatN]
    exact decodeFormatN_encode _ _
  case rdreg idx =>
    rw [decode, encode, opcodeField_encodeFormatR]
    exact decodeFormatR_encode _ _ idx

/-- Settles O2, row by row of the opcode map, the rows grouped by format. -/
theorem encodeOfDecode : Obligations.EncodeOfDecode := by
  intro c i h
  unfold decode at h
  split at h
  case h_1 hop | h_2 hop =>
    obtain ⟨width, hwidth, rfl, hc⟩ := decodeFormatB_eq_ok h
    rw [opcodeField_eq_ofNat hop] at hc
    exact ⟨hc, hwidth⟩
  case h_3 hop | h_4 hop | h_5 hop | h_6 hop | h_7 hop | h_8 hop | h_9 hop
      | h_10 hop | h_11 hop | h_12 hop | h_13 hop | h_14 hop | h_15 hop | h_16 hop =>
    obtain ⟨bo, rfl, hc⟩ := decodeFormatF_eq_ok h
    rw [opcodeField_eq_ofNat hop] at hc
    exact ⟨hc, rfl⟩
  case h_17 hop | h_18 hop | h_19 hop | h_20 hop | h_21 hop | h_22 hop =>
    obtain ⟨sm, st, rfl, hc⟩ := decodeFormatV_eq_ok h
    rw [opcodeField_eq_ofNat hop] at hc
    exact ⟨hc, rfl⟩
  case h_23 hop | h_24 hop | h_25 hop =>
    obtain ⟨rfl, hc⟩ := decodeFormatN_eq_ok h
    rw [opcodeField_eq_ofNat hop] at hc
    exact ⟨hc, rfl⟩
  case h_26 hop =>
    obtain ⟨idx, rfl, hc⟩ := decodeFormatR_eq_ok h
    rw [opcodeField_eq_ofNat hop] at hc
    exact ⟨hc, rfl⟩
  case h_27 => exact nomatch h

/-- Settles O4: the legal words are the encoder's words of their commands; the illegal ones are evaluated. -/
theorem workedEncodingsDecode : Obligations.WorkedEncodingsDecode :=
  ⟨decodeOfEncode (.putb 63) rfl, decodeOfEncode (.putb 5) rfl, decodeOfEncode (.getb 64) rfl,
    decodeOfEncode (.putInt .big) rfl, decodeOfEncode (.getShort .little) rfl,
    decodeOfEncode (.putv32 .either .half) rfl, decodeOfEncode (.putv64 .positive .blocked) rfl,
    decodeOfEncode (.getv16 .negative .half) rfl, decodeOfEncode .alloc rfl, decodeOfEncode .flip rfl,
    decodeOfEncode .compact rfl, decodeOfEncode (.rdreg .fault) rfl, by decide, by decide⟩

/-! ## The legal words (R99) -/

/-- A format's decoder reads some command when the reserved bits are zero and the fields are read, with the
reserved bits taken as a number. -/
theorem exists_ite_reservedField_eq_ok_iff {lo : Nat} (hlo : lo ≤ 32) (c : CommandWord)
    (fields : Except DecodeError Instr) (e : DecodeError) :
    (∃ i, (if reservedField lo c = 0 then fields else .error e) = .ok i) ↔
      c.toNat / 2 ^ lo = 0 ∧ ∃ i, fields = .ok i := by
  simp only [← reservedField_eq_zero_iff hlo, ite_reservedField_eq_ok_iff, exists_and_left]

theorem decodeFormatB_legal (mk : Nat → Instr) (c : CommandWord) :
    (∃ i, decodeFormatB mk c = .ok i) ↔ c.toNat / 2 ^ 14 = 0 :=
  (exists_ite_reservedField_eq_ok_iff (by decide) c _ _).trans (and_iff_left ⟨_, rfl⟩)

theorem decodeFormatF_legal (mk : ByteOrder → Instr) (c : CommandWord) :
    (∃ i, decodeFormatF mk c = .ok i) ↔ c.toNat / 2 ^ 9 = 0 :=
  (exists_ite_reservedField_eq_ok_iff (by decide) c _ _).trans (and_iff_left ⟨_, rfl⟩)

theorem decodeFormatV_legal (mk : SignMode → Strategy → Instr) (c : CommandWord) :
    (∃ i, decodeFormatV mk c = .ok i) ↔ c.toNat / 2 ^ 11 = 0 ∧ c.toNat / 2 ^ 8 % 4 ≠ 3 := by
  refine (exists_ite_reservedField_eq_ok_iff (by decide) c _ _).trans (and_congr_right' ?_)
  rw [← smField_toNat, ← SignMode.exists_ofBits_eq_some]
  cases SignMode.ofBits (smField c) <;> simp

theorem decodeFormatR_legal (mk : RegIndex → Instr) (c : CommandWord) :
    (∃ i, decodeFormatR mk c = .ok i) ↔ c.toNat / 2 ^ 11 = 0 :=
  (exists_ite_reservedField_eq_ok_iff (by decide) c _ _).trans (and_iff_left ⟨_, rfl⟩)

theorem decodeFormatN_legal (i : Instr) (c : CommandWord) :
    (∃ j, decodeFormatN i c = .ok j) ↔ c.toNat / 2 ^ 8 = 0 :=
  (exists_ite_reservedField_eq_ok_iff (by decide) c _ _).trans (and_iff_left ⟨_, rfl⟩)

end Sys2Proof

namespace Sys2Proof.Machine

/-- The decoder reads exactly the words of R99's table. -/
theorem exists_decode_eq_ok_iff (c : CommandWord) : (∃ i, decode c = .ok i) ↔ legalWord c.toNat = true := by
  unfold decode
  simp only [opcodeField_toNat]
  split
  case h_1 hop | h_2 hop => simp [legalWord, hop, decodeFormatB_legal]
  case h_3 hop | h_4 hop | h_5 hop | h_6 hop | h_7 hop | h_8 hop | h_9 hop
      | h_10 hop | h_11 hop | h_12 hop | h_13 hop | h_14 hop | h_15 hop | h_16 hop =>
    simp [legalWord, hop, decodeFormatF_legal]
  case h_17 hop | h_18 hop | h_19 hop | h_20 hop | h_21 hop | h_22 hop =>
    simp [legalWord, hop, decodeFormatV_legal]
  case h_23 hop | h_24 hop | h_25 hop => simp [legalWord, hop, decodeFormatN_legal]
  case h_26 hop => simp [legalWord, hop, decodeFormatR_legal]
  case h_27 =>
    have hunassigned : legalWord c.toNat = false := by
      simp only [imp_false, legalWord] at *
      rw [if_neg (by omega), if_neg (by omega), if_neg (by omega), if_neg (by omega), if_neg (by omega)]
    simp [hunassigned]

/-- ILLEGAL_COMMAND on a state without a fault (60_exceptions.md R285). -/
theorem illegalCommand_of_none {s : State} (h : s.fault = .none) :
    illegalCommand s = .next (s.faultedWith .illegalCommand) :=
  (unlessFaulted_of_none h _).trans (finish_error_of_none h _)

/-- Settles O3: the decoder's error on an illegal word is the fault of the step that presents it. -/
theorem illegalWordsFault : Obligations.IllegalWordsFault := by
  intro c
  refine ⟨exists_decode_eq_ok_iff c, fun hillegal s o rest hpending hclear => ?_⟩
  cases hdecode : decode c with
  | ok i => exact absurd ((exists_decode_eq_ok_iff c).1 ⟨i, hdecode⟩) (by simp [hillegal])
  | error e =>
    rw [step_command hpending, runCommand_of_illegal (s := s.present c o rest) hdecode]
    exact illegalCommand_of_none (s := s.present c o rest) hclear

end Sys2Proof.Machine
end

section
/-!
PROOFS. The engine on bits (40_bit_engine.md R120, R128, R131): the algebra of the mask table, from it the
concatenation law of PutBits and GetBits, and puts as puts of single bits, which makes a list of puts a function of
the bits alone.
-/

namespace Sys2Proof.Machine

/-! ## The mask table (R120) -/

theorem mask_toNat {n : Nat} (hn : n ≤ 64) : (mask n).toNat = 2 ^ n - 1 := by
  have hpow : 2 ^ n ≤ 2 ^ 64 := Nat.pow_le_pow_right (by decide) hn
  rw [mask, BitVec.toNat_ofNat]
  exact Nat.mod_eq_of_lt (by omega)

/-- Settles O21: the value by the definition, the bits by the rule of the mask table. -/
theorem maskTableEntries : Obligations.MaskTableEntries := by
  intro n hn
  refine ⟨mask_toNat hn, fun i hi => ?_⟩
  rw [mask_getLsbD, decide_eq_true hi, Bool.true_and]

@[simp] theorem and_mask_zero (x : Word) : x &&& mask 0 = 0 := BitVec.and_zero

/-- Masking to n bits is taking the value modulo 2^n. -/
theorem and_mask_toNat (x : Word) {n : Nat} (hn : n ≤ 64) : (x &&& mask n).toNat = x.toNat % 2 ^ n := by
  rw [BitVec.toNat_and, mask_toNat hn, Nat.and_two_pow_sub_one_eq_mod]

theorem and_mask_getLsbD (x : Word) (n i : Nat) : (x &&& mask n).getLsbD i = (x.getLsbD i && decide (i < n)) := by
  rw [BitVec.getLsbD_and, mask_getLsbD]
  by_cases hi : i < 64
  · simp [hi]
  · simp [BitVec.getLsbD_of_ge x i (Nat.not_lt.1 hi)]

/-- The narrower of two masks decides. -/
theorem and_mask_and_mask (x : Word) {m n : Nat} (h : n ≤ m) : (x &&& mask m) &&& mask n = x &&& mask n := by
  apply BitVec.eq_of_getLsbD_eq
  intro i _
  simp only [and_mask_getLsbD]
  by_cases hi : i < n
  · simp [hi, show i < m by omega]
  · simp [hi]

theorem and_mask_ushiftRight (x : Word) (n k : Nat) : (x &&& mask n) >>> k = (x >>> k) &&& mask (n - k) := by
  apply BitVec.eq_of_getLsbD_eq
  intro i _
  have hbound : k + i < n ↔ i < n - k := by omega
  simp only [and_mask_getLsbD, BitVec.getLsbD_ushiftRight, hbound]

/-- The low m + n bits are the low m bits and then the next n. -/
theorem and_mask_add (x : Word) (m n : Nat) :
    x &&& mask (m + n) = (x &&& mask m) ||| (((x >>> m) &&& mask n) <<< m) := by
  apply BitVec.eq_of_getLsbD_eq
  intro i hi
  simp only [and_mask_getLsbD, BitVec.getLsbD_or, BitVec.getLsbD_shiftLeft, BitVec.getLsbD_ushiftRight]
  rcases Nat.lt_or_ge i m with hlow | hhigh
  · simp [hlow, show i < m + n by omega]
  · have hbound : i < m + n ↔ i - m < n := by omega
    simp [hi, Nat.not_lt.2 hhigh, hbound, Nat.add_sub_cancel' hhigh]

/-- Two values side by side: `a` in the low `m` bits and `b` in the next `n` (R128). -/
def joined (a : Word) (m : Nat) (b : Word) (n : Nat) : Word := (a &&& mask m) ||| ((b &&& mask n) <<< m)

theorem joined_and_mask (a : Word) (m : Nat) (b : Word) (n : Nat) : joined a m b n &&& mask m = a &&& mask m := by
  apply BitVec.eq_of_getLsbD_eq
  intro i _
  simp only [joined, and_mask_getLsbD, BitVec.getLsbD_or, BitVec.getLsbD_shiftLeft]
  by_cases hlow : i < m
  · simp [hlow]
  · simp [hlow]

theorem joined_ushiftRight_and_mask (a : Word) {m : Nat} (b : Word) {n : Nat} (h : m + n ≤ 64) :
    (joined a m b n >>> m) &&& mask n = b &&& mask n := by
  apply BitVec.eq_of_getLsbD_eq
  intro i _
  simp only [joined, and_mask_getLsbD, BitVec.getLsbD_or, BitVec.getLsbD_shiftLeft, BitVec.getLsbD_ushiftRight]
  by_cases hlow : i < n
  · simp [hlow, show m + i < 64 by omega]
  · simp [hlow]

/-! ## A width of zero (R131) -/

theorem State.spend_zero (s : State) : s.spend 0 = s := rfl

theorem putBits_zero (s : State) (v : Word) : putBits s v 0 = .ok s := by
  have hcache : s.cache ||| (v &&& mask 0) <<< s.offset = s.cache := by simp
  rw [putBits_fits (Nat.zero_le _), hcache, State.spend_zero]

theorem getBits_zero (s : State) : getBits s 0 = .ok (0, s) := by
  rw [getBits_fits (Nat.zero_le _), and_mask_zero, State.spend_zero]

/-- Settles O25: nothing is shifted in or out, and what the decoder reads is well formed. -/
theorem zeroWidthDoesNothing : Obligations.ZeroWidthDoesNothing := by
  refine ⟨putBits_zero, getBits_zero, fun c => ⟨fun hput => ?_, fun hget => ?_⟩⟩
  · obtain ⟨_, hwidth⟩ := encodeOfDecode c _ hput
    exact nomatch hwidth
  · obtain ⟨_, hwidth⟩ := encodeOfDecode c _ hget
    exact nomatch hwidth

/-! ## Puts cut and joined (R128) -/

/-- PutBits looks only at the low bits of its value (R124). -/
theorem putBits_congr {s : State} {u v : Word} {w : Nat} (h : u &&& mask w = v &&& mask w) :
    putBits s u w = putBits s v w := by
  simp only [putBits, h]

theorem putFields_cons (s : State) (v : Word) (w : Nat) (fields : List (Word × Nat)) :
    putFields s ((v, w) :: fields) = (putBits s v w).bind fun t => putFields t fields := by
  rw [putFields]
  cases putBits s v w <;> rfl

theorem putFields_singleton (s : State) (v : Word) (w : Nat) : putFields s [(v, w)] = putBits s v w := by
  rw [putFields_cons]
  cases putBits s v w <;> rfl

theorem putFields_append (s : State) (fields others : List (Word × Nat)) :
    putFields s (fields ++ others) = (putFields s fields).bind fun t => putFields t others := by
  induction fields generalizing s with
  | nil => rfl
  | cons field fields ih =>
    obtain ⟨v, w⟩ := field
    rw [List.cons_append, putFields_cons, putFields_cons]
    cases putBits s v w with
    | ok t => exact ih t
    | error code => rfl

/-! ### A state as a fill of its cache

Every state is `s.fill c used` for its CACHE and its offset, and so is every state a put or a get leaves. -/

theorem State.fill_cache_offset (s : State) : s.fill s.cache s.offset = s := by
  have hfree : s.free = ⟨64 - s.offset, by omega⟩ := Fin.ext (by unfold State.offset; dsimp only; omega)
  simp only [State.fill, ← hfree]

theorem State.offset_le (s : State) : s.offset ≤ 64 := Nat.sub_le _ _

theorem State.fill_offset (s : State) (c : Word) {used : Nat} (h : used ≤ 64) : (s.fill c used).offset = used := by
  simp only [State.offset, State.fill_free]; omega

/-- A put that fits. -/
theorem putBits_fill_fits (s : State) (c v : Word) {used w : Nat} (h : used + w ≤ 64) :
    putBits (s.fill c used) v w = .ok (s.fill (c ||| (v &&& mask w) <<< used) (used + w)) := by
  have hfits : w ≤ (s.fill c used).free.val := by simp only [State.fill_free]; omega
  rw [putBits_fits hfits, s.fill_offset c (by omega)]
  simp only [State.fill, State.spend, Nat.sub_sub]

/-- A put that is cut by the flush, which takes its low bits and leaves the others. -/
theorem putBits_fill_splits (s : State) (c v : Word) {used w : Nat} (hused : used ≤ 64) (h : 64 < used + w)
    (hroom : s.wpos.toNat + 8 ≤ s.cap.toNat) :
    putBits (s.fill c used) v w = .ok ((s.flushed (c ||| (v &&& mask (64 - used)) <<< used)).fill
      ((v >>> (64 - used)) &&& mask (used + w - 64)) (used + w - 64)) := by
  have hsplits : (s.fill c used).free.val < w := by simp only [State.fill_free]; omega
  rw [putBits_splits hsplits hroom, s.fill_offset c hused, State.fill_free]
  dsimp only
  rw [and_mask_and_mask v (by omega), and_mask_ushiftRight, show w - (64 - used) = used + w - 64 by omega]
  rfl

/-- A put that is cut by a flush past CAP. -/
theorem putBits_fill_overflows (s : State) (c v : Word) {used w : Nat} (hused : used ≤ 64) (h : 64 < used + w)
    (hfull : s.cap.toNat < s.wpos.toNat + 8) : putBits (s.fill c used) v w = .error .overflow :=
  putBits_overflows (by simp only [State.fill_free]; omega) hfull

/-- A put of m + n bits is a put of the low m and then one of the next n: the flush is in the first put, in the
second, or in neither. -/
theorem putBits_fill_add (s : State) (c v : Word) {used m n : Nat} (hused : used ≤ 64) (h : m + n ≤ 64) :
    putBits (s.fill c used) v (m + n) =
      (putBits (s.fill c used) v m).bind fun t => putBits t (v >>> m) n := by
  rcases Nat.lt_or_ge 64 (used + m) with hfirst | hfirst
  · rcases Nat.lt_or_ge s.cap.toNat (s.wpos.toNat + 8) with hfull | hroom
    · rw [putBits_fill_overflows s c v hused (by omega) hfull, putBits_fill_overflows s c v hused hfirst hfull]
      rfl
    · rw [putBits_fill_splits s c v hused (by omega) hroom, putBits_fill_splits s c v hused hfirst hroom, Except.bind,
        putBits_fill_fits _ _ _ (by omega), show used + (m + n) - 64 = (used + m - 64) + n by omega, and_mask_add,
        ← BitVec.shiftRight_add, show 64 - used + (used + m - 64) = m by omega]
  · rw [putBits_fill_fits s c v hfirst, Except.bind]
    rcases Nat.lt_or_ge 64 (used + (m + n)) with hsecond | hsecond
    · rcases Nat.lt_or_ge s.cap.toNat (s.wpos.toNat + 8) with hfull | hroom
      · rw [putBits_fill_overflows s c v hused hsecond hfull, putBits_fill_overflows s _ _ hfirst (by omega) hfull]
      · rw [putBits_fill_splits s c v hused hsecond hroom, putBits_fill_splits s _ _ hfirst (by omega) hroom,
          show 64 - used = m + (64 - (used + m)) by omega, and_mask_add, BitVec.shiftLeft_or_distrib,
          ← BitVec.shiftLeft_add, BitVec.or_assoc, Nat.add_comm m used, BitVec.shiftRight_add, Nat.add_assoc used m n]
    · rw [putBits_fill_fits s c v hsecond, putBits_fill_fits s _ _ (by omega), and_mask_add,
        BitVec.shiftLeft_or_distrib, ← BitVec.shiftLeft_add, BitVec.or_assoc, Nat.add_comm m used, Nat.add_assoc]

theorem putBits_add (s : State) (v : Word) {m n : Nat} (h : m + n ≤ 64) :
    putBits s v (m + n) = (putBits s v m).bind fun t => putBits t (v >>> m) n := by
  have hfill := putBits_fill_add s s.cache v s.offset_le h
  rwa [State.fill_cache_offset] at hfill

/-- Two puts in a row are one put of the two values side by side (R128). -/
theorem putFields_pair (s : State) (a b : Word) {m n : Nat} (h : m + n ≤ 64) :
    putFields s [(a, m), (b, n)] = putBits s (joined a m b n) (m + n) := by
  rw [putBits_add s _ h, putBits_congr (joined_and_mask a m b n), putFields_cons]
  congr 1
  funext t
  rw [putFields_singleton, putBits_congr (joined_ushiftRight_and_mask a b h)]

/-! ## Puts of single bits -/

/-- The put of one bit. -/
def bitField (b : Bool) : Word × Nat := (BitVec.ofNat 64 b.toNat, 1)

/-- The put of a value's bit 0 is a put of the value with width 1. -/
theorem putBits_bitField (s : State) (v : Word) :
    putBits s (bitField (decide (v.toNat % 2 = 1))).1 (bitField (decide (v.toNat % 2 = 1))).2 = putBits s v 1 := by
  refine putBits_congr (w := 1) (BitVec.eq_of_toNat_eq ?_)
  rw [and_mask_toNat _ (by decide), and_mask_toNat _ (by decide), bitField, BitVec.toNat_ofNat]
  rcases Nat.mod_two_eq_zero_or_one v.toNat with hv | hv <;> simp [hv]

/-- A put is the puts of its bits one by one, bit 0 first. -/
theorem putBits_eq_bits (s : State) (v : Word) {w : Nat} (hw : w ≤ 64) :
    putBits s v w = putFields s ((natBits v.toNat w).map bitField) := by
  induction w generalizing s v with
  | zero => rw [putBits_zero]; rfl
  | succ w ih =>
    rw [Nat.add_comm w 1, putBits_add s v (by omega), Nat.add_comm 1 w, natBits_succ, List.map_cons, putFields_cons,
      putBits_bitField]
    congr 1
    funext t
    rw [ih t (v >>> 1) (by omega), BitVec.toNat_ushiftRight, Nat.shiftRight_eq_div_pow, Nat.pow_one]

/-- A list of puts is the puts of its bits one by one, however they were split (R128). -/
theorem putFields_eq_bits (s : State) {fields : List (Word × Nat)} (hw : ∀ f ∈ fields, f.2 ≤ 64) :
    putFields s fields = putFields s ((fieldBits fields).map bitField) := by
  induction fields generalizing s with
  | nil => rfl
  | cons field fields ih =>
    obtain ⟨v, w⟩ := field
    rw [putFields_cons, putBits_eq_bits s v (hw (v, w) List.mem_cons_self), fieldBits, List.flatMap_cons,
      List.map_append, putFields_append]
    congr 1
    funext t
    exact ih t fun f hf => hw f (List.mem_cons_of_mem _ hf)

/-! ## Gets cut and joined (R128) -/

/-- A get of bits that are in CACHE. -/
theorem getBits_fill_fits (s : State) (c : Word) {used w : Nat} (h : used + w ≤ 64) :
    getBits (s.fill c used) w = .ok ((c >>> used) &&& mask w, s.fill c (used + w)) := by
  have hfits : w ≤ (s.fill c used).free.val := by simp only [State.fill_free]; omega
  rw [getBits_fits hfits, s.fill_offset c (by omega)]
  simp only [State.fill, State.spend, Nat.sub_sub]

/-- A get that takes what is left in CACHE and refills for the others. -/
theorem getBits_fill_refills (s : State) (c : Word) {used w : Nat} (hused : used ≤ 64) (h : 64 < used + w)
    (hdata : s.rpos.toNat + 8 ≤ s.wpos.toNat) :
    getBits (s.fill c used) w = .ok
      (((c >>> used) &&& mask (64 - used)) |||
        (s.store.readWord s.rpos.toNat &&& mask (used + w - 64)) <<< (64 - used),
        s.refilled (used + w - 64)) := by
  have hrefills : (s.fill c used).free.val < w := by simp only [State.fill_free]; omega
  rw [getBits_refills hrefills hdata, s.fill_offset c hused, State.fill_free]
  dsimp only
  rw [show w - (64 - used) = used + w - 64 by omega]
  rfl

/-- A get whose refill is past WPOS. -/
theorem getBits_fill_underflows (s : State) (c : Word) {used w : Nat} (hused : used ≤ 64) (h : 64 < used + w)
    (hdata : s.wpos.toNat < s.rpos.toNat + 8) : getBits (s.fill c used) w = .error .underflow :=
  getBits_underflows (by simp only [State.fill_free]; omega) hdata

/-- A get of bits of the word just refilled. -/
theorem getBits_refilled_fits (s : State) {used w : Nat} (h : used + w ≤ 64) :
    getBits (s.refilled used) w =
      .ok ((s.store.readWord s.rpos.toNat >>> used) &&& mask w, s.refilled (used + w)) :=
  getBits_fill_fits (s.refilled 0) _ h

/-- A get of `n` bits after one of `m` that gave `r`, with the two values side by side. -/
def getNext (r : Word) (m n : Nat) (t : State) : Attempt (Word × State) :=
  (getBits t n).map fun p : Word × State => (r ||| (p.1 <<< m), p.2)

theorem getBits_fill_add (s : State) (c : Word) {used m n : Nat} (hused : used ≤ 64) (h : m + n ≤ 64) :
    getBits (s.fill c used) (m + n) = (getBits (s.fill c used) m).bind fun p => getNext p.1 m n p.2 := by
  rcases Nat.lt_or_ge 64 (used + m) with hfirst | hfirst
  · rcases Nat.lt_or_ge s.wpos.toNat (s.rpos.toNat + 8) with hempty | hdata
    · rw [getBits_fill_underflows s c hused (by omega) hempty, getBits_fill_underflows s c hused hfirst hempty]
      rfl
    · rw [getBits_fill_refills s c hused (by omega) hdata, getBits_fill_refills s c hused hfirst hdata, Except.bind,
        getNext, getBits_refilled_fits s (by omega), Except.map,
        show used + (m + n) - 64 = (used + m - 64) + n by omega, and_mask_add, BitVec.shiftLeft_or_distrib,
        ← BitVec.shiftLeft_add, show used + m - 64 + (64 - used) = m by omega, BitVec.or_assoc]
  · rw [getBits_fill_fits s c hfirst, Except.bind, getNext]
    rcases Nat.lt_or_ge 64 (used + (m + n)) with hsecond | hsecond
    · rcases Nat.lt_or_ge s.wpos.toNat (s.rpos.toNat + 8) with hempty | hdata
      · rw [getBits_fill_underflows s c hused hsecond hempty, getBits_fill_underflows s c hfirst (by omega) hempty]
        rfl
      · rw [getBits_fill_refills s c hused hsecond hdata, getBits_fill_refills s c hfirst (by omega) hdata, Except.map,
          show 64 - used = m + (64 - (used + m)) by omega, and_mask_add, BitVec.shiftLeft_or_distrib,
          ← BitVec.shiftLeft_add, Nat.add_comm (64 - (used + m)) m, BitVec.or_assoc, BitVec.shiftRight_add,
          Nat.add_assoc used m n]
    · rw [getBits_fill_fits s c hsecond, getBits_fill_fits s c (by omega), Except.map, and_mask_add,
        BitVec.shiftRight_add, Nat.add_assoc]

/-- One get of m + n bits is a get of m and then one of n, with the values side by side (R128). -/
theorem getBits_add (s : State) {m n : Nat} (h : m + n ≤ 64) :
    getBits s (m + n) = (getBits s m).bind fun p => getNext p.1 m n p.2 := by
  have hfill := getBits_fill_add s s.cache s.offset_le h
  rwa [State.fill_cache_offset] at hfill

/-- Settles O24: both lists of puts are the same puts of single bits. -/
theorem concatenationLaw : Obligations.ConcatenationLaw := by
  refine ⟨fun s a b m n h => ⟨putFields_pair s a b h, ?gets⟩, fun s fields others _ _ hw hw' hbits => ?lists⟩
  case gets =>
    rw [getBits_add s h]
    cases getBits s m with
    | error code => rfl
    | ok p =>
      simp only [Except.bind, getNext]
      cases getBits p.2 n <;> rfl
  case lists =>
    rw [putFields_eq_bits s hw, putFields_eq_bits s hw', fieldBits, fieldBits, hbits]

end Sys2Proof.Machine
end

section
/-!
PROOFS. The bit-run commands on the stream (40_bit_engine.md R124 to R127, R132), puts read back by gets of the same
widths (R130), and how far one command moves the cursors (R129, 70_reset_and_hazards.md R318).
-/

namespace Sys2Proof.Machine

/-! ## What the answer leaves of a put or a get -/

theorem State.HasAppended.respond {s t : State} {bits : List Bool} (h : s.HasAppended t bits) (ok : Bool) :
    s.HasAppended (t.respond ok) bits := { h with }

theorem State.HasConsumed.respond {s t : State} {n : Nat} (h : s.HasConsumed t n) (ok : Bool) :
    s.HasConsumed (t.respond ok) n := { h with }

theorem State.HasConsumed.withResult {s t : State} {n : Nat} (h : s.HasConsumed t n) (r : Word) :
    s.HasConsumed (t.withResult r) n := { h with }

/-! ## PUTB and GETB (R126, R127) -/

theorem exec_putb_of_none {s : State} (hclear : s.fault = .none) (hmode : s.mode = .write) (w : Nat) :
    exec (.putb w) s = finish s (putBits s s.operand w) := by
  rw [exec, execPutb, unlessFaulted_of_none hclear, inMode_of_eq hmode]

theorem exec_getb_of_none {s : State} (hclear : s.fault = .none) (hmode : s.mode = .read) (w : Nat) :
    exec (.getb w) s = finish s (toResult (getBits s w)) := by
  rw [exec, execGetb, unlessFaulted_of_none hclear, inMode_of_eq hmode]

/-- Settles O27: PUTB is one PutBits, which appends or faults by its room. -/
theorem putbAppendsBits : Obligations.PutbAppendsBits := by
  intro s w _ hw hinv hclear hmode
  rw [exec_putb_of_none hclear hmode]
  constructor
  · intro hroom
    obtain ⟨t, hput, _, happended, _⟩ :=
      putBits_appends hinv.store_wf (hinv.write_cache hmode) s.operand hw hroom
    refine ⟨t.respond true, by rw [hput, finish_ok], happended.respond true, ?_⟩
    rw [State.respond_reply, happended.result]
  · intro hfull
    rw [putBits_noRoom hinv.wpos_le_cap _ hw hfull, finish_error_of_none hclear, State.faultedWith]

/-- A value below 2^w, widened with zeros (R127). -/
theorem natBits_widen {r : Word} {w : Nat} (hw : w ≤ 64) (hr : r.toNat < 2 ^ w) :
    natBits r.toNat 64 = widen false (natBits r.toNat w) := by
  have hsplit := natBits_add r.toNat w (64 - w)
  rw [Nat.add_sub_cancel' hw, Nat.div_eq_of_lt hr, natBits_zero_value] at hsplit
  rw [hsplit, widen, natBits_length, Bool.false_and]

/-- Settles O28: GETB is one GetBits, which consumes or faults by its data. -/
theorem getbTakesBits : Obligations.GetbTakesBits := by
  intro s w _ hw hinv hclear hmode
  rw [exec_getb_of_none hclear hmode]
  constructor
  · intro hdata
    obtain ⟨r, t, hget, hbits, hlt, hconsumed, _⟩ := getBits_consumes hw hdata
    refine ⟨(t.withResult r).respond true, by rw [hget, toResult_ok, finish_ok],
      (hconsumed.withResult r).respond true, ?_, rfl⟩
    rw [State.respond_result, State.withResult_result, natBits_widen hw hlt, hbits]
  · intro hempty
    rw [getBits_noData hinv.rpos_le_wpos hw hempty, toResult_error, finish_error_of_none hclear, State.faultedWith]

/-! ## The padding (R132) -/

/-- Settles O26: the word FLIP writes is CACHE, zero above the fill offset. -/
theorem paddingStaysZero : Obligations.PaddingStaysZero := by
  refine ⟨fun s t v w _ hpad hput => putBits_keeps_padding hpad hput, ?flip⟩
  intro s t hinv hmode _ hpartial hexec hclear i hi _
  obtain ⟨u, effect, rfl⟩ := exec_effect hexec hclear
  cases effect with
  | puts kind _ _ => exact nomatch kind
  | gets _ kind _ _ => exact nomatch kind
  | flush _ _ _ =>
    rw [State.respond_store, State.rewound_store, State.flushed_store, Memory.readWord_writeWord hinv.store_wf]
    exact getLsbD_of_shiftRight_eq_zero (hinv.write_cache hmode) hi
  | rewind nothing => exact absurd ⟨hmode, hpartial⟩ nothing

/-! ## Puts, FLIP and gets of the same widths (R130) -/

theorem fieldBits_cons (v : Word) (w : Nat) (fields : List (Word × Nat)) :
    fieldBits ((v, w) :: fields) = natBits v.toNat w ++ fieldBits fields := rfl

theorem fieldBits_length (fields : List (Word × Nat)) :
    (fieldBits fields).length = (fields.map Prod.snd).sum := by
  simp [fieldBits, List.length_flatMap]

/-- Puts that complete have appended their bits. -/
theorem putFields_appended {s t : State} {fields : List (Word × Nat)} (hinv : s.Inv) (hmode : s.mode = .write)
    (hw : ∀ f ∈ fields, f.2 ≤ 64) (h : putFields s fields = .ok t) : s.HasAppended t (fieldBits fields) := by
  by_cases hroom : s.hasRoom (fieldBits fields).length
  · obtain ⟨u, hput, happended, _⟩ := putFields_appends hinv.store_wf (hinv.write_cache hmode) hw hroom
    exact Except.ok.inj (hput.symm.trans h) ▸ happended
  · exact nomatch (putFields_noRoom hinv.store_wf (hinv.write_cache hmode) hinv.wpos_le_cap hw hroom).symm.trans h

/-- An empty buffer holds no bits. -/
theorem State.appended_fresh {s : State} (hfree : s.free.val = 64) (hwpos : s.wpos = 0) : s.appended = [] := by
  simp [State.appended, hfree, hwpos]

/-- FLIP completes when the word it flushes, if there is one, stays within CAP (43_lifecycle.md R252). -/
theorem exec_flip_completes {s : State} (hclear : s.fault = .none)
    (hroom : s.free.val < 64 → s.wpos.toNat + 8 ≤ s.cap.toNat) :
    ∃ t, exec .flip s = .next t ∧ t.fault = .none := by
  have hexec : exec .flip s = finish s (flipBuffer s) := unlessFaulted_of_none hclear _
  rw [hexec, flipBuffer]
  split
  · next hflush =>
    obtain ⟨_, hpartial⟩ := hflush
    rw [flushWord, if_neg (Nat.not_lt.2 (hroom hpartial))]
    exact ⟨_, rfl, hclear⟩
  · exact ⟨_, rfl, hclear⟩

/-- There is data for as many bits as the unread stream holds: the cursors are whole words (10_state.md R47). -/
theorem State.hasData_of_le_unread {s : State} (hinv : s.Inv) {n : Nat} (h : n ≤ s.unread.length) : s.hasData n := by
  have hlength : s.unread.length = s.free.val + 8 * (s.wpos.toNat - s.rpos.toNat) := by
    rw [State.unread, List.length_append, natBits_length, Memory.bits_length]
  have hle := hinv.rpos_le_wpos
  have hwpos := hinv.wpos_aligned
  have hrpos := hinv.rpos_aligned
  unfold State.hasData State.wordsFor
  omega

/-- With data for a + b bits, a get of the first a has data, and after it there is data for the next b. -/
theorem State.HasConsumed.hasData_add {s t : State} {a b : Nat} (h : s.HasConsumed t a) (hd : s.hasData (a + b)) :
    t.hasData b := by
  have hwords := State.wordsFor_add h.free b
  have hrpos := h.rpos
  unfold State.hasData at *
  rw [h.wpos]
  omega

theorem State.hasData_of_add {s : State} {a b : Nat} (h : s.hasData (a + b)) : s.hasData a := by
  unfold State.hasData State.wordsFor at *
  omega

/-- A value of w bits is fixed by them. -/
theorem eq_and_mask_of_natBits {r v : Word} {w : Nat} (hw : w ≤ 64) (hr : r.toNat < 2 ^ w)
    (h : natBits r.toNat w = natBits v.toNat w) : r = v &&& mask w := by
  apply BitVec.eq_of_toNat_eq
  rw [and_mask_toNat v hw, ← Nat.mod_eq_of_lt hr, ← bitsValue_natBits, h, bitsValue_natBits]

/-- Gets of the widths of fields whose bits come next in the stream return the fields (R130). -/
theorem getFields_returns {s : State} {fields : List (Word × Nat)} {rest : List Bool}
    (hw : ∀ f ∈ fields, f.2 ≤ 64) (hd : s.hasData (fieldBits fields).length)
    (hbits : s.unread = fieldBits fields ++ rest) :
    ∃ t, getFields s (fields.map Prod.snd) = .ok (fields.map fun f => f.1 &&& mask f.2, t) := by
  induction fields generalizing s with
  | nil => exact ⟨s, rfl⟩
  | cons field fields ih =>
    obtain ⟨v, w⟩ := field
    have hw' : w ≤ 64 := hw (v, w) List.mem_cons_self
    have hlen : (natBits v.toNat w).length = w := natBits_length _ _
    rw [fieldBits_cons, List.length_append, hlen] at hd
    rw [fieldBits_cons, List.append_assoc] at hbits
    obtain ⟨r, t, hget, htaken, hlt, hconsumed, _⟩ := getBits_consumes hw' (State.hasData_of_add hd)
    have hr : r = v &&& mask w := eq_and_mask_of_natBits hw' hlt (by rw [htaken, hbits, List.take_left' hlen])
    have hleft : t.unread = fieldBits fields ++ rest := by rw [hconsumed.stream, hbits, List.drop_left' hlen]
    obtain ⟨u, hrest⟩ := ih (fun f hf => hw f (List.mem_cons_of_mem _ hf)) (hconsumed.hasData_add hd) hleft
    exact ⟨u, by simp only [List.map_cons, getFields, hget, hrest, hr]⟩

/-- Settles O29: the puts fill the stream, FLIP makes it the unread stream, and the gets read it. -/
theorem boundaryCrossingRoundTrip : Obligations.BoundaryCrossingRoundTrip := by
  intro s fields hinv hclear hmode hfree hwpos hw
  constructor
  · intro t u hput hflip huclear
    have happended := putFields_appended hinv hmode hw hput
    have htinv : t.Inv := ((putFields_yields s fields).value t hput).keeps_inv hinv hmode
    have huinv : u.Inv := (exec_ends hflip).keeps_inv htinv
    obtain ⟨hunread, _⟩ := flipMakesStreamReadable t u htinv (happended.fault.trans hclear)
      (happended.mode.trans hmode) hflip huclear
    rw [happended.stream, State.appended_fresh hfree hwpos, List.nil_append] at hunread
    refine getFields_returns hw (State.hasData_of_le_unread huinv ?_) hunread
    rw [hunread, List.length_append]
    exact Nat.le_add_right _ _
  · intro hcap
    have hwpos' : s.wpos.toNat = 0 := congrArg BitVec.toNat hwpos
    rw [← fieldBits_length] at hcap
    have hroom : s.hasRoom (fieldBits fields).length := by
      unfold State.hasRoom State.wordsFor
      omega
    obtain ⟨t, hput, happended, _⟩ := putFields_appends hinv.store_wf (hinv.write_cache hmode) hw hroom
    have hflush : t.free.val < 64 → t.wpos.toNat + 8 ≤ t.cap.toNat := by
      have htfree := happended.free
      have htwpos := happended.wpos
      rw [happended.cap]
      omega
    obtain ⟨u, hflip, huclear⟩ := exec_flip_completes (happended.fault.trans hclear) hflush
    exact ⟨t, u, hput, hflip, huclear⟩

end Sys2Proof.Machine
end

section
/-!
PROOFS. How far one command moves the cursors (40_bit_engine.md R129, 42_adaptive_codec.md R213,
70_reset_and_hazards.md R318): every put appends and every get consumes at most 128 bits, also on a malformed stream,
and these take at most two words.
-/

namespace Sys2Proof.Machine

/-! ## Inversions of the shared endings -/

theorem inMode_eq_ok {α : Type} {m : Mode} {s : State} {attempt : Attempt α} {x : α}
    (h : inMode m s attempt = .ok x) : s.mode = m ∧ attempt = .ok x := by
  by_cases hmode : s.mode = m
  · exact ⟨hmode, (inMode_of_eq hmode attempt).symm.trans h⟩
  · exact nomatch (inMode_of_ne hmode attempt).symm.trans h

theorem toResult_eq_ok {attempt : Attempt (Word × State)} {t : State} (h : toResult attempt = .ok t) :
    ∃ r u, attempt = .ok (r, u) ∧ t = u.withResult r := by
  cases attempt with
  | ok p => exact ⟨p.1, p.2, rfl, (Except.ok.inj h).symm⟩
  | error code => exact nomatch h

/-- A command that FAULT can refuse completes with its working copy, faults or is refused (60_exceptions.md R282). -/
theorem unlessFaulted_cases {s t : State} {attempt : Attempt State} (h : unlessFaulted s attempt = .next t) :
    (∃ u, attempt = .ok u ∧ t = u.respond true) ∨ (∃ code, t = s.raise code) ∨ t = s.refuse := by
  by_cases hclear : s.fault = .none
  · rw [unlessFaulted_of_none hclear] at h
    cases attempt with
    | ok u => exact .inl ⟨u, rfl, (Host.Outcome.next.inj h).symm⟩
    | error code => exact .inr (.inl ⟨code, (Host.Outcome.next.inj h).symm⟩)
  · rw [unlessFaulted_of_fault hclear] at h
    exact .inr (.inr (Host.Outcome.next.inj h).symm)

/-! ## Puts of at most n bits -/

/-- `t` is `s` after completed puts of at most `n` bits in all. -/
def State.AppendsUpTo (s : State) (n : Nat) (t : State) : Prop := ∃ bits, bits.length ≤ n ∧ s.HasAppended t bits

/-- Fields that PutBits can take, of at most `n` bits in all. -/
def FieldsUpTo (n : Nat) (fields : List (Word × Nat)) : Prop :=
  (∀ f ∈ fields, f.2 ≤ 64) ∧ (fieldBits fields).length ≤ n

theorem FieldsUpTo.nil : FieldsUpTo 0 [] := ⟨fun _ hf => absurd hf List.not_mem_nil, le_refl _⟩

theorem FieldsUpTo.single (v : Word) {w : Nat} (hw : w ≤ 64) : FieldsUpTo w [(v, w)] :=
  ⟨fun _ hf => List.mem_singleton.1 hf ▸ hw, by simp [fieldBits_length]⟩

theorem FieldsUpTo.append {m n : Nat} {fields others : List (Word × Nat)} (h1 : FieldsUpTo m fields)
    (h2 : FieldsUpTo n others) : FieldsUpTo (m + n) (fields ++ others) := by
  obtain ⟨hw, hlen⟩ := h1
  obtain ⟨hw', hlen'⟩ := h2
  refine ⟨fun f hf => (List.mem_append.1 hf).elim (hw f) (hw' f), ?_⟩
  rw [fieldBits, List.flatMap_append, List.length_append]
  exact Nat.add_le_add hlen hlen'

theorem FieldsUpTo.mono {m n : Nat} {fields : List (Word × Nat)} (h : FieldsUpTo m fields) (hle : m ≤ n) :
    FieldsUpTo n fields := by
  obtain ⟨hw, hlen⟩ := h
  exact ⟨hw, hlen.trans hle⟩

theorem signFields_upTo (sm : SignMode) (v : Int) : FieldsUpTo 1 (signFields sm v) := by
  cases sm with
  | positive => exact FieldsUpTo.nil.mono (by decide)
  | negative => exact FieldsUpTo.nil.mono (by decide)
  | either => exact .single _ (by decide)

theorem escapes_half_eq_false {w : IntWidth} {bl : Nat} (h : escapes w .half bl = false) :
    prefixWidth w + bl + 1 < widthBits w := by
  simp only [escapes, decide_eq_false_iff_not] at h
  omega

theorem escapes_blocked_eq_false {w : IntWidth} {bl : Nat} (h : escapes w .blocked bl = false) :
    blockCount bl < 8 := by
  simp only [escapes, Bool.or_eq_false_iff, decide_eq_false_iff_not] at h
  omega

theorem widthBits_le (w : IntWidth) : widthBits w ≤ 64 := by cases w <;> decide

/-- Below the escape bound the length field, the magnitude and the pad take fewer bits than the value (R205, R209). -/
theorem compressedFields_upTo {w : IntWidth} {st : Strategy} {m : Word} (h : escapes w st (bitLength m) = false) :
    FieldsUpTo 63 (compressedFields w st m) := by
  cases st with
  | half =>
    have hbound := escapes_half_eq_false h
    have hwidth := widthBits_le w
    have hpad : FieldsUpTo 1 (if bitLength m % 2 = 0 then [(0, 1)] else []) := by
      split
      · exact .single _ (by decide)
      · exact FieldsUpTo.nil.mono (by decide)
    exact (((FieldsUpTo.single _ (by omega)).append (.single m (by omega))).append hpad).mono (by omega)
  | blocked =>
    have hbound := escapes_blocked_eq_false h
    exact ((FieldsUpTo.single _ (by decide)).append (.single m (by omega))).mono (by omega)

/-- Every encoding has at most 65 bits: a flag, a sign and 63 more (40_bit_engine.md R129). -/
theorem encodingFields_upTo (w : IntWidth) (sm : SignMode) (st : Strategy) (v : Int) :
    FieldsUpTo 65 (encodingFields w sm st v) := by
  have hwidth := widthBits_le w
  have hhead : ∀ flag : Word, FieldsUpTo 2 ((flag, 1) :: signFields sm v) := fun flag =>
    (FieldsUpTo.single flag (by decide)).append (signFields_upTo sm v)
  unfold encodingFields
  dsimp only
  split
  · exact ((hhead 0).append (.single _ (by omega))).mono (by omega)
  · next hfits => exact (hhead 1).append (compressedFields_upTo (Bool.eq_false_iff.2 hfits))

theorem State.AppendsUpTo.mono {s t : State} {m n : Nat} (h : s.AppendsUpTo m t) (hle : m ≤ n) :
    s.AppendsUpTo n t := by
  obtain ⟨bits, hlen, happended⟩ := h
  exact ⟨bits, hlen.trans hle, happended⟩

theorem putFields_appendsUpTo {s t : State} {n : Nat} {fields : List (Word × Nat)} (hinv : s.Inv)
    (hmode : s.mode = .write) (hfields : FieldsUpTo n fields) (h : putFields s fields = .ok t) :
    s.AppendsUpTo n t := by
  obtain ⟨hw, hlen⟩ := hfields
  exact ⟨fieldBits fields, hlen, putFields_appended hinv hmode hw h⟩

theorem putBits_appendsUpTo {s t : State} {v : Word} {w : Nat} (hinv : s.Inv) (hw : w ≤ 64)
    (h : inMode .write s (putBits s v w) = .ok t) : s.AppendsUpTo 65 t := by
  obtain ⟨hmode, hput⟩ := inMode_eq_ok h
  rw [← putFields_singleton] at hput
  exact (putFields_appendsUpTo hinv hmode (.single v hw) hput).mono (by omega)

theorem putAdaptive_appendsUpTo {w : IntWidth} {sm : SignMode} {st : Strategy} {s t : State} (hinv : s.Inv)
    (h : putAdaptive w sm st s = .ok t) : s.AppendsUpTo 65 t := by
  obtain ⟨hmode, hput⟩ := inMode_eq_ok h
  dsimp only at hput
  split at hput
  · exact nomatch hput
  · exact putFields_appendsUpTo hinv hmode (encodingFields_upTo w sm st _) hput

/-- At most 128 bits are at most two words (40_bit_engine.md R129). -/
theorem State.wordsFor_le_two (s : State) {n : Nat} (h : n ≤ 128) : s.wordsFor n ≤ 2 := by
  unfold State.wordsFor; omega

/-- A put of at most 65 bits, however it ends, moves WPOS by at most two words. -/
theorem put_moves {s t : State} {attempt : Attempt State} (happends : ∀ u, attempt = .ok u → s.AppendsUpTo 65 u)
    (h : unlessFaulted s attempt = .next t) :
    s.wpos.toNat ≤ t.wpos.toNat ∧ t.wpos.toNat ≤ s.wpos.toNat + 16 ∧ t.rpos = s.rpos := by
  rcases unlessFaulted_cases h with ⟨u, hok, rfl⟩ | ⟨code, rfl⟩ | rfl
  · obtain ⟨bits, hlen, happended⟩ := happends u hok
    have hwords := s.wordsFor_le_two (n := bits.length) (by omega)
    have hwpos := happended.wpos
    rw [State.respond_wpos, State.respond_rpos]
    exact ⟨by omega, by omega, happended.rpos⟩
  · rw [State.raise_wpos, State.raise_rpos]
    exact ⟨le_refl _, Nat.le_add_right _ _, rfl⟩
  · rw [State.refuse_wpos, State.refuse_rpos]
    exact ⟨le_refl _, Nat.le_add_right _ _, rfl⟩

/-! ## Gets of at most n bits -/

/-- `t` is `s` after completed gets of at most `n` bits in all, RPOS being still within WPOS. -/
def State.ConsumesUpTo (s : State) (n : Nat) (t : State) : Prop :=
  ∃ k ≤ n, s.HasConsumed t k ∧ t.rpos.toNat ≤ t.wpos.toNat

theorem State.ConsumesUpTo.trans {s t u : State} {m n : Nat} (h1 : s.ConsumesUpTo m t) (h2 : t.ConsumesUpTo n u) :
    s.ConsumesUpTo (m + n) u := by
  obtain ⟨k, hk, hconsumed, _⟩ := h1
  obtain ⟨l, hl, hconsumed', hle⟩ := h2
  exact ⟨k + l, Nat.add_le_add hk hl, hconsumed.trans hconsumed', hle⟩

theorem State.ConsumesUpTo.mono {s t : State} {m n : Nat} (h : s.ConsumesUpTo m t) (hle : m ≤ n) :
    s.ConsumesUpTo n t := by
  obtain ⟨k, hk, hconsumed⟩ := h
  exact ⟨k, hk.trans hle, hconsumed⟩

theorem State.ConsumesUpTo.rpos_le_wpos {s t : State} {n : Nat} (h : s.ConsumesUpTo n t) :
    t.rpos.toNat ≤ t.wpos.toNat := by
  obtain ⟨_, _, _, hle⟩ := h
  exact hle

/-- A GetBits that completes consumes its width and gives a value of that width (R125). -/
theorem getBits_consumesUpTo {s t : State} {w : Nat} {r : Word} (hle : s.rpos.toNat ≤ s.wpos.toNat) (hw : w ≤ 64)
    (h : getBits s w = .ok (r, t)) : s.ConsumesUpTo w t ∧ r.toNat < 2 ^ w := by
  by_cases hdata : s.hasData w
  · obtain ⟨r', t', hget, _, hlt, hconsumed, _⟩ := getBits_consumes hw hdata
    obtain ⟨rfl, rfl⟩ := Prod.mk.inj (Except.ok.inj (hget.symm.trans h))
    have hend : t'.rpos.toNat ≤ t'.wpos.toNat := by
      rw [hconsumed.rpos, hconsumed.wpos]; exact hdata
    exact ⟨⟨w, le_refl w, hconsumed, hend⟩, hlt⟩
  · exact nomatch (getBits_noData hle hw hdata).symm.trans h

theorem getSign_consumesUpTo {sm : SignMode} {s t : State} {r : Word} (hle : s.rpos.toNat ≤ s.wpos.toNat)
    (h : getSign sm s = .ok (r, t)) : s.ConsumesUpTo 1 t := by
  have hnothing : s.ConsumesUpTo 1 s := ⟨0, by decide, .refl s, hle⟩
  cases sm with
  | positive =>
    obtain ⟨-, rfl⟩ := Prod.mk.inj (Except.ok.inj h)
    exact hnothing
  | negative =>
    obtain ⟨-, rfl⟩ := Prod.mk.inj (Except.ok.inj h)
    exact hnothing
  | either =>
    obtain ⟨hconsumed, _⟩ := getBits_consumesUpTo hle (by decide) h
    exact hconsumed

/-- The length field bounds the magnitude it announces, whatever the stream holds (R208, R211). -/
theorem getMagnitude_consumesUpTo {w : IntWidth} {st : Strategy} {flag : Word} {s t : State} {r : Word}
    (hle : s.rpos.toNat ≤ s.wpos.toNat) (h : getMagnitude w st flag s = .ok (r, t)) : s.ConsumesUpTo 68 t := by
  have hwidth := widthBits_le w
  unfold getMagnitude at h
  split at h
  · obtain ⟨hconsumed, _⟩ := getBits_consumesUpTo hle (by omega) h
    exact hconsumed.mono (by omega)
  · cases st with
    | half =>
      simp only at h
      split at h
      · next announced u hlength =>
        have hshort : prefixWidth w ≤ 5 := by cases w <;> decide
        obtain ⟨hfirst, hlt⟩ := getBits_consumesUpTo hle (by omega) hlength
        have hannounced : announced.toNat < 2 ^ 5 := hlt.trans_le (Nat.pow_le_pow_right (by decide) hshort)
        obtain ⟨hrest, _⟩ := getBits_consumesUpTo hfirst.rpos_le_wpos (by omega) h
        exact (hfirst.trans hrest).mono (by omega)
      · exact nomatch h
    | blocked =>
      simp only at h
      split at h
      · next announced u hlength =>
        obtain ⟨hfirst, hlt⟩ := getBits_consumesUpTo hle (by decide) hlength
        obtain ⟨hrest, _⟩ := getBits_consumesUpTo hfirst.rpos_le_wpos (by omega) h
        exact (hfirst.trans hrest).mono (by omega)
      · exact nomatch h

theorem getFixed_consumesUpTo {n : Nat} {ext : Extension} {bo : ByteOrder} {s t : State} {r : Word}
    (hle : s.rpos.toNat ≤ s.wpos.toNat) (hn : n ≤ 64) (h : getFixed n ext bo s = .ok (r, t)) :
    s.ConsumesUpTo 70 t := by
  obtain ⟨_, hattempt⟩ := inMode_eq_ok h
  split at hattempt
  · next x u hget =>
    obtain ⟨-, rfl⟩ := Prod.mk.inj (Except.ok.inj hattempt)
    obtain ⟨hconsumed, _⟩ := getBits_consumesUpTo hle hn hget
    exact hconsumed.mono (by omega)
  · exact nomatch hattempt

theorem getAdaptive_consumesUpTo {w : IntWidth} {sm : SignMode} {st : Strategy} {s t : State} {r : Word}
    (hle : s.rpos.toNat ≤ s.wpos.toNat) (h : getAdaptive w sm st s = .ok (r, t)) : s.ConsumesUpTo 70 t := by
  obtain ⟨_, hattempt⟩ := inMode_eq_ok h
  split at hattempt
  · exact nomatch hattempt
  · next flag s1 hflag =>
    split at hattempt
    · exact nomatch hattempt
    · next sign s2 hsign =>
      split at hattempt
      · exact nomatch hattempt
      · next m s3 hmagnitude =>
        obtain ⟨-, rfl⟩ := Prod.mk.inj (Except.ok.inj hattempt)
        obtain ⟨hfirst, _⟩ := getBits_consumesUpTo hle (by decide) hflag
        have hsecond := getSign_consumesUpTo hfirst.rpos_le_wpos hsign
        have hthird := getMagnitude_consumesUpTo hsecond.rpos_le_wpos hmagnitude
        exact (hfirst.trans hsecond).trans hthird

/-- A get of at most 70 bits, however it ends, moves RPOS by at most two words. -/
theorem get_moves {s t : State} {attempt : Attempt (Word × State)}
    (hconsumes : ∀ r u, attempt = .ok (r, u) → s.ConsumesUpTo 70 u)
    (h : unlessFaulted s (toResult attempt) = .next t) :
    s.rpos.toNat ≤ t.rpos.toNat ∧ t.rpos.toNat ≤ s.rpos.toNat + 16 ∧ t.wpos = s.wpos := by
  rcases unlessFaulted_cases h with ⟨u, hok, rfl⟩ | ⟨code, rfl⟩ | rfl
  · obtain ⟨r, v, hget, rfl⟩ := toResult_eq_ok hok
    obtain ⟨n, hn, hconsumed, _⟩ := hconsumes r v hget
    have hwords := s.wordsFor_le_two (n := n) (by omega)
    have hrpos := hconsumed.rpos
    rw [State.respond_wpos, State.respond_rpos, State.withResult_rpos, State.withResult_wpos]
    exact ⟨by omega, by omega, hconsumed.wpos⟩
  · rw [State.raise_wpos, State.raise_rpos]
    exact ⟨le_refl _, Nat.le_add_right _ _, rfl⟩
  · rw [State.refuse_wpos, State.refuse_rpos]
    exact ⟨le_refl _, Nat.le_add_right _ _, rfl⟩

/-! ## The commands -/

/-- GETB checks the mode around the whole command, the other gets around its value; the two are the same. -/
theorem inMode_toResult (m : Mode) (s : State) (attempt : Attempt (Word × State)) :
    inMode m s (toResult attempt) = toResult (inMode m s attempt) := by
  by_cases hmode : s.mode = m
  · rw [inMode_of_eq hmode, inMode_of_eq hmode]
  · rw [inMode_of_ne hmode, inMode_of_ne hmode, toResult_error]

theorem getb_consumesUpTo {w : Nat} {s t : State} {r : Word} (hle : s.rpos.toNat ≤ s.wpos.toNat) (hw : w ≤ 64)
    (h : inMode .read s (getBits s w) = .ok (r, t)) : s.ConsumesUpTo 70 t := by
  obtain ⟨_, hget⟩ := inMode_eq_ok h
  obtain ⟨hconsumed, _⟩ := getBits_consumesUpTo hle hw hget
  exact hconsumed.mono (by omega)

theorem widthOk_le {w : Nat} (h : widthOk w = true) : w ≤ 64 := by
  simp only [widthOk, Bool.and_eq_true, decide_eq_true_eq] at h
  exact h.2

theorem exec_put_moves {i : Instr} {s t : State} (hlegal : i.wellFormed = true) (hinv : s.Inv)
    (kind : neededMode i = some .write) (h : exec i s = .next t) :
    s.wpos.toNat ≤ t.wpos.toNat ∧ t.wpos.toNat ≤ s.wpos.toNat + 16 ∧ t.rpos = s.rpos := by
  cases i
  case putb w => exact put_moves (fun u => putBits_appendsUpTo hinv (widthOk_le hlegal)) h
  case putByte | putChar | putShort | putInt | putLong | putFloat | putDouble =>
    exact put_moves (fun u => putBits_appendsUpTo hinv (by decide)) h
  case putv16 | putv32 | putv64 => exact put_moves (fun u => putAdaptive_appendsUpTo hinv) h
  all_goals exact nomatch kind

theorem exec_get_moves {i : Instr} {s t : State} (hlegal : i.wellFormed = true) (hinv : s.Inv)
    (kind : neededMode i = some .read) (h : exec i s = .next t) :
    s.rpos.toNat ≤ t.rpos.toNat ∧ t.rpos.toNat ≤ s.rpos.toNat + 16 ∧ t.wpos = s.wpos := by
  have hle := hinv.rpos_le_wpos
  cases i
  case getb w =>
    rw [exec, execGetb, inMode_toResult] at h
    exact get_moves (fun r u => getb_consumesUpTo hle (widthOk_le hlegal)) h
  case getByte | getChar | getShort | getInt | getLong | getFloat | getDouble =>
    exact get_moves (fun r u => getFixed_consumesUpTo hle (by decide)) h
  case getv16 | getv32 | getv64 => exact get_moves (fun r u => getAdaptive_consumesUpTo hle) h
  all_goals exact nomatch kind

/-- Settles O30: by kind, the bits of the command are at most two words. -/
theorem atMostTwoWordAccesses : Obligations.AtMostTwoWordAccesses := fun _ _ _ hlegal hinv hexec =>
  ⟨fun kind => exec_put_moves hlegal hinv kind hexec, fun kind => exec_get_moves hlegal hinv kind hexec⟩

end Sys2Proof.Machine
end

section
/-!
PROOFS. The fixed-width codec (41_fixed_width.md): the byte order and the widening as operations on lists of bits
(R160, R162), then the puts and the gets (R161 to R176) and what a get returns of a put (R178, R179).
-/

namespace Sys2Proof.Machine

/-! ## The byte order on bits (R160) -/

/-- The bits of m whole bytes are the bits of each byte in turn. -/
theorem natBits_eq_flatMap_bytes (x : Word) (m : Nat) :
    natBits x.toNat (8 * m) = (List.range m).flatMap fun k => natBits (x.extractLsb' (8 * k) 8).toNat 8 := by
  induction m with
  | zero => rfl
  | succ m ih =>
    rw [Nat.mul_succ, List.range_succ, List.flatMap_append, ← ih, List.flatMap_singleton,
      natBits_extractLsb' x (le_refl (8 * m + 8)), natBits_drop, natBits_add, Nat.add_sub_cancel_left,
      List.take_of_length_le (natBits_length _ _).le]

/-- BigEndian reverses the order of the bytes of a list of bits as `byterev` does those of a word. -/
theorem orderBits_big_natBits (x : Word) {m : Nat} (hm : m ≤ 8) :
    orderBits .big (natBits x.toNat (8 * m)) = natBits (byterev m x).toNat (8 * m) := by
  obtain ⟨hreversed, _⟩ := byterevReversesBytes m hm x
  have hrange : (List.range m).reverse = (List.range m).map (m - 1 - ·) := by
    simp [List.range_eq_range', List.reverse_range']
  rw [natBits_eq_flatMap_bytes (byterev m x), orderBits, natBits_length, Nat.mul_div_cancel_left m (by decide),
    hrange, List.flatMap_map]
  refine List.flatMap_congr fun k hk => ?_
  have hk' : k < m := List.mem_range.1 hk
  rw [hreversed k hk', natBits_extractLsb' x (n := 8 * m) (by omega)]

/-- The byte order on words is the byte order on their bits. -/
theorem natBits_inByteOrder (ty : FixedType) (bo : ByteOrder) (x : Word) :
    natBits (inByteOrder bo (typeWidth ty) x).toNat (typeWidth ty) =
      orderBits bo (natBits x.toNat (typeWidth ty)) := by
  obtain ⟨hbytes, hwidth⟩ := typeWidth_bytes ty
  cases bo with
  | little => rfl
  | big =>
    rw [inByteOrder, hbytes, Nat.mul_div_cancel_left _ (by decide), orderBits_big_natBits x (by omega)]

/-- Reversing m bytes twice gives them back. -/
theorem natBits_byterev_byterev (x : Word) {m : Nat} (hm : m ≤ 8) :
    natBits (byterev m (byterev m x)).toNat (8 * m) = natBits x.toNat (8 * m) := by
  refine natBits_congr fun i hi => ?_
  have hback : (byterev m (byterev m x)).getLsbD i = x.getLsbD i := by
    have hsource : 8 * (m - 1 - i / 8) + i % 8 < 8 * m := by omega
    have hindex :
        8 * (m - 1 - (8 * (m - 1 - i / 8) + i % 8) / 8) + (8 * (m - 1 - i / 8) + i % 8) % 8 = i := by omega
    rw [byterev_getLsbD hm, byterev_getLsbD hm, hindex, decide_eq_true hi, decide_eq_true hsource, Bool.true_and,
      Bool.true_and]
  exact hback

/-- What one byte order makes of the other: the bits in their own order when the two are the same, and else the bits
with the bytes reversed. -/
theorem orderBits_orderBits (ty : FixedType) (bo bo' : ByteOrder) (x : Word) :
    orderBits bo' (orderBits bo (natBits x.toNat (typeWidth ty))) =
      if bo' = bo then natBits x.toNat (typeWidth ty) else orderBits .big (natBits x.toNat (typeWidth ty)) := by
  obtain ⟨hbytes, hwidth⟩ := typeWidth_bytes ty
  cases bo <;> cases bo'
  case little.little | little.big | big.little => rfl
  case big.big =>
    rw [if_pos rfl, hbytes, orderBits_big_natBits x (by omega), orderBits_big_natBits _ (by omega),
      natBits_byterev_byterev x (by omega)]

/-! ## The widening on bits (R162) -/

/-- Narrowing to n bits keeps the low n bits (00_scope.md R13). -/
theorem natBits_zext (x : Word) {n : Nat} (hn : n ≤ 64) : natBits (zext n x).toNat n = natBits x.toNat n := by
  refine natBits_congr fun i hi => ?_
  have hbit : (zext n x).getLsbD i = x.getLsbD i := by
    simp [zext, hi, show i < 64 by omega]
  exact hbit

/-- Zero-extension is the widening of an unsigned type. -/
theorem natBits_zext_widen (x : Word) {n : Nat} (hn : n ≤ 64) :
    natBits (zext n x).toNat 64 = widen false (natBits x.toNat n) := by
  have hlt : (zext n x).toNat < 2 ^ n := by
    rw [zext, BitVec.toNat_setWidth_of_le hn]
    exact (x.setWidth n).isLt
  rw [natBits_widen hn hlt, natBits_zext x hn]

/-- Below n the bits stay, and from n on they are copies of bit n - 1 (00_scope.md R13). -/
theorem sext_getLsbD (x : Word) {n i : Nat} (hpos : 0 < n) (hi : i < 64) :
    (sext n x).getLsbD i = if i < n then x.getLsbD i else x.getLsbD (n - 1) := by
  rw [sext, BitVec.getLsbD_signExtend, decide_eq_true hi, Bool.true_and, BitVec.msb_eq_getLsbD_last,
    BitVec.getLsbD_setWidth, BitVec.getLsbD_setWidth]
  by_cases hlow : i < n
  · rw [if_pos hlow, if_pos hlow, decide_eq_true hlow, Bool.true_and]
  · rw [if_neg hlow, if_neg hlow, decide_eq_true (Nat.sub_lt hpos Nat.one_pos), Bool.true_and]

/-- The last of n bits is bit n - 1. -/
theorem natBits_getLastD (v : Nat) {n : Nat} (hn : 0 < n) : (natBits v n).getLastD false = v.testBit (n - 1) := by
  obtain ⟨m, rfl⟩ := Nat.exists_eq_add_of_lt hn
  simp [natBits, List.range_succ]

/-- Sign-extension is the widening of a signed type. -/
theorem natBits_sext_widen (x : Word) {n : Nat} (hpos : 0 < n) (hn : n ≤ 64) :
    natBits (sext n x).toNat 64 = widen true (natBits x.toNat n) := by
  have hlow : natBits (sext n x).toNat n = natBits x.toNat n := by
    refine natBits_congr fun i hi => ?_
    exact (sext_getLsbD x hpos (by omega)).trans (if_pos hi)
  have hhigh : natBits ((sext n x).toNat / 2 ^ n) (64 - n) =
      List.replicate (64 - n) (x.toNat.testBit (n - 1)) := by
    refine List.eq_replicate_iff.2 ⟨natBits_length _ _, fun b hb => ?_⟩
    obtain ⟨i, hi, rfl⟩ := List.mem_map.1 hb
    rw [Nat.testBit_div_two_pow]
    have hi' : i < 64 - n := List.mem_range.1 hi
    exact (sext_getLsbD x hpos (by omega)).trans (if_neg (by omega))
  have hsplit := natBits_add (sext n x).toNat n (64 - n)
  rw [Nat.add_sub_cancel' hn, hlow, hhigh] at hsplit
  rw [hsplit, widen, natBits_length, Bool.true_and, natBits_getLastD _ hpos]

/-- The widening a get of the type applies (R170 to R176). -/
def typeExtension (ty : FixedType) : Extension := if typeSigned ty then .sign else .zero

/-- The extension of a get widens the bits of the value as the type's rule says. -/
theorem natBits_typeExtension (ty : FixedType) (x : Word) :
    natBits ((typeExtension ty).apply (typeWidth ty) x).toNat 64 =
      widen (typeSigned ty) (natBits x.toNat (typeWidth ty)) := by
  obtain ⟨_, hwidth⟩ := typeWidth_bytes ty
  have hpos : 0 < typeWidth ty := by cases ty <;> decide
  rw [typeExtension]
  cases typeSigned ty with
  | false => exact natBits_zext_widen x hwidth
  | true => exact natBits_sext_widen x hpos hwidth

/-! ## The puts (R161, R163 to R169) -/

/-- The bits a put appends are those of OPERAND in the byte order. -/
theorem State.natBits_fixedValue (s : State) (ty : FixedType) (bo : ByteOrder) :
    natBits (s.fixedValue ty bo).toNat (typeWidth ty) =
      orderBits bo (natBits s.operand.toNat (typeWidth ty)) := by
  obtain ⟨_, hwidth⟩ := typeWidth_bytes ty
  rw [State.fixedValue, natBits_inByteOrder, State.fixedOperand, natBits_zext _ hwidth]

/-- Settles O31: the put is one PutBits of the value in its byte order, which appends or faults by its room. -/
theorem fixedPutsAppendValue : Obligations.FixedPutsAppendValue := by
  intro ty bo s hinv hclear hmode
  obtain ⟨_, hwidth⟩ := typeWidth_bytes ty
  rw [exec_putOf, unlessFaulted_of_none hclear, inMode_of_eq hmode]
  constructor
  · intro hroom
    obtain ⟨t, hput, _, happended, _⟩ :=
      putBits_appends hinv.store_wf (hinv.write_cache hmode) (s.fixedValue ty bo) hwidth hroom
    rw [s.natBits_fixedValue ty bo] at happended
    refine ⟨t.respond true, by rw [hput, finish_ok], happended.respond true, ?_⟩
    rw [State.respond_reply, happended.result]
  · intro hfull
    rw [putBits_noRoom hinv.wpos_le_cap _ hwidth hfull, finish_error_of_none hclear, State.faultedWith]

/-! ## The gets (R162, R170 to R176) -/

/-- Each fixed-width get is one GetFixed of the type's width and widening. -/
theorem exec_getOf (ty : FixedType) (bo : ByteOrder) (s : State) :
    exec (getOf ty bo) s =
      unlessFaulted s (toResult (getFixed (typeWidth ty) (typeExtension ty) bo s)) := by
  cases ty <;> rfl

theorem getFixed_ok {n : Nat} {ext : Extension} {bo : ByteOrder} {s t : State} {x : Word} (hmode : s.mode = .read)
    (h : getBits s n = .ok (x, t)) : getFixed n ext bo s = .ok (ext.apply n (inByteOrder bo n x), t) := by
  rw [getFixed, inMode_of_eq hmode, h]

theorem getFixed_error {n : Nat} {ext : Extension} {bo : ByteOrder} {s : State} {code : FaultCode}
    (hmode : s.mode = .read) (h : getBits s n = .error code) : getFixed n ext bo s = .error code := by
  rw [getFixed, inMode_of_eq hmode, h]

/-- Settles O32: the get is one GetBits, which consumes or faults by its data, and the value read is ordered and
widened bit by bit. -/
theorem fixedGetsWidenValue : Obligations.FixedGetsWidenValue := by
  intro ty bo s hinv hclear hmode
  obtain ⟨_, hwidth⟩ := typeWidth_bytes ty
  rw [exec_getOf, unlessFaulted_of_none hclear]
  constructor
  · intro hdata
    obtain ⟨x, t, hget, hbits, _, hconsumed, _⟩ := getBits_consumes hwidth hdata
    refine ⟨_, by rw [getFixed_ok hmode hget, toResult_ok, finish_ok],
      (hconsumed.withResult _).respond true, ?_, rfl⟩
    rw [State.respond_result, State.withResult_result, natBits_typeExtension, natBits_inByteOrder, hbits]
  · intro hempty
    rw [getFixed_error hmode (getBits_noData hinv.rpos_le_wpos hwidth hempty), toResult_error,
      finish_error_of_none hclear, State.faultedWith]

/-! ## The round trip (R178, R179) -/

/-- After a put and FLIP, the value put is at the front of the stream that follows what was appended before it. -/
theorem flip_unread_after_put {ty : FixedType} {bo : ByteOrder} {s t u : State} (hinv : s.Inv)
    (hclear : s.fault = .none) (hmode : s.mode = .write) (hput : exec (putOf ty bo) s = .next t)
    (htclear : t.fault = .none) (hflip : exec .flip t = .next u) (huclear : u.fault = .none) :
    ∃ rest, u.unread.drop s.appended.length = orderBits bo (natBits s.operand.toNat (typeWidth ty)) ++ rest := by
  have happended := exec_putOf_appended hinv hclear hmode hput htclear
  obtain ⟨hunread, _⟩ := flipMakesStreamReadable t u ((exec_ends hput).keeps_inv hinv) htclear
    (happended.mode.trans hmode) hflip huclear
  rw [hunread, happended.stream, s.natBits_fixedValue ty bo, List.append_assoc, List.drop_left]
  exact ⟨_, rfl⟩

theorem orderBits_natBits_length (ty : FixedType) (bo : ByteOrder) (x : Word) :
    (orderBits bo (natBits x.toNat (typeWidth ty))).length = typeWidth ty := by
  rw [← natBits_inByteOrder, natBits_length]

/-- Settles O33: the get reads the bits the put has appended, and orders them a second time. -/
theorem fixedRoundTrip : Obligations.FixedRoundTrip := by
  intro ty bo bo' s t u g hinv hclear hmode hput htclear hflip huclear hginv hgclear hgmode hposition
  obtain ⟨rest, hvalue⟩ := flip_unread_after_put hinv hclear hmode hput htclear hflip huclear
  have hlength := orderBits_natBits_length ty bo s.operand
  rw [hvalue] at hposition
  have hdata : g.hasData (typeWidth ty) := by
    refine State.hasData_of_le_unread hginv ?_
    rw [hposition, List.length_append, hlength]
    exact Nat.le_add_right _ _
  obtain ⟨hcompletes, _⟩ := fixedGetsWidenValue ty bo' g hginv hgclear hgmode
  obtain ⟨h, hget, hconsumed, hresult, _⟩ := hcompletes hdata
  rw [hposition, List.take_left' hlength, orderBits_orderBits] at hresult
  exact ⟨h, hget, hconsumed.fault.trans hgclear, hresult⟩

end Sys2Proof.Machine
end

section
/-!
PROOFS. The adaptive format as lists of bits (42_adaptive_codec.md): the escape thresholds (R206, R210), an encoding
cut where a decoder cuts it (R205 to R211), and its decoding (R214, R228).
-/

namespace Sys2Proof.Machine

/-! ## bit_length and the escape thresholds (R204, R206, R210) -/

/-- `bitLen m` is the least n with m < 2^n (00_scope.md R14). -/
theorem lt_two_pow_iff_bitLen_le (m n : Nat) : m < 2 ^ n ↔ bitLen m ≤ n := by
  rcases Nat.eq_zero_or_pos m with rfl | hpos
  · simp [bitLen]
  · have hne : m ≠ 0 := by omega
    rw [bitLen, if_neg hne, Nat.succ_le_iff, Nat.log2_lt hne]

theorem lt_two_pow_bitLen (m : Nat) : m < 2 ^ bitLen m := (lt_two_pow_iff_bitLen_le m _).2 (le_refl _)

/-- The longest magnitude of the compressed path in bits: one less than the threshold lengths of R206 and R210. -/
def longestCompressed : IntWidth → Strategy → Nat
  | .w16, .half => 11
  | .w32, .half => 26
  | .w64, .half => 57
  | .w16, .blocked => 8
  | .w32, .blocked => 24
  | .w64, .blocked => 28

theorem smallestEscaped_eq (w : IntWidth) (st : Strategy) : smallestEscaped w st = 2 ^ longestCompressed w st := by
  cases w <;> cases st <;> rfl

theorem takesEscape_half_iff (w : IntWidth) (m : Nat) :
    takesEscape w .half m = true ↔ widthBits w - prefixWidth w - 1 ≤ bitLen m := decide_eq_true_iff

theorem takesEscape_blocked_iff (w : IntWidth) (m : Nat) :
    takesEscape w .blocked m = true ↔
      8 ≤ (bitLen m + 3) / 4 ∨ widthBits w - 4 ≤ 4 * ((bitLen m + 3) / 4) := decide_eq_true_iff

/-- The conditions of R205 and R209 are bounds on the bit length. -/
theorem takesEscape_iff_longestCompressed_lt (w : IntWidth) (st : Strategy) (m : Nat) :
    takesEscape w st m = true ↔ longestCompressed w st < bitLen m := by
  cases st with
  | half => rw [takesEscape_half_iff]; cases w <;> simp only [longestCompressed, widthBits, prefixWidth] <;> omega
  | blocked => rw [takesEscape_blocked_iff]; cases w <;> simp only [longestCompressed, widthBits] <;> omega

/-- The escape path is taken from the smallest escaped magnitude on (R206, R210). -/
theorem takesEscape_iff_smallestEscaped_le (w : IntWidth) (st : Strategy) (m : Nat) :
    takesEscape w st m = true ↔ smallestEscaped w st ≤ m := by
  rw [takesEscape_iff_longestCompressed_lt, smallestEscaped_eq, ← Nat.not_lt (a := m), lt_two_pow_iff_bitLen_le,
    Nat.not_le]

theorem bitLen_le_of_not_takesEscape {w : IntWidth} {st : Strategy} {m : Nat} (h : takesEscape w st m = false) :
    bitLen m ≤ longestCompressed w st := by
  rw [← Nat.not_lt, ← takesEscape_iff_longestCompressed_lt, h]
  exact Bool.false_ne_true

/-- The half-length of a compressed magnitude fits its field (R206). -/
theorem half_length_lt {w : IntWidth} {n : Nat} (h : n ≤ longestCompressed w .half) : n / 2 < 2 ^ prefixWidth w := by
  cases w <;> simp only [longestCompressed] at h <;> simp only [prefixWidth] <;> omega

/-- The block count of a compressed magnitude fits its three bits (R210). -/
theorem block_count_lt {w : IntWidth} {n : Nat} (h : n ≤ longestCompressed w .blocked) : (n + 3) / 4 < 2 ^ 3 := by
  cases w <;> simp only [longestCompressed] at h <;> omega

/-! ## An encoding as the decoder cuts it (R205, R207, R209) -/

/-- What stands after the flag and the sign in an encoding of magnitude `m`, in the numbers a decoder reads: the
magnitude alone, or a length field and the magnitude with its pad (R208, R211). -/
def magnitudePart (w : IntWidth) (st : Strategy) (m : Nat) : List Bool :=
  if takesEscape w st m then natBits m (widthBits w - 1)
  else
    match st with
    | .half => natBits (bitLen m / 2) (prefixWidth w) ++ natBits m (2 * (bitLen m / 2) + 1)
    | .blocked => natBits ((bitLen m + 3) / 4) 3 ++ natBits m (4 * ((bitLen m + 3) / 4))

theorem magnitudePart_escape {w : IntWidth} {st : Strategy} {m : Nat} (h : takesEscape w st m = true) :
    magnitudePart w st m = natBits m (widthBits w - 1) := if_pos h

theorem magnitudePart_half {w : IntWidth} {m : Nat} (h : takesEscape w .half m = false) :
    magnitudePart w .half m = natBits (bitLen m / 2) (prefixWidth w) ++ natBits m (2 * (bitLen m / 2) + 1) :=
  if_neg (Bool.eq_false_iff.1 h)

theorem magnitudePart_blocked {w : IntWidth} {m : Nat} (h : takesEscape w .blocked m = false) :
    magnitudePart w .blocked m =
      natBits ((bitLen m + 3) / 4) 3 ++ natBits m (4 * ((bitLen m + 3) / 4)) :=
  if_neg (Bool.eq_false_iff.1 h)

/-- The magnitude and its 0 pad are the magnitude in an odd number of bits (R207). -/
theorem natBits_pad (m : Nat) :
    natBits m (bitLen m) ++ (if bitLen m % 2 = 0 then [false] else []) = natBits m (2 * (bitLen m / 2) + 1) := by
  split
  · next heven =>
    have hnext : m / 2 ^ bitLen m = 0 := Nat.div_eq_of_lt (lt_two_pow_bitLen m)
    rw [show 2 * (bitLen m / 2) + 1 = bitLen m + 1 by omega, natBits_add, hnext]
    rfl
  · next hodd => rw [List.append_nil, show 2 * (bitLen m / 2) + 1 = bitLen m by omega]

/-- Every encoding is the flag, the sign and the magnitude part (R205, R209). -/
theorem encodingBits_eq (w : IntWidth) (sm : SignMode) (st : Strategy) (v : Int) :
    encodingBits w sm st v = (!takesEscape w st v.natAbs) :: (signPart sm v ++ magnitudePart w st v.natAbs) := by
  unfold encodingBits
  dsimp only
  cases hescape : takesEscape w st v.natAbs with
  | true => rw [magnitudePart_escape hescape]; rfl
  | false =>
    cases st with
    | half =>
      rw [magnitudePart_half hescape, ← natBits_pad]
      simp only [Bool.false_eq_true, if_false, List.append_assoc]
      rfl
    | blocked =>
      rw [magnitudePart_blocked hescape]
      simp only [Bool.false_eq_true, if_false, List.append_assoc]
      rfl

/-- Setting the last bit of a bit length makes it odd, as the pad does (R207). -/
theorem or_one_eq (n : Nat) : n ||| 1 = 2 * (n / 2) + 1 := by
  have hhigh : (n ||| 1) / 2 = n / 2 := by rw [Nat.or_div_two]; exact Nat.or_zero _
  have hlow : (n ||| 1) % 2 = 1 := Nat.or_mod_two_eq_one.2 (.inr rfl)
  omega

/-- Settles O40: the flag is the threshold, and the lengths are those of the parts. -/
theorem escapeThresholds : Obligations.EscapeThresholds := by
  intro w sm st v _
  have hthreshold := takesEscape_iff_smallestEscaped_le w st v.natAbs
  rw [encodingBits_eq]
  refine ⟨fun hlarge => ?escape, fun hsmall => ?compressed, fun hsmall => ?halfFits⟩
  case escape =>
    have hescape : takesEscape w st v.natAbs = true := hthreshold.2 hlarge
    have hwidth : 1 ≤ widthBits w := by cases w <;> decide
    rw [magnitudePart_escape hescape, hescape]
    refine ⟨rfl, ?_⟩
    rw [List.length_cons, List.length_append, natBits_length]
    omega
  case compressed =>
    have hcompressed : takesEscape w st v.natAbs = false := by
      rw [Bool.eq_false_iff, ne_eq, hthreshold]
      omega
    rw [hcompressed]
    refine ⟨rfl, ?_⟩
    cases st with
    | half =>
      rw [magnitudePart_half hcompressed, or_one_eq]
      simp only [List.length_cons, List.length_append, natBits_length]
      omega
    | blocked =>
      rw [magnitudePart_blocked hcompressed]
      simp only [List.length_cons, List.length_append, natBits_length]
      omega
  case halfFits =>
    rw [smallestEscaped_eq, lt_two_pow_iff_bitLen_le] at hsmall
    exact half_length_lt hsmall

/-! ## The list decoder on an encoding (R208, R211, R228) -/

/-- A number that fits its field is read back from the front of a stream. -/
theorem takeNumber_natBits {m n : Nat} (h : m < 2 ^ n) (rest : List Bool) :
    takeNumber n (natBits m n ++ rest) = some (m, rest) := by
  have hlength : (natBits m n).length = n := natBits_length m n
  rw [takeNumber, if_pos (by rw [List.length_append, hlength]; exact Nat.le_add_right n _),
    List.take_left' hlength, List.drop_left' hlength, bitsValue_natBits, Nat.mod_eq_of_lt h]

theorem takeNumber_one (b : Bool) (rest : List Bool) : takeNumber 1 (b :: rest) = some (b.toNat, rest) := by
  simp [takeNumber, bitsValue]

/-- The sign read is the sign field as a number: 0 where there is none (R208, R211). -/
theorem takeSign_signPart (sm : SignMode) (v : Int) (rest : List Bool) :
    takeSign sm (signPart sm v ++ rest) = some (bitsValue (signPart sm v), rest) := by
  cases sm with
  | positive => rfl
  | negative => rfl
  | either => exact takeNumber_one _ rest

theorem takeMagnitude_escape (w : IntWidth) (st : Strategy) (bits : List Bool) :
    takeMagnitude w st 0 bits = takeNumber (widthBits w - 1) bits := if_pos rfl

theorem takeMagnitude_half (w : IntWidth) {flag : Nat} (h : flag ≠ 0) (bits : List Bool) :
    takeMagnitude w .half flag bits =
      (takeNumber (prefixWidth w) bits).bind fun half => takeNumber (2 * half.1 + 1) half.2 := if_neg h

theorem takeMagnitude_blocked (w : IntWidth) {flag : Nat} (h : flag ≠ 0) (bits : List Bool) :
    takeMagnitude w .blocked flag bits =
      (takeNumber 3 bits).bind fun count => takeNumber (4 * count.1) count.2 := if_neg h

/-- The length field of a compressed magnitude announces the number of its bits, so the magnitude read is the one
written (R208, R211). -/
theorem takeMagnitude_magnitudePart {w : IntWidth} {m : Nat} (st : Strategy) (hm : m < 2 ^ (widthBits w - 1))
    (rest : List Bool) :
    takeMagnitude w st (!takesEscape w st m).toNat (magnitudePart w st m ++ rest) = some (m, rest) := by
  cases hescape : takesEscape w st m with
  | true =>
    rw [magnitudePart_escape hescape]
    exact (takeMagnitude_escape w st _).trans (takeNumber_natBits hm rest)
  | false =>
    have hlength := bitLen_le_of_not_takesEscape hescape
    cases st with
    | half =>
      have hfits : m < 2 ^ (2 * (bitLen m / 2) + 1) := (lt_two_pow_iff_bitLen_le m _).2 (by omega)
      rw [magnitudePart_half hescape, List.append_assoc, takeMagnitude_half w (by decide),
        takeNumber_natBits (half_length_lt hlength), Option.bind_some, takeNumber_natBits hfits]
    | blocked =>
      have hfits : m < 2 ^ (4 * ((bitLen m + 3) / 4)) := (lt_two_pow_iff_bitLen_le m _).2 (by omega)
      rw [magnitudePart_blocked hescape, List.append_assoc, takeMagnitude_blocked w (by decide),
        takeNumber_natBits (block_count_lt hlength), Option.bind_some, takeNumber_natBits hfits]

/-- The W-bit number of a value in range, sign-extended, is the value (00_scope.md R13). -/
theorem signExtend_ofInt {w : IntWidth} {r : Int} (h : r.natAbs < 2 ^ (widthBits w - 1)) :
    (BitVec.ofInt (widthBits w) r).signExtend 64 = BitVec.ofInt 64 r := by
  have hpos : 0 < widthBits w := by cases w <;> decide
  have hrange : -2 ^ (widthBits w - 1) ≤ r ∧ r < 2 ^ (widthBits w - 1) := by
    have hcast : (r.natAbs : Int) < 2 ^ (widthBits w - 1) := by exact_mod_cast h
    omega
  obtain ⟨hlow, hhigh⟩ := hrange
  rw [BitVec.signExtend, BitVec.toInt_ofInt_eq_self hpos hlow hhigh]

/-- The value an encoding of `v` holds: the Positive and the Negative mode keep only the magnitude (R214). -/
def heldValue (sm : SignMode) (v : Int) : Int :=
  match sm with
  | .positive => (v.natAbs : Int)
  | .negative => -(v.natAbs : Int)
  | .either => v

/-- A sign mode that fits the value holds it (R214, R226). -/
theorem heldValue_of_signFits {sm : SignMode} {v : Int} (h : signFits sm v) : heldValue sm v = v := by
  cases sm with
  | positive => exact Int.natAbs_of_nonneg h
  | negative => exact (congrArg Neg.neg (Int.ofNat_natAbs_of_nonpos h)).trans (Int.neg_neg v)
  | either => rfl

/-- The sign field and the magnitude of `v` decode to the value they hold. -/
theorem valueOf_signPart {w : IntWidth} {v : Int} (sm : SignMode) (hv : v.natAbs < 2 ^ (widthBits w - 1)) :
    valueOf w sm (bitsValue (signPart sm v)) v.natAbs = BitVec.ofInt 64 (heldValue sm v) := by
  have hpositive : (v.natAbs : Int).natAbs < 2 ^ (widthBits w - 1) := by omega
  have hnegative : (-(v.natAbs : Int)).natAbs < 2 ^ (widthBits w - 1) := by omega
  cases sm with
  | positive => exact signExtend_ofInt hpositive
  | negative => exact signExtend_ofInt hnegative
  | either =>
    have hsigned : (if SignMode.either = .negative ∨ bitsValue (signPart .either v) = 1 then -(v.natAbs : Int)
        else v.natAbs) = v := by
      by_cases hsign : v < 0
      · rw [if_pos (.inr (by simp [signPart, bitsValue, hsign]))]
        omega
      · rw [if_neg (by simp [signPart, bitsValue, hsign])]
        omega
    exact (congrArg (fun r : Int => (BitVec.ofInt (widthBits w) r).signExtend 64) hsigned).trans (signExtend_ofInt hv)

/-- Settles O38: the decoder reads the flag, the sign and the magnitude part, one after another. -/
theorem encodingIsSelfDelimiting : Obligations.EncodingIsSelfDelimiting := by
  intro w sm st v rest hv
  simp only [encodingBits_eq, decodeBits, List.cons_append, takeNumber_one, List.append_assoc, takeSign_signPart,
    takeMagnitude_magnitudePart st hv, Option.bind_some]
  exact congrArg (fun value => some (value, rest)) (valueOf_signPart sm hv)

end Sys2Proof.Machine
end

section
/-!
PROOFS. The adaptive puts (42_adaptive_codec.md R205, R209, R212, R213, R220 to R222): the fields EncodeV puts are the
bits of the encoding, so a put appends all of them or none.
-/

namespace Sys2Proof.Machine

/-! ## The fields of an encoding are its bits -/

theorem fieldBits_append (fields others : List (Word × Nat)) :
    fieldBits (fields ++ others) = fieldBits fields ++ fieldBits others := List.flatMap_append

/-- Every magnitude of the codec is a word (R203). -/
theorem magnitude_toNat {w : IntWidth} {v : Int} (hv : v.natAbs < 2 ^ (widthBits w - 1)) :
    (magnitude v).toNat = v.natAbs := by
  have hwidth := widthBits_le w
  have hpow : 2 ^ (widthBits w - 1) ≤ 2 ^ 64 := Nat.pow_le_pow_right (by decide) (by omega)
  exact Nat.mod_eq_of_lt (by omega)

/-- The machine's bit_length is the format's (00_scope.md R14). -/
theorem bitLength_eq_bitLen (m : Word) : bitLength m = bitLen m.toNat :=
  eq_of_forall_ge_iff fun n => (bitLengthIsLeast m n).symm.trans (lt_two_pow_iff_bitLen_le m.toNat n)

theorem escapes_bitLen (w : IntWidth) (st : Strategy) (m : Nat) : escapes w st (bitLen m) = takesEscape w st m := by
  cases st with
  | half => rfl
  | blocked =>
    rw [Bool.eq_iff_iff, takesEscape_blocked_iff, escapes, Bool.or_eq_true, decide_eq_true_iff, decide_eq_true_iff,
      blockCount]

theorem fieldBits_signFields (sm : SignMode) (v : Int) : fieldBits (signFields sm v) = signPart sm v := by
  cases sm with
  | positive => rfl
  | negative => rfl
  | either => by_cases hsign : v < 0 <;> simp [fieldBits, signFields, signPart, signBit, natBits, hsign]

/-- A number below 2^64 passes through a word unchanged. -/
theorem natBits_ofNat {m n : Nat} (h : n < 2 ^ 64) : natBits (BitVec.ofNat 64 n).toNat m = natBits n m := by
  rw [BitVec.toNat_ofNat, Nat.mod_eq_of_lt h]

theorem bitLen_toNat_le (m : Word) : bitLen m.toNat ≤ 64 := (lt_two_pow_iff_bitLen_le _ _).1 m.isLt

/-- The fields of the compressed path are a length field, the magnitude and, in HALF, its pad (R205, R207, R209). -/
theorem fieldBits_compressedFields {w : IntWidth} {st : Strategy} {m : Word}
    (h : takesEscape w st m.toNat = false) : fieldBits (compressedFields w st m) = magnitudePart w st m.toNat := by
  have hbound := bitLen_toNat_le m
  cases st with
  | half =>
    have hpad : fieldBits (if bitLength m % 2 = 0 then [(0, 1)] else []) =
        if bitLen m.toNat % 2 = 0 then [false] else [] := by
      rw [bitLength_eq_bitLen]; split <;> rfl
    rw [magnitudePart_half h, ← natBits_pad, ← hpad, ← natBits_ofNat (n := bitLen m.toNat / 2) (by omega),
      ← bitLength_eq_bitLen]
    rfl
  | blocked =>
    rw [magnitudePart_blocked h, ← natBits_ofNat (n := (bitLen m.toNat + 3) / 4) (by omega), ← bitLength_eq_bitLen]
    simp only [compressedFields, fieldBits_cons, blockCount]
    exact congrArg _ (List.append_nil _)

/-- The fields EncodeV puts are the encoding of the value (R205, R209, R212). -/
theorem fieldBits_encodingFields {w : IntWidth} (sm : SignMode) (st : Strategy) {v : Int}
    (hv : v.natAbs < 2 ^ (widthBits w - 1)) : fieldBits (encodingFields w sm st v) = encodingBits w sm st v := by
  have hmagnitude := magnitude_toNat hv
  have hescapes : escapes w st (bitLength (magnitude v)) = takesEscape w st v.natAbs := by
    rw [bitLength_eq_bitLen, hmagnitude, escapes_bitLen]
  rw [encodingBits_eq, encodingFields, hescapes]
  cases hescape : takesEscape w st v.natAbs with
  | true =>
    rw [if_pos rfl, fieldBits_append, fieldBits_cons, fieldBits_signFields, magnitudePart_escape hescape,
      fieldBits_cons, hmagnitude]
    simp [fieldBits, natBits]
  | false =>
    rw [if_neg Bool.false_ne_true, fieldBits_append, fieldBits_cons, fieldBits_signFields,
      fieldBits_compressedFields (hmagnitude.symm ▸ hescape), hmagnitude]
    rfl

/-! ## PUTV16, PUTV32 and PUTV64 -/

theorem exec_putvOf (w : IntWidth) (sm : SignMode) (st : Strategy) (s : State) :
    exec (putvOf w sm st) s = unlessFaulted s (putAdaptive w sm st s) := by
  cases w <;> rfl

/-- A signed W-bit number other than -2^(W-1) has a magnitude below 2^(W-1) (R203). -/
theorem natAbs_toInt_lt {n : Nat} {x : BitVec n} (h : x.toInt ≠ -(2 ^ (n - 1) : Int)) :
    x.toInt.natAbs < 2 ^ (n - 1) := by
  have hlow := BitVec.le_toInt x
  have hhigh := BitVec.toInt_lt (x := x)
  have hcast : (x.toInt.natAbs : Int) < 2 ^ (n - 1) := by omega
  exact_mod_cast hcast

/-- Settles O35: EncodeV is a run of fields, which is appended whole or faults by its room. -/
theorem adaptivePutsAppendEncoding : Obligations.AdaptivePutsAppendEncoding := by
  intro w sm st s v hinv hclear hmode hv hdomain
  obtain ⟨hwidths, _⟩ := encodingFields_upTo w sm st v
  have hmagnitude : v.natAbs < 2 ^ (widthBits w - 1) := by
    rw [hv] at hdomain ⊢
    exact natAbs_toInt_lt hdomain
  have hput : putAdaptive w sm st s = putFields s (encodingFields w sm st v) := by
    rw [putAdaptive, inMode_of_eq hmode, State.intOperand, sint, ← hv]
    exact if_neg hdomain
  rw [exec_putvOf, unlessFaulted_of_none hclear, hput, ← fieldBits_encodingFields sm st hmagnitude]
  constructor
  · intro hroom
    obtain ⟨t, hfields, happended, _⟩ := putFields_appends hinv.store_wf (hinv.write_cache hmode) hwidths hroom
    refine ⟨t.respond true, by rw [hfields, finish_ok], happended.respond true, ?_⟩
    rw [State.respond_reply, happended.result]
  · intro hfull
    rw [putFields_noRoom hinv.store_wf (hinv.write_cache hmode) hinv.wpos_le_cap hwidths hfull,
      finish_error_of_none hclear, State.faultedWith]

end Sys2Proof.Machine
end

section
/-!
PROOFS. The adaptive gets (42_adaptive_codec.md R208, R211, R212, R223 to R225): each GetBits reads from the unread
stream what `takeNumber` reads from its list, so DecodeV is the list decoder, and a value put comes back (R226).
-/

namespace Sys2Proof.Machine

/-! ## Gets that read as the list decoder does -/

/-- `t` is `s` after gets that completed: it has taken bits from the front of the unread stream and nothing else. -/
structure State.HasTaken (s t : State) : Prop where
  inv : t.Inv
  mode : t.mode = .read
  shorter : t.unread.length ≤ s.unread.length
  consumed : s.HasConsumed t (s.unread.length - t.unread.length)

theorem State.HasTaken.refl {s : State} (hinv : s.Inv) (hmode : s.mode = .read) : s.HasTaken s where
  inv := hinv
  mode := hmode
  shorter := le_refl _
  consumed := by rw [Nat.sub_self]; exact .refl s

theorem State.HasTaken.trans {s t u : State} (h1 : s.HasTaken t) (h2 : t.HasTaken u) : s.HasTaken u where
  inv := h2.inv
  mode := h2.mode
  shorter := h2.shorter.trans h1.shorter
  consumed := by
    have hbits : s.unread.length - u.unread.length =
        (s.unread.length - t.unread.length) + (t.unread.length - u.unread.length) := by
      have hfirst := h1.shorter
      have hsecond := h2.shorter
      omega
    rw [hbits]
    exact h1.consumed.trans h2.consumed

/-- A get on `s` ends as a reading of its unread stream does: it completes with the word that stands for the value
read and leaves the rest of the stream, or, where the stream is too short, it raises UNDERFLOW (R212, R213). -/
inductive ReadsAs {β : Type} (value : Word → β) (s : State) :
    Attempt (Word × State) → Option (β × List Bool) → Prop
  | completes {r : Word} {t : State} (taken : s.HasTaken t) : ReadsAs value s (.ok (r, t)) (some (value r, t.unread))
  | short : ReadsAs value s (.error .underflow) none

theorem ReadsAs.of_some {β : Type} {value : Word → β} {s : State} {attempt : Attempt (Word × State)} {x : β}
    {rest : List Bool} (h : ReadsAs value s attempt (some (x, rest))) :
    ∃ r t, attempt = .ok (r, t) ∧ value r = x ∧ t.unread = rest ∧ s.HasTaken t := by
  cases h with
  | completes taken => exact ⟨_, _, rfl, rfl, rfl, taken⟩

theorem ReadsAs.of_none {β : Type} {value : Word → β} {s : State} {attempt : Attempt (Word × State)}
    (h : ReadsAs value s attempt none) : attempt = .error .underflow := by
  cases h with
  | short => rfl

/-- Bits taken before a reading are taken with it. -/
theorem ReadsAs.after {β : Type} {value : Word → β} {s t : State} {attempt : Attempt (Word × State)}
    {taken : Option (β × List Bool)} (h : ReadsAs value t attempt taken) (htaken : s.HasTaken t) :
    ReadsAs value s attempt taken := by
  cases h with
  | completes htaken' => exact .completes (htaken.trans htaken')
  | short => exact .short

/-- One get after another reads one part of the stream after another. -/
theorem ReadsAs.bind {β γ : Type} {value : Word → β} {value' : Word → γ} {s : State}
    {attempt : Attempt (Word × State)} {taken : Option (β × List Bool)}
    {next : Word × State → Attempt (Word × State)} {takeNext : β × List Bool → Option (γ × List Bool)}
    (h : ReadsAs value s attempt taken)
    (hnext : ∀ r t, attempt = .ok (r, t) → s.HasTaken t →
      ReadsAs value' t (next (r, t)) (takeNext (value r, t.unread))) :
    ReadsAs value' s (attempt.bind next) (taken.bind takeNext) := by
  cases h with
  | short => exact .short
  | @completes r t htaken => exact (hnext r t rfl htaken).after htaken

/-- With data for n bits, the unread stream has them. -/
theorem State.le_unread_of_hasData {s : State} {n : Nat} (h : s.hasData n) : n ≤ s.unread.length := by
  have hlength : s.unread.length = s.free.val + 8 * (s.wpos.toNat - s.rpos.toNat) := by
    rw [State.unread, List.length_append, natBits_length, Memory.bits_length]
  unfold State.hasData State.wordsFor at h
  omega

/-- GetBits reads the next number of the unread stream (R17, 40_bit_engine.md R125). -/
theorem getBits_reads {s : State} (hinv : s.Inv) (hmode : s.mode = .read) {w : Nat} (hw : w ≤ 64) :
    ReadsAs BitVec.toNat s (getBits s w) (takeNumber w s.unread) := by
  by_cases hlong : w ≤ s.unread.length
  · obtain ⟨r, t, hget, hbits, hlt, hconsumed, _⟩ := getBits_consumes hw (State.hasData_of_le_unread hinv hlong)
    have hlength : t.unread.length = s.unread.length - w := by rw [hconsumed.stream, List.length_drop]
    have htaken : s.HasTaken t :=
      { inv := getBits_keeps_inv hinv hmode hget
        mode := hconsumed.mode.trans hmode
        shorter := by omega
        consumed := by rwa [hlength, Nat.sub_sub_self hlong] }
    have hvalue : takeNumber w s.unread = some (r.toNat, t.unread) := by
      rw [takeNumber, if_pos hlong, ← hbits, bitsValue_natBits, Nat.mod_eq_of_lt hlt, hconsumed.stream]
    rw [hget, hvalue]
    exact .completes htaken
  · have hempty : ¬ s.hasData w := fun hdata => hlong (State.le_unread_of_hasData hdata)
    rw [getBits_noData hinv.rpos_le_wpos hw hempty, takeNumber, if_neg hlong]
    exact .short

theorem getBits_lt {s t : State} {w : Nat} {r : Word} (hinv : s.Inv) (hw : w ≤ 64)
    (h : getBits s w = .ok (r, t)) : r.toNat < 2 ^ w := by
  obtain ⟨_, hlt⟩ := getBits_consumesUpTo hinv.rpos_le_wpos hw h
  exact hlt

/-! ## DecodeV as the list decoder (R208, R211, R212) -/

theorem getSign_reads {s : State} (hinv : s.Inv) (hmode : s.mode = .read) (sm : SignMode) :
    ReadsAs BitVec.toNat s (getSign sm s) (takeSign sm s.unread) := by
  cases sm with
  | positive => exact .completes (.refl hinv hmode)
  | negative => exact .completes (.refl hinv hmode)
  | either => exact getBits_reads hinv hmode (by decide)

theorem getMagnitude_escape (w : IntWidth) (st : Strategy) (s : State) :
    getMagnitude w st 0 s = getBits s (widthBits w - 1) := if_pos rfl

theorem getMagnitude_half (w : IntWidth) {flag : Word} (h : flag ≠ 0) (s : State) :
    getMagnitude w .half flag s =
      (getBits s (prefixWidth w)).bind fun half => getBits half.2 (2 * half.1.toNat + 1) := by
  refine (if_neg h).trans ?_
  dsimp only
  cases getBits s (prefixWidth w) <;> rfl

theorem getMagnitude_blocked (w : IntWidth) {flag : Word} (h : flag ≠ 0) (s : State) :
    getMagnitude w .blocked flag s = (getBits s 3).bind fun count => getBits count.2 (4 * count.1.toNat) := by
  refine (if_neg h).trans ?_
  dsimp only
  cases getBits s 3 <;> rfl

/-- The magnitude is one number or two, and no length field announces more than a word holds (R208, R211). -/
theorem getMagnitude_reads {s : State} (hinv : s.Inv) (hmode : s.mode = .read) (w : IntWidth) (st : Strategy)
    (flag : Word) : ReadsAs BitVec.toNat s (getMagnitude w st flag s) (takeMagnitude w st flag.toNat s.unread) := by
  have hwidth := widthBits_le w
  by_cases hflag : flag = 0
  · subst hflag
    rw [getMagnitude_escape]
    exact (takeMagnitude_escape w st s.unread).symm ▸ getBits_reads hinv hmode (by omega)
  · have hflag' : flag.toNat ≠ 0 := fun hzero => hflag (BitVec.eq_of_toNat_eq hzero)
    cases st with
    | half =>
      have hshort : prefixWidth w ≤ 5 := by cases w <;> decide
      rw [getMagnitude_half w hflag, takeMagnitude_half w hflag']
      refine (getBits_reads hinv hmode (by omega)).bind fun half t hget htaken => ?_
      have hhalf := (getBits_lt hinv (by omega) hget).trans_le (Nat.pow_le_pow_right (by decide) hshort)
      exact getBits_reads htaken.inv htaken.mode (by dsimp only; omega)
    | blocked =>
      rw [getMagnitude_blocked w hflag, takeMagnitude_blocked w hflag']
      refine (getBits_reads hinv hmode (by decide)).bind fun count t hget htaken => ?_
      have hcount := getBits_lt hinv (by decide) hget
      exact getBits_reads htaken.inv htaken.mode (by dsimp only; omega)

/-- The value DecodeV makes of the sign and the magnitude is the format's (R212). -/
theorem decodedValue_eq_valueOf (w : IntWidth) (sm : SignMode) (sign m : Word) :
    decodedValue w sm sign m = valueOf w sm sign.toNat m.toNat := by
  have hwidth := widthBits_le w
  have hlow : m.setWidth (widthBits w) = BitVec.ofInt (widthBits w) m.toNat := by
    rw [BitVec.ofInt_natCast, BitVec.ofNat_toNat]
  have hneg : (neg (widthBits w) m).setWidth (widthBits w) = BitVec.ofInt (widthBits w) (-(m.toNat : Int)) := by
    rw [neg, zext, BitVec.setWidth_setWidth_of_le _ hwidth, BitVec.setWidth_eq, BitVec.setWidth_neg_of_le hwidth,
      BitVec.ofInt_neg, hlow]
  have hsign : sign.toNat = 1 ↔ sign = 1 := (BitVec.toNat_inj (y := (1 : Word)))
  unfold decodedValue valueOf sext
  simp only [hsign]
  split
  · rw [hneg]
  · rw [hlow]

/-- DecodeV is the flag, the sign and the magnitude, one after another (R212). -/
theorem getAdaptive_eq_bind {s : State} (hmode : s.mode = .read) (w : IntWidth) (sm : SignMode) (st : Strategy) :
    getAdaptive w sm st s = (getBits s 1).bind fun flag => (getSign sm flag.2).bind fun sign =>
      (getMagnitude w st flag.1 sign.2).bind fun m => .ok (decodedValue w sm sign.1 m.1, m.2) := by
  rw [getAdaptive, inMode_of_eq hmode]
  cases getBits s 1 with
  | error code => rfl
  | ok flag =>
    change _ = (getSign sm flag.2).bind _
    dsimp only
    cases getSign sm flag.2 with
    | error code => rfl
    | ok sign =>
      change _ = (getMagnitude w st flag.1 sign.2).bind _
      dsimp only
      cases getMagnitude w st flag.1 sign.2 <;> rfl

/-- DecodeV reads the unread stream as the list decoder does, malformed or not (R208, R211, R212). -/
theorem getAdaptive_reads {s : State} (hinv : s.Inv) (hmode : s.mode = .read) (w : IntWidth) (sm : SignMode)
    (st : Strategy) : ReadsAs id s (getAdaptive w sm st s) (decodeBits w sm st s.unread) := by
  rw [getAdaptive_eq_bind hmode, decodeBits]
  refine (getBits_reads hinv hmode (by decide)).bind fun flag s1 _ hflag => ?_
  refine (getSign_reads hflag.inv hflag.mode sm).bind fun sign s2 _ hsign => ?_
  refine (getMagnitude_reads hsign.inv hsign.mode w st flag).bind fun m s3 _ hmagnitude => ?_
  dsimp only
  rw [← decodedValue_eq_valueOf]
  exact .completes (.refl hmagnitude.inv hmagnitude.mode)

/-! ## GETV16, GETV32 and GETV64 -/

theorem exec_getvOf (w : IntWidth) (sm : SignMode) (st : Strategy) (s : State) :
    exec (getvOf w sm st) s = unlessFaulted s (toResult (getAdaptive w sm st s)) := by
  cases w <;> rfl

/-- Settles O36: the get ends as the list decoder's reading of its stream. -/
theorem adaptiveGetsDecodeStream : Obligations.AdaptiveGetsDecodeStream := by
  intro w sm st s hinv hclear hmode
  have hreads := getAdaptive_reads hinv hmode w sm st
  rw [exec_getvOf, unlessFaulted_of_none hclear]
  constructor
  · intro r rest hdecode
    rw [hdecode] at hreads
    obtain ⟨r', t, hget, rfl, rfl, htaken⟩ := hreads.of_some
    exact ⟨(t.withResult r').respond true, by rw [hget, toResult_ok, finish_ok], rfl, rfl,
      (htaken.consumed.withResult r').respond true, rfl⟩
  · intro hdecode
    rw [hdecode] at hreads
    rw [hreads.of_none, toResult_error, finish_error_of_none hclear, State.faultedWith]

/-! ## The round trip (R226) -/

/-- An adaptive put that ends without a fault has appended the encoding of its operand (R212, R213). -/
theorem exec_putvOf_appended {w : IntWidth} {sm : SignMode} {st : Strategy} {s t : State} {v : Int} (hinv : s.Inv)
    (hclear : s.fault = .none) (hmode : s.mode = .write) (hv : v = (s.operand.setWidth (widthBits w)).toInt)
    (hdomain : v ≠ -(2 ^ (widthBits w - 1) : Int)) (hput : exec (putvOf w sm st) s = .next t)
    (htclear : t.fault = .none) : s.HasAppended t (encodingBits w sm st v) := by
  obtain ⟨hcompletes, hfaults⟩ := adaptivePutsAppendEncoding w sm st s v hinv hclear hmode hv hdomain
  by_cases hroom : s.hasRoom (encodingBits w sm st v).length
  · obtain ⟨u, hexec, happended, _⟩ := hcompletes hroom
    exact Host.Outcome.next.inj (hexec.symm.trans hput) ▸ happended
  · obtain rfl := Host.Outcome.next.inj ((hfaults hroom).symm.trans hput)
    exact nomatch htclear

/-- After FLIP the bits a put has appended stand in the stream behind those appended before it. -/
theorem State.HasAppended.flip_unread {s t u : State} {bits : List Bool} (h : s.HasAppended t bits)
    (hmode : s.mode = .write) (htinv : t.Inv) (htclear : t.fault = .none) (hflip : exec .flip t = .next u)
    (huclear : u.fault = .none) : ∃ rest, u.unread.drop s.appended.length = bits ++ rest := by
  obtain ⟨hunread, _⟩ := flipMakesStreamReadable t u htinv htclear (h.mode.trans hmode) hflip huclear
  rw [hunread, h.stream, List.append_assoc, List.drop_left]
  exact ⟨_, rfl⟩

/-- Settles O39: the get decodes the encoding the put has appended, which holds the value the sign mode fits. -/
theorem adaptiveRoundTrip : Obligations.AdaptiveRoundTrip := by
  intro w sm st s t u g v hinv hclear hmode hv hdomain hfits hput htclear hflip huclear hginv hgclear hgmode hposition
  have happended := exec_putvOf_appended hinv hclear hmode hv hdomain hput htclear
  obtain ⟨rest, hencoding⟩ :=
    happended.flip_unread hmode ((exec_ends hput).keeps_inv hinv) htclear hflip huclear
  have hmagnitude : v.natAbs < 2 ^ (widthBits w - 1) := by
    rw [hv] at hdomain ⊢
    exact natAbs_toInt_lt hdomain
  have hdecode : decodeBits w sm st g.unread = some (BitVec.ofInt 64 (heldValue sm v), rest) := by
    rw [hposition, hencoding]
    exact encodingIsSelfDelimiting w sm st v rest hmagnitude
  rw [heldValue_of_signFits hfits] at hdecode
  obtain ⟨hreads, _⟩ := adaptiveGetsDecodeStream w sm st g hginv hgclear hgmode
  obtain ⟨h, hget, hresult, _, hconsumed, _⟩ := hreads _ _ hdecode
  exact ⟨h, hget, hconsumed.fault.trans hgclear, hresult⟩

end Sys2Proof.Machine
end

section
/-!
PROOFS. The lifecycle commands (43_lifecycle.md R250 to R258): how ALLOC and FLIP end on every branch of their rules, a
FLIP after a FLIP and after COMPACT, and the register read-out of RDREG.
-/

namespace Sys2Proof.Machine

/-! ## ALLOC (R250) -/

/-- ALLOC of at most CAP_MAX bytes completes, whatever FAULT is (60_exceptions.md R284). -/
theorem exec_alloc_of_fits {s : State} (hfits : s.operand.toNat ≤ Config.capMax) :
    exec .alloc s = .next ((s.allocated s.operand).respond true) := by
  rw [exec, execAlloc, allocate, if_neg (show ¬ Config.capMax < s.byteCount from Nat.not_lt.2 hfits), finish_ok]

/-- ALLOC of more raises ALLOC_RANGE (60_exceptions.md R289). -/
theorem exec_alloc_of_exceeds {s : State} (hexceeds : Config.capMax < s.operand.toNat) :
    exec .alloc s = .next (s.raise .allocRange) := by
  rw [exec, execAlloc, allocate, if_pos (show Config.capMax < s.byteCount from hexceeds), finish_error]

/-- Settles O41: the capacity by the rounding, the bytes by the rule of a read after StoreClear, the fault by whether
one is recorded. -/
theorem allocStartsFreshBuffer : Obligations.AllocStartsFreshBuffer := by
  intro s hinv
  refine ⟨fun hfits => ?fits, fun hexceeds hclear => ?first, fun hexceeds hfaulted => ?later⟩
  case fits =>
    have hread := Memory.read_clear hinv.store_wf (s.allocated s.operand).cap.toNat
    exact ⟨_, exec_alloc_of_fits hfits, roundUp_toNat hfits, fun a ha => (hread a).trans (if_pos ha),
      fun a ha => (hread a).trans (if_neg (Nat.not_lt.2 ha)),
      rfl, rfl, rfl, rfl, rfl, rfl, rfl, rfl, rfl, rfl, rfl, rfl⟩
  case first => rw [exec_alloc_of_exceeds hexceeds, State.raise_of_none hclear, State.faultedWith]
  case later => rw [exec_alloc_of_exceeds hexceeds, State.raise_of_fault hfaulted]

/-! ## FLIP (R252, R253) -/

/-- Without a fault FLIP ends as its working copy does. -/
theorem exec_flip {s : State} (hclear : s.fault = .none) : exec .flip s = finish s (flipBuffer s) :=
  unlessFaulted_of_none hclear _

/-- With bits pending in write mode FLIP flushes the whole cache word (R252). -/
theorem flipBuffer_pending {s : State} (hmode : s.mode = .write) (hbits : s.free.val < 64) :
    flipBuffer s = (flushWord s s.cache).map State.rewound := by
  rw [flipBuffer, if_pos ⟨hmode, hbits⟩]
  cases flushWord s s.cache <;> rfl

/-- In read mode or with nothing pending FLIP only rewinds (R253). -/
theorem exec_flip_rewinds {s : State} (hclear : s.fault = .none) (hnothing : s.mode = .read ∨ s.free.val = 64) :
    exec .flip s = .next (s.rewound.respond true) := by
  have hskip : ¬ (s.mode = .write ∧ s.free.val < 64) := by
    rintro ⟨hwrite, hbits⟩
    rcases hnothing with hread | hfull
    · exact nomatch hwrite.symm.trans hread
    · exact absurd hfull hbits.ne
  rw [exec_flip hclear, flipBuffer, if_neg hskip, finish_ok]

theorem exec_flip_flushes {s : State} (hclear : s.fault = .none) (hmode : s.mode = .write) (hbits : s.free.val < 64)
    (hroom : s.wpos.toNat + 8 ≤ s.cap.toNat) :
    exec .flip s = .next ((s.flushed s.cache).rewound.respond true) := by
  rw [exec_flip hclear, flipBuffer_pending hmode hbits, flushWord, if_neg (Nat.not_lt.2 hroom)]
  rfl

theorem exec_flip_overflows {s : State} (hclear : s.fault = .none) (hmode : s.mode = .write)
    (hbits : s.free.val < 64) (hfull : s.cap.toNat < s.wpos.toNat + 8) :
    exec .flip s = .next (s.faultedWith .overflow) := by
  rw [exec_flip hclear, flipBuffer_pending hmode hbits, flushWord, if_pos hfull]
  exact finish_error_of_none hclear .overflow

/-- Byte k of a flushed word is at WPOS + k (20_memory.md R63). -/
theorem State.flushed_read {s : State} (hwf : s.store.wf) (v : Word) {k : Nat} (hk : k < 8) :
    (s.flushed v).store.read (s.wpos.toNat + k) = v.extractLsb' (8 * k) 8 := by
  rw [State.flushed_store, Memory.read_writeWord hwf, if_pos ⟨Nat.le_add_right _ k, Nat.add_lt_add_left hk _⟩,
    Nat.add_sub_cancel_left]

/-- Settles O42: one case for each way FLIP ends without a fault recorded. -/
theorem flipFlushesAndRewinds : Obligations.FlipFlushesAndRewinds := by
  intro s hinv hclear
  refine ⟨fun hmode hbits hroom => ?flushes, exec_flip_overflows hclear, fun hnothing => ?rewinds⟩
  case flushes =>
    obtain ⟨hwpos, _, hsame⟩ := State.flushed_bytes hinv.store_wf hroom s.cache
    exact ⟨_, exec_flip_flushes hclear hmode hbits hroom,
      fun k hk => State.flushed_read hinv.store_wf s.cache hk,
      fun a ha => hsame a (by rwa [hwpos]), hwpos,
      rfl, rfl, rfl, rfl, rfl, hclear, rfl, rfl, rfl, rfl, rfl, rfl⟩
  case rewinds => rw [exec_flip_rewinds hclear hnothing, State.respond, State.rewound]

/-- A rewound buffer has everything below WPOS still to be read, from bit 0 of the store on (R253). -/
theorem State.rewound_unread (s : State) : s.rewound.unread = s.store.bits 0 s.wpos.toNat := by
  simp [State.unread]

/-- A completed FLIP has rewound the buffer, in either mode. -/
theorem Effect.flip_rewound {s t : State} (h : Effect .flip s t) : ∃ u : State, t = u.rewound := by
  cases h with
  | puts kind _ _ => exact nomatch kind
  | gets _ kind _ _ => exact nomatch kind
  | flush _ _ _ => exact ⟨_, rfl⟩
  | rewind _ => exact ⟨_, rfl⟩

/-- Settles O43: the second FLIP finds read mode, so it rewinds a rewound buffer. -/
theorem flipIsIdempotent : Obligations.FlipIsIdempotent := by
  intro s t hclear hexec
  constructor
  · intro hread
    obtain rfl := Host.Outcome.next.inj ((exec_flip_rewinds hclear (.inl hread)).symm.trans hexec)
    exact ⟨hclear, rfl, rfl, rfl, rfl, rfl, s.rewound_unread⟩
  · intro htclear
    obtain ⟨_, effect, rfl⟩ := exec_effect hexec htclear
    obtain ⟨u, rfl⟩ := effect.flip_rewound
    exact exec_flip_rewinds htclear (.inl rfl)

/-! ## FLIP after COMPACT (R254, R255) -/

/-- The same bytes at other addresses are the same bits (20_memory.md R64). -/
theorem Memory.bits_shift {m n : Memory} {a k : Nat} (h : ∀ i < k, n.read i = m.read (a + i)) :
    n.bits 0 k = m.bits a (a + k) := by
  rw [Memory.bits, Memory.bits, Nat.sub_zero, Nat.add_sub_cancel_left, List.range'_eq_map_range,
    List.range'_eq_map_range, List.flatMap_map, List.flatMap_map]
  refine List.flatMap_congr fun i hi => ?_
  rw [Nat.zero_add, h i (List.mem_range.1 hi)]

/-- COMPACT moves the words still to be read to the front of the store (R254). -/
theorem State.compacted_bits {s : State} (hinv : s.Inv) :
    s.compacted.store.bits 0 s.compacted.wpos.toNat = s.store.bits s.rpos.toNat s.wpos.toNat := by
  have hwpos : s.compacted.wpos.toNat = s.wpos.toNat - s.rpos.toNat := BitVec.toNat_sub_of_le hinv.rpos_le_wpos
  have hmoved : ∀ i < s.wpos.toNat - s.rpos.toNat, s.compacted.store.read i = s.store.read (s.rpos.toNat + i) :=
    fun i hi => (Memory.read_compact hinv.store_wf i).trans (if_pos hi)
  rw [hwpos, Memory.bits_shift hmoved, Nat.add_sub_cancel' hinv.rpos_le_wpos]

/-- COMPACT leaves the unread stream: the bits in CACHE are kept, the words behind them are moved (R254). -/
theorem State.compacted_unread {s : State} (hinv : s.Inv) : s.compacted.unread = s.unread := by
  rw [State.unread, State.compacted_cache, State.compacted_free, State.compacted_rpos]
  exact congrArg _ (State.compacted_bits hinv)

/-- Settles O46: the moved words are the end of the unread stream after COMPACT, and all of it after the FLIP. -/
theorem flipAfterCompactRewindsToNewStart : Obligations.FlipAfterCompactRewindsToNewStart := by
  intro s t u hinv hclear hread hcompact hflip
  rw [exec_compact hclear, compactBuffer_read hread] at hcompact
  obtain rfl := Host.Outcome.next.inj hcompact
  have hrewinds := exec_flip_rewinds (s := s.compacted.respond true) hclear (.inl hread)
  obtain rfl := Host.Outcome.next.inj (hrewinds.symm.trans hflip)
  exact ⟨State.compacted_unread hinv, rfl, (State.rewound_unread _).trans (State.compacted_bits hinv)⟩

/-! ## RDREG (R258) -/

/-- The words 0x033 to 0x733 are the words of RDREG, the indices in the order of the map (10_state.md R44). -/
theorem encode_rdreg_get (k : Fin 8) :
    encode (.rdreg ([.cache, .free, .mode, .fault, .fcmd, .cap, .wpos, .rpos].get k)) =
      BitVec.ofNat 32 (0x33 + 256 * k.val) := by
  revert k
  decide

theorem State.register_free_toNat (s : State) : (s.register .free).toNat = s.free.val := by
  have hfree := s.free.isLt
  exact Nat.mod_eq_of_lt (by omega)

/-- Settles O47: RDREG writes RESULT alone, and the read-out map zero-extends each register. -/
theorem rdregReadsRegisters : Obligations.RdregReadsRegisters := by
  refine ⟨fun k => ?decodes, fun s => ⟨s.register, fun idx => exec_rdreg idx s, rfl, s.register_free_toNat,
    ?mode, ?fault, ?fcmd, rfl, rfl, rfl⟩⟩
  case decodes =>
    rw [← encode_rdreg_get]
    exact decodeOfEncode _ rfl
  case mode =>
    rw [State.register]
    cases s.mode <;> rfl
  case fault =>
    rw [State.register]
    cases s.fault <;> rfl
  case fcmd => exact BitVec.toNat_setWidth_of_le (by decide)

end Sys2Proof.Machine
end

section
/-!
PROOFS. How commands fault (60_exceptions.md R282 to R292): a PUT-type or GET-type command checks MODE, then DOMAIN, and
past these only the engine can fail it, by OVERFLOW when it puts and by UNDERFLOW when it gets. With the inversion of a
command's ending this gives the order of the faults, their precision, and the refusals while a fault is recorded.
-/

namespace Sys2Proof.Machine

/-! ## The engine's faults -/

/-- The fault of the engine in each mode: a flush overflows, a refill underflows (R287, R288). -/
def Mode.engineFault : Mode → FaultCode
  | .write => .overflow
  | .read => .underflow

/-- An attempt that fails fails by the fault `expected`. -/
def OnlyFault {α : Type} (attempt : Attempt α) (expected : FaultCode) : Prop :=
  ∀ code, attempt = .error code → code = expected

theorem OnlyFault.of_ok {α : Type} (x : α) (expected : FaultCode) : OnlyFault (.ok x) expected :=
  fun _ h => nomatch h

theorem OnlyFault.of_error {α : Type} (code : FaultCode) : OnlyFault (.error code : Attempt α) code :=
  fun _ h => (Except.error.inj h).symm

/-- One attempt after another, each failing by the same fault. -/
theorem OnlyFault.bind {α β : Type} {attempt : Attempt α} {next : α → Attempt β} {expected : FaultCode}
    (h : OnlyFault attempt expected) (hnext : ∀ x, OnlyFault (next x) expected) :
    OnlyFault (attempt.bind next) expected := by
  cases attempt with
  | ok x => exact hnext x
  | error code => exact h code rfl ▸ .of_error code

theorem OnlyFault.toResult {attempt : Attempt (Word × State)} {expected : FaultCode}
    (h : OnlyFault attempt expected) : OnlyFault (toResult attempt) expected := by
  cases attempt with
  | ok p => exact .of_ok _ expected
  | error code => exact h code rfl ▸ .of_error code

theorem putBits_onlyFault (s : State) (v : Word) (w : Nat) : OnlyFault (putBits s v w) .overflow := by
  rcases putBits_cases s v w with ⟨_, hput⟩ | ⟨_, _, hput⟩ | ⟨_, _, hput⟩
  · exact hput ▸ .of_ok _ _
  · exact hput ▸ .of_ok _ _
  · exact hput ▸ .of_error _

theorem getBits_onlyFault (s : State) (w : Nat) : OnlyFault (getBits s w) .underflow := by
  rcases getBits_cases s w with ⟨_, hget⟩ | ⟨_, _, hget⟩ | ⟨_, _, hget⟩
  · exact hget ▸ .of_ok _ _
  · exact hget ▸ .of_ok _ _
  · exact hget ▸ .of_error _

theorem putFields_onlyFault (s : State) (fields : List (Word × Nat)) : OnlyFault (putFields s fields) .overflow := by
  induction fields generalizing s with
  | nil => exact .of_ok s _
  | cons field fields ih =>
    rw [putFields_cons]
    exact (putBits_onlyFault s _ _).bind ih

theorem getSign_onlyFault (sm : SignMode) (s : State) : OnlyFault (getSign sm s) .underflow := by
  cases sm with
  | positive => exact .of_ok _ _
  | negative => exact .of_ok _ _
  | either => exact getBits_onlyFault s 1

theorem getMagnitude_onlyFault (w : IntWidth) (st : Strategy) (flag : Word) (s : State) :
    OnlyFault (getMagnitude w st flag s) .underflow := by
  by_cases hflag : flag = 0
  · rw [hflag, getMagnitude_escape]
    exact getBits_onlyFault s _
  · cases st with
    | half =>
      rw [getMagnitude_half w hflag]
      exact (getBits_onlyFault s _).bind fun half => getBits_onlyFault half.2 _
    | blocked =>
      rw [getMagnitude_blocked w hflag]
      exact (getBits_onlyFault s 3).bind fun count => getBits_onlyFault count.2 _

/-! ## MODE, then DOMAIN, then the engine (R292) -/

/-- The working copy `attempt` of the command `i`, which needs the mode `m`, fails in the order of R292: by MODE in the
other mode, by DOMAIN for the operand -2^(W-1), and past these only by the engine's fault. -/
structure FaultsInOrder {α : Type} (i : Instr) (m : Mode) (s : State) (attempt : Attempt α) : Prop where
  mode : s.mode ≠ m → attempt = .error .mode
  domain : s.mode = m → domainError i s.operand = true → attempt = .error .domain
  engine : s.mode = m → domainError i s.operand = false → OnlyFault attempt m.engineFault

/-- Behind the MODE check a rule without DOMAIN errors fails only by the engine. -/
theorem FaultsInOrder.inMode {α : Type} {i : Instr} {m : Mode} {s : State} {attempt : Attempt α}
    (hdomain : domainError i s.operand = false) (h : OnlyFault attempt m.engineFault) :
    FaultsInOrder i m s (inMode m s attempt) where
  mode hother := inMode_of_ne hother attempt
  domain _ herror := nomatch hdomain.symm.trans herror
  engine hmode _ := (inMode_of_eq hmode attempt).symm ▸ h

theorem FaultsInOrder.toResult {i : Instr} {m : Mode} {s : State} {attempt : Attempt (Word × State)}
    (h : FaultsInOrder i m s attempt) : FaultsInOrder i m s (toResult attempt) where
  mode hother := congrArg Machine.toResult (h.mode hother)
  domain hmode herror := congrArg Machine.toResult (h.domain hmode herror)
  engine hmode hfits := (h.engine hmode hfits).toResult

theorem putFixed_faultsInOrder {i : Instr} {s : State} (hdomain : domainError i s.operand = false) (n : Nat)
    (bo : ByteOrder) : FaultsInOrder i .write s (putFixed n bo s) :=
  .inMode hdomain (putBits_onlyFault s _ n)

theorem getFixed_faultsInOrder {i : Instr} {s : State} (hdomain : domainError i s.operand = false) (n : Nat)
    (ext : Extension) (bo : ByteOrder) : FaultsInOrder i .read s (getFixed n ext bo s) := by
  refine .inMode hdomain ?_
  split
  · exact .of_ok _ _
  · next code hget => exact getBits_onlyFault s n code hget ▸ .of_error code

theorem getAdaptive_faultsInOrder {i : Instr} {s : State} (hdomain : domainError i s.operand = false) (w : IntWidth)
    (sm : SignMode) (st : Strategy) : FaultsInOrder i .read s (getAdaptive w sm st s) where
  mode hother := inMode_of_ne hother _
  domain _ herror := nomatch hdomain.symm.trans herror
  engine hmode _ := by
    rw [getAdaptive_eq_bind hmode]
    exact (getBits_onlyFault s 1).bind fun flag => (getSign_onlyFault sm flag.2).bind fun sign =>
      (getMagnitude_onlyFault w st flag.1 sign.2).bind fun m => .of_ok _ _

/-- The operand whose low W bits are a one and then zeros is -2^(W-1) (R290). -/
theorem domainError_putvOf (w : IntWidth) (sm : SignMode) (st : Strategy) (o : Word) :
    domainError (putvOf w sm st) o = true ↔ (o.setWidth (widthBits w)).toInt = -(2 ^ (widthBits w - 1) : Int) := by
  have ho := o.isLt
  cases w
  case w16 | w32 | w64 =>
    simp only [putvOf, domainError, widthBits, decide_eq_true_eq, BitVec.toInt_eq_toNat_cond, BitVec.toNat_setWidth]
    split <;> omega

theorem putAdaptive_faultsInOrder (w : IntWidth) (sm : SignMode) (st : Strategy) (s : State) :
    FaultsInOrder (putvOf w sm st) .write s (putAdaptive w sm st s) where
  mode hother := inMode_of_ne hother _
  domain hmode herror := by
    rw [putAdaptive, inMode_of_eq hmode]
    exact if_pos ((domainError_putvOf w sm st s.operand).1 herror)
  engine hmode hfits := by
    have hvalue : s.intOperand (widthBits w) ≠ -(2 ^ (widthBits w - 1) : Int) := fun hleast =>
      nomatch hfits.symm.trans ((domainError_putvOf w sm st s.operand).2 hleast)
    rw [putAdaptive, inMode_of_eq hmode]
    exact (if_neg hvalue).symm ▸ putFields_onlyFault s _

/-- Every PUT-type and GET-type command runs only without a fault, on a working copy that fails in the order of R292. -/
theorem exec_of_neededMode {i : Instr} {m : Mode} (kind : neededMode i = some m) (s : State) :
    ∃ attempt, exec i s = unlessFaulted s attempt ∧ FaultsInOrder i m s attempt := by
  cases i
  case putb w =>
    cases kind
    exact ⟨_, rfl, .inMode rfl (putBits_onlyFault s _ w)⟩
  case getb w =>
    cases kind
    exact ⟨_, rfl, .inMode rfl (getBits_onlyFault s w).toResult⟩
  case putByte | putChar | putShort | putInt | putLong | putFloat | putDouble =>
    cases kind
    exact ⟨_, rfl, putFixed_faultsInOrder rfl _ _⟩
  case getByte | getChar | getShort | getInt | getLong | getFloat | getDouble =>
    cases kind
    exact ⟨_, rfl, (getFixed_faultsInOrder rfl _ _ _).toResult⟩
  case putv16 sm st => cases kind; exact ⟨_, rfl, putAdaptive_faultsInOrder .w16 sm st s⟩
  case putv32 sm st => cases kind; exact ⟨_, rfl, putAdaptive_faultsInOrder .w32 sm st s⟩
  case putv64 sm st => cases kind; exact ⟨_, rfl, putAdaptive_faultsInOrder .w64 sm st s⟩
  case getv16 | getv32 | getv64 =>
    cases kind
    exact ⟨_, rfl, (getAdaptive_faultsInOrder rfl _ _ _).toResult⟩
  case alloc | flip | compact | rdreg => exact nomatch kind

/-- In the mode it does not need a command raises MODE, whatever its fields and operand (R286). -/
theorem exec_wrongMode {i : Instr} {m : Mode} {s : State} (kind : neededMode i = some m) (hmode : s.mode ≠ m)
    (hclear : s.fault = .none) : exec i s = .next (s.faultedWith .mode) := by
  obtain ⟨attempt, hexec, horder⟩ := exec_of_neededMode kind s
  rw [hexec, unlessFaulted_of_none hclear, horder.mode hmode]
  exact finish_error_of_none hclear .mode

/-- In the mode it needs an adaptive put of -2^(W-1) raises DOMAIN (R290). -/
theorem exec_domainError {i : Instr} {s : State} (kind : neededMode i = some s.mode)
    (hdomain : domainError i s.operand = true) (hclear : s.fault = .none) :
    exec i s = .next (s.faultedWith .domain) := by
  obtain ⟨attempt, hexec, horder⟩ := exec_of_neededMode kind s
  rw [hexec, unlessFaulted_of_none hclear, horder.domain rfl hdomain]
  exact finish_error_of_none hclear .domain

/-- Settles O18: the MODE check comes before the rest of the command's rule. -/
theorem wrongModeFaults : Obligations.WrongModeFaults := fun _ _ _ => exec_wrongMode

/-- Settles O37: the operand is the one of a DOMAIN error. -/
theorem mostNegativeValueFaults : Obligations.MostNegativeValueFaults := by
  intro w sm st s hclear hmode hleast
  have kind : neededMode (putvOf w sm st) = some s.mode := by
    rw [hmode]
    cases w <;> rfl
  exact exec_domainError kind ((domainError_putvOf w sm st s.operand).2 hleast) hclear

/-! ## Every command ends, and a faulted state refuses (R282 to R284) -/

theorem exec_next (i : Instr) (s : State) : ∃ t, exec i s = .next t := by
  cases i
  case alloc => exact finish_next s _
  case rdreg idx => exact ⟨_, exec_rdreg idx s⟩
  all_goals exact unlessFaulted_next s _

theorem runCommand_next (s : State) : ∃ t, runCommand s = .next t := by
  unfold runCommand
  split
  · next i _ => exact exec_next i s
  · exact unlessFaulted_next s _

/-- While a fault is recorded every word but a legal ALLOC or RDREG is refused (R284). -/
theorem runCommand_refused {s : State} (hfaulted : s.fault ≠ .none)
    (hword : ∀ i, decode s.cmd = .ok i → runsWhileFaulted i = false) : runCommand s = .next s.refuse := by
  obtain ⟨t, hrun⟩ := runCommand_next s
  cases runCommand_ends hrun with
  | @completes i u legal runs _ =>
    have hblocked : runsWhileFaulted i = false := hword i (State.fetched_eq_some.1 legal)
    exact absurd (hblocked.symm.trans (runs.resolve_left hfaulted)) (by decide)
  | faults clear _ => exact absurd clear hfaulted
  | refused _ => exact hrun

/-- A command that completes on a state without a fault leaves none (R282). -/
theorem Effect.fault_of_none {i : Instr} {s t : State} (h : Effect i s t) (hclear : s.fault = .none) :
    t.fault = .none := by
  by_cases hi : i = .alloc
  · subst hi
    obtain ⟨_, hfault, _⟩ := h.alloc_clears
    exact hfault
  · obtain ⟨hfault, _⟩ := h.fault_of_ne_alloc hi
    exact hfault.trans hclear

/-- Settles O13: a command that ends with a fault has not completed, so it has recorded the fault alone. -/
theorem faultsArePrecise : Obligations.FaultsArePrecise := by
  intro s t c o rest hpending hclear hstep hfault
  rw [step_command hpending] at hstep
  cases runCommand_ends hstep with
  | completes _ _ effect => exact absurd (effect.fault_of_none hclear) hfault
  | faults _ _ => rfl
  | refused faulted => exact absurd hclear faulted

/-- Settles O14: a refusal, and the three endings of ALLOC and RDREG. -/
theorem refusedWhileFaulted : Obligations.RefusedWhileFaulted := by
  intro s c o rest hpending hfaulted
  have hexec : ∀ {i}, decode c = .ok i → step s = exec i (s.present c o rest) :=
    stepRunsPresentedCommand s c o rest _ hpending
  refine ⟨fun hword => ?refused, fun hdecode hfits => ?alloc, fun hdecode hexceeds => ?allocRange,
    fun idx hdecode => ?rdreg⟩
  case refused =>
    rw [step_command hpending]
    exact runCommand_refused (s := s.present c o rest) hfaulted hword
  case alloc =>
    rw [hexec hdecode, exec_alloc_of_fits (s := s.present c o rest) hfits]
    exact ⟨_, rfl, rfl, rfl, rfl⟩
  case allocRange =>
    rw [hexec hdecode, exec_alloc_of_exceeds (s := s.present c o rest) hexceeds,
      State.raise_of_fault (s := s.present c o rest) hfaulted]
    rfl
  case rdreg =>
    rw [hexec hdecode, exec_rdreg]
    rfl

/-! ## The order of the faults (R292) -/

/-- FLIP fails only by the flush of a pending word, which is in write mode (R287). -/
theorem exec_flip_fault {s t : State} (hclear : s.fault = .none) (hexec : exec .flip s = .next t) :
    t.fault = .none ∨ (t.fault = .overflow ∧ s.mode = .write) := by
  by_cases hpending : s.mode = .write ∧ s.free.val < 64
  · obtain ⟨hmode, hbits⟩ := hpending
    rcases Nat.lt_or_ge s.cap.toNat (s.wpos.toNat + 8) with hfull | hroom
    · obtain rfl := Host.Outcome.next.inj ((exec_flip_overflows hclear hmode hbits hfull).symm.trans hexec)
      exact .inr ⟨rfl, hmode⟩
    · obtain rfl := Host.Outcome.next.inj ((exec_flip_flushes hclear hmode hbits hroom).symm.trans hexec)
      exact .inl hclear
  · rw [exec_flip hclear, flipBuffer, if_neg hpending, finish_ok] at hexec
    exact .inl (Host.Outcome.next.inj hexec ▸ hclear)

/-- A command that answers OK = 1 has completed, with its effect (R282). -/
theorem exec_effect_of_ok {i : Instr} {s u : State} (hexec : exec i s = .next (u.respond true)) :
    ∃ v, u.respond true = v.respond true ∧ Effect i s v := by
  rcases (exec_ends hexec).completes_or_keeps with hcompletes | hkept
  · exact hcompletes
  · exact absurd (congrArg State.reply hkept) (by simp)

/-- Past MODE and DOMAIN a PUT-type or GET-type command completes or raises the engine's fault (R287, R288). -/
theorem exec_fault_of_neededMode {i : Instr} {s t : State} (kind : neededMode i = some s.mode)
    (hdomain : domainError i s.operand = false) (hclear : s.fault = .none) (hexec : exec i s = .next t) :
    t.fault = .none ∨ t.fault = s.mode.engineFault := by
  obtain ⟨attempt, hattempt, horder⟩ := exec_of_neededMode kind s
  have hfinish : finish s attempt = .next t := by rw [← hexec, hattempt, unlessFaulted_of_none hclear]
  cases hend : attempt with
  | ok u =>
    rw [hend, finish_ok] at hfinish
    obtain rfl := Host.Outcome.next.inj hfinish
    obtain ⟨v, hv, effect⟩ := exec_effect_of_ok hexec
    exact .inl (hv ▸ effect.fault_of_none hclear)
  | error code =>
    rw [hend, finish_error_of_none hclear] at hfinish
    exact .inr (Host.Outcome.next.inj hfinish ▸ horder.engine rfl hdomain code hend)

/-- Past all earlier faults a command completes, overflows in write mode, or underflows as a get (R287, R288). -/
theorem exec_fault_last {i : Instr} {s t : State} (hmode : neededMode i = some s.mode ∨ neededMode i = none)
    (hdomain : domainError i s.operand = false) (hfits : i = .alloc → s.operand.toNat ≤ Config.capMax)
    (hclear : s.fault = .none) (hexec : exec i s = .next t) :
    t.fault = .none ∨ (t.fault = .overflow ∧ s.mode = .write ∧ i ≠ .alloc) ∨
      (t.fault = .underflow ∧ neededMode i = some .read) := by
  rcases hmode with kind | kind
  · rcases exec_fault_of_neededMode kind hdomain hclear hexec with hnone | hfault
    · exact .inl hnone
    · cases hm : s.mode with
      | write =>
        have hi : i ≠ .alloc := by
          rintro rfl
          exact nomatch kind
        exact .inr (.inl ⟨hfault.trans (congrArg Mode.engineFault hm), rfl, hi⟩)
      | read => exact .inr (.inr ⟨hfault.trans (congrArg Mode.engineFault hm), hm ▸ kind⟩)
  · cases i
    case alloc =>
      obtain rfl := Host.Outcome.next.inj ((exec_alloc_of_fits (hfits rfl)).symm.trans hexec)
      exact .inl rfl
    case flip =>
      rcases exec_flip_fault hclear hexec with hnone | ⟨hfault, hwrite⟩
      · exact .inl hnone
      · exact .inr (.inl ⟨hfault, hwrite, by decide⟩)
    case compact =>
      obtain rfl := Host.Outcome.next.inj ((exec_compact hclear).symm.trans hexec)
      exact .inl ((compactBuffer_effect s).fault_of_none hclear)
    case rdreg idx =>
      obtain rfl := Host.Outcome.next.inj ((exec_rdreg idx s).symm.trans hexec)
      exact .inl hclear
    all_goals exact nomatch kind

/-- Settles O17: each clause by the rule of its fault, the refusal and the illegal word before the command's own. -/
theorem faultPriority : Obligations.FaultPriority := by
  intro s t c o rest hpending hstep
  refine ⟨fun hfaulted hword => ?refused, fun hclear hillegal => ?illegal, fun hclear i hdecode => ?command⟩
  case refused =>
    obtain ⟨hrefused, _⟩ := refusedWhileFaulted s c o rest hpending hfaulted
    obtain rfl := Host.Outcome.next.inj ((hrefused hword).symm.trans hstep)
    exact ⟨rfl, rfl⟩
  case illegal =>
    obtain ⟨_, hfaults⟩ := illegalWordsFault c
    obtain rfl := Host.Outcome.next.inj ((hfaults hillegal s o rest hpending hclear).symm.trans hstep)
    rfl
  case command =>
    have hexec : exec i (s.present c o rest) = .next t :=
      (stepRunsPresentedCommand s c o rest i hpending hdecode).symm.trans hstep
    have hends : ∀ {code}, exec i (s.present c o rest) = .next ((s.present c o rest).faultedWith code) →
        t.fault = code := fun h => Host.Outcome.next.inj (h.symm.trans hexec) ▸ rfl
    refine ⟨fun m kind hother => hends (exec_wrongMode kind hother hclear),
      fun kind hdomain => hends (exec_domainError kind hdomain hclear), ?allocRange,
      fun hmode hdomain hfits =>
        exec_fault_last (s := s.present c o rest) hmode hdomain hfits hclear hexec⟩
    case allocRange =>
      rintro rfl hexceeds
      refine hends ((exec_alloc_of_exceeds hexceeds).trans ?_)
      rw [State.raise_of_none (s := s.present c o rest) hclear]
      rfl

/-! ## One way to end (R282) -/

theorem CompletesIn.ok {i : Instr} {s t : State} (h : CompletesIn i s t) :
    t.reply = some (.response true t.result) := by
  obtain ⟨hreply, _⟩ := h
  exact hreply

theorem FaultsIn.notOk {i : Instr} {s t : State} (h : FaultsIn i s t) :
    t.reply = some (.response false s.result) := by
  rcases h with ⟨_, _, ht⟩ | ⟨_, _, ht⟩
  · exact congrArg State.reply ht
  · exact congrArg State.reply ht

theorem RefusedIn.notOk {i : Instr} {s t : State} (h : RefusedIn i s t) :
    t.reply = some (.response false s.result) := by
  obtain ⟨_, _, ht⟩ := h
  exact congrArg State.reply ht

/-- OK tells a completed command from the others. -/
theorem CompletesIn.not_notOk {i : Instr} {s t : State} (h : CompletesIn i s t) :
    t.reply ≠ some (.response false s.result) := by
  rw [h.ok]
  simp

/-- With a fault recorded only an ALLOC faults, and no ALLOC is refused. -/
theorem FaultsIn.not_refusedIn {i : Instr} {s t : State} (h : FaultsIn i s t) : ¬ RefusedIn i s t := by
  rintro ⟨hfaulted, hblocked, _⟩
  rcases h with ⟨hclear, _⟩ | ⟨_, rfl, _⟩
  · exact hfaulted hclear
  · exact nomatch hblocked

/-- A completed command answers OK = 1, with FAULT as its effect leaves it (R282, R294). -/
theorem Effect.completesIn {i : Instr} {s u : State} (h : Effect i s u) : CompletesIn i s (u.respond true) := by
  refine ⟨rfl, ?_⟩
  by_cases hi : i = .alloc
  · subst hi
    obtain ⟨_, hfault, _⟩ := h.alloc_clears
    exact .inr ⟨rfl, hfault⟩
  · obtain ⟨hfault, _⟩ := h.fault_of_ne_alloc hi
    exact .inl hfault

/-- A command that leaves a faulted state as it was is a failing ALLOC or is refused: RDREG answers OK = 1 (R284). -/
theorem faultsIn_or_refusedIn {i : Instr} {s : State} (hfaulted : s.fault ≠ .none)
    (hexec : exec i s = .next s.refuse) : FaultsIn i s s.refuse ∨ RefusedIn i s s.refuse := by
  by_cases hruns : runsWhileFaulted i = true
  · cases i
    case alloc => exact .inl (.inr ⟨hfaulted, rfl, rfl⟩)
    case rdreg idx =>
      have hsame := Host.Outcome.next.inj ((exec_rdreg idx s).symm.trans hexec)
      exact absurd (congrArg State.reply hsame) (by simp)
    all_goals exact nomatch hruns
  · exact .inr ⟨hfaulted, Bool.eq_false_iff.2 hruns, rfl⟩

/-- The endings of a command, in the terms of R282. -/
theorem exec_completes_faults_or_refused {i : Instr} {s t : State} (hexec : exec i s = .next t) :
    CompletesIn i s t ∨ FaultsIn i s t ∨ RefusedIn i s t := by
  cases exec_ends hexec with
  | completes legal _ effect =>
    obtain rfl := Option.some.inj legal
    exact .inl effect.completesIn
  | faults clear code_ne => exact .inr (.inl (.inl ⟨clear, code_ne, rfl⟩))
  | refused faulted => exact .inr (faultsIn_or_refusedIn faulted hexec)

/-- Settles O19: the command ends in one of the three ways, and any two exclude each other. -/
theorem commandEndsOneWay : Obligations.CommandEndsOneWay := by
  intro i s
  obtain ⟨t, hexec⟩ := exec_next i s
  refine ⟨t, hexec, ?_⟩
  rcases exec_completes_faults_or_refused hexec with hcompletes | hfaults | hrefused
  · exact .inl ⟨hcompletes, fun h => hcompletes.not_notOk h.notOk, fun h => hcompletes.not_notOk h.notOk⟩
  · exact .inr (.inl ⟨fun h => h.not_notOk hfaults.notOk, hfaults, hfaults.not_refusedIn⟩)
  · exact .inr (.inr ⟨fun h => h.not_notOk hrefused.notOk, fun h => h.not_refusedIn hrefused, hrefused⟩)

end Sys2Proof.Machine
end

section
/-!
PROOFS. The registers after reset (70_reset_and_hazards.md R310), and that ALLOC with OPERAND 0 sets all of them but RESULT
alike.
-/

namespace Sys2Proof.Machine

/-- ALLOC of 0 bytes never faults: 0 is below every CAP_MAX (R8). -/
theorem exec_alloc_zero {s : State} (hzero : s.operand = 0) :
    exec .alloc s = .next ((s.allocated 0).respond true) := by
  have hfits : s.operand.toNat ≤ Config.capMax := hzero ▸ Nat.zero_le Config.capMax
  rw [exec_alloc_of_fits hfits, hzero]

/-- No bytes round up to no capacity (43_lifecycle.md R250). -/
theorem State.allocated_zero_cap (s : State) : (s.allocated 0).cap = 0 := by
  rw [State.allocated_cap]
  decide

/-- Settles O8: RESET puts in the reset values whatever the state was; of what ALLOC 0 leaves, CAP is the one value that
depends on the operand. -/
theorem resetSetsEveryRegister : Obligations.ResetSetsEveryRegister := by
  refine ⟨fun s rest hpending => ?reset, fun s hzero => ?alloc⟩
  case reset =>
    exact ⟨_, step_reset hpending, rfl, rfl, rfl, rfl, rfl, rfl, rfl, State.faultLine_eq_false.2 rfl, rfl, rfl, rfl⟩
  case alloc =>
    exact ⟨_, exec_alloc_zero hzero, rfl, rfl, rfl, s.allocated_zero_cap, rfl, rfl, rfl,
      State.faultLine_eq_false.2 rfl, rfl, rfl⟩

end Sys2Proof.Machine
end
